-- ==== Sys2Proof/Word.lean ====
section
/-!
DEFINITION. The word types of the device: the data byte, the CPU bus address and the 25-bit bus transaction
word `T = {rw, addr[15:0], data[7:0]}` (30_encoding.md R100).
-/

namespace Sys2Proof

/-- One data byte of the register space; every access moves exactly one (20_memory.md R71). -/
abbrev Byte := BitVec 8

/-- A 16-bit CPU bus address (30_encoding.md R100). -/
abbrev Addr := BitVec 16

/-- The head of a transaction: the direction bit and the address, bits 24 to 8 of `T` (30_encoding.md R100, R101). -/
abbrev Head := BitVec 17

/-- A bus transaction word `T` (30_encoding.md R100). -/
abbrev TWord := BitVec 25

end Sys2Proof
end

