-- ==== Sys2Proof/Config.lean ====
section
/-!
DEFINITION. What is fixed for one machine: the implementation parameters of 00_scope.md R10 as one record, the
constraints a replacement value must keep (93_implementation_defined.md U9), and the values the spec leaves free,
which are constants without a body: nothing in Lean can evaluate them.
The default values stand in Sys2Proof/Machine/Params.lean.
-/

namespace Sys2Proof

/-- The two TV timing modes (00_scope.md R1). -/
inductive TvMode where
  | ntsc
  | pal
deriving DecidableEq, Repr, Inhabited

/-- The two orders in which a host may store the bytes of a 16-bit sample slot (20_memory.md R74 (d)). -/
inductive ByteOrder where
  | lowFirst
  | highFirst
deriving DecidableEq, Repr, Inhabited

/-- `HOST_BYTE_ORDER`: the spec leaves it open and gives no default (00_scope.md R10, 92 D32), so it has no body.
Log entry 8. -/
opaque Config.hostByteOrder : ByteOrder

/-- The byte `Cpu.peek` answers at an address the model knows nothing about: an input that nothing in the spec
constrains and that may differ from call to call (20_memory.md R72, 93 U1).  The first argument counts the free
answers given so far.  A FREE VALUE: no body, and no statement may rest on one value of it.  Log entry 6. -/
opaque Config.freePeek : Nat → Addr → Byte

/-- The configuration record of 00_scope.md R10.  No step function holds one of these numbers as a literal. -/
structure Params where
  /-- `M_MAX`, the bound of the multiplier search. -/
  mMax : Nat
  /-- `SQ_MIN_PERIOD` and `SQ_MAX_PERIOD`, the square period validity window. -/
  sqMinPeriod : Nat
  sqMaxPeriod : Nat
  /-- `DAC_MAX`, the largest Dmc level. -/
  dacMax : Nat
  /-- `LENGTH_MAX`, the largest length count. -/
  lengthMax : Nat
  /-- `CLOCK_BASE` and `BASE_DIVIDER`: numerator and denominator of the master clock in Hz. -/
  clockBase : TvMode → Nat
  baseDivider : TvMode → Nat
  /-- `CPU_DIV`, master-clock cycles per CPU cycle. -/
  cpuDiv : TvMode → Nat
  /-- `FPS`, nominal video frames per second. -/
  fps : TvMode → Nat
  /-- The five lookup tables (10 R33, 41 R151, 42 R181, 43 R201, 44 R221). -/
  lengthTable : List Nat
  dutyTable : List (List Nat)
  triangleTable : List Nat
  noisePeriod : TvMode → List Nat
  dmcPeriod : TvMode → List Nat
  /-- `NOISE_SEED`, the LFSR value after reset. -/
  noiseSeed : BitVec 15
  /-- `TRI_MIN_PERIOD`, the smallest triangle period value that sounds. -/
  triMinPeriod : Nat
  /-- `FRAME_STEP[tv][mode]`, the four step lengths; the Boolean is `mode5`. -/
  frameStep : TvMode → Bool → List Nat
  /-- `FRAME_IRQ_CLOCKS[tv]`, the frame IRQ spacing. -/
  frameIrqClocks : TvMode → List Nat
  /-- `FRAME_WRITE_DELAY`, CPU cycles between a `$4017` write and the divider reset. -/
  frameWriteDelay : Nat
  /-- `DMA_STEAL_CYCLES`, CPU cycles one Dmc fetch steals. -/
  dmaStealCycles : Nat
  /-- `OUTPUT_MUL`, the amplitude of one volume step. -/
  outputMul : Nat
  /-- `OUTPUT_DECAY`, the per-sample decay of an inactive channel. -/
  outputDecay : Nat
  /-- `TRI_WEIGHT` and `NOISE_WEIGHT`, weights in the second mixer group. -/
  triWeight : Nat
  noiseWeight : Nat
  /-- `DMC_LIN_STEP`, the largest change of `linSample` per sample. -/
  dmcLinStep : Nat
  /-- The mixer constants `NLN_SQ_0/1/2` and `NLN_TND_0/1/2` (48 R311). -/
  nlnSq0 : Nat
  nlnSq1 : Nat
  nlnSq2 : Nat
  nlnTnd0 : Nat
  nlnTnd1 : Nat
  nlnTnd2 : Nat
  /-- `DC_K` and `DC_POLE`, the DC blocker's shift and pole. -/
  dcK : Nat
  dcPole : Nat
  /-- `SAMPLE_MIN` and `SAMPLE_MAX`, the signed sample bounds. -/
  sampleMin : Int
  sampleMax : Int
  /-- `RING_SIZE` and `HISTORY_SIZE`, powers of two. -/
  ringSize : Nat
  historySize : Nat
  /-- `HOST_BYTE_ORDER`, open. -/
  hostByteOrder : ByteOrder

/-- The constraints the meaning column of 00_scope.md R10 and 93 U9 put on a replacement value: the four values the
source fixes, tables of the stated size and range, positive periods and dividers, a non-zero seed, ring sizes that are powers of two, and bounds that
enclose silence. -/
structure Params.Valid (P : Params) : Prop where
  mMax_pos : 0 < P.mMax
  sqMinPeriod_eq : P.sqMinPeriod = 8
  sqMaxPeriod_eq : P.sqMaxPeriod = 0x7FF
  dacMax_eq : P.dacMax = 0x7F
  lengthMax_eq : P.lengthMax = 254
  clockBase_pos : ∀ tv, 0 < P.clockBase tv
  baseDivider_pos : ∀ tv, 0 < P.baseDivider tv
  cpuDiv_pos : ∀ tv, 0 < P.cpuDiv tv
  lengthTable_size : P.lengthTable.length = 32
  lengthTable_le : ∀ x ∈ P.lengthTable, x ≤ P.lengthMax
  dutyTable_le : ∀ row ∈ P.dutyTable, ∀ x ∈ row, x ≤ 1
  triangleTable_le : ∀ x ∈ P.triangleTable, x ≤ 15
  noisePeriod_size : ∀ tv, (P.noisePeriod tv).length = 16
  noisePeriod_pos : ∀ tv, ∀ x ∈ P.noisePeriod tv, 0 < x
  dmcPeriod_size : ∀ tv, (P.dmcPeriod tv).length = 16
  dmcPeriod_pos : ∀ tv, ∀ x ∈ P.dmcPeriod tv, 0 < x
  frameStep_size : ∀ tv m, (P.frameStep tv m).length = 4
  frameStep_pos : ∀ tv m, ∀ x ∈ P.frameStep tv m, 0 < x
  frameIrqClocks_size : ∀ tv, (P.frameIrqClocks tv).length = 4
  frameIrqClocks_pos : ∀ tv, ∀ x ∈ P.frameIrqClocks tv, 0 < x
  noiseSeed_ne : P.noiseSeed ≠ 0
  dmcLinStep_pos : 0 < P.dmcLinStep
  sampleMin_le : P.sampleMin ≤ 0
  sampleMax_ge : 0 ≤ P.sampleMax
  ringSize_pow : ∃ k, P.ringSize = 2 ^ k
  historySize_pow : ∃ k, P.historySize = 2 ^ k

end Sys2Proof
end

