-- ==== Sys2Proof/Syntax.lean ====
section
/-!
DEFINITION. What the machine is asked to do.  The instructions are bus transactions, one constructor per row of the
opcode table (30_encoding.md R102, R104 (a)); their operands are the bit fields of the data byte, one structure per
format (30_encoding.md R105 to R118), unused bits kept, so that no bit of a written byte is lost.
Beside them stand the host events (30_encoding.md R120) and the lines of a program (30_encoding.md R121).
-/

namespace Sys2Proof

/-! ### Field formats of the data byte -/

/-- `F_ENV` (R106): bits 7:6 `DD`, 5 `L`, 4 `C`, 3:0 `VVVV`.  On Noise the duty bits are stored and have no effect
(43 R210). -/
structure FEnv where
  duty : BitVec 2
  loop : Bool
  disable : Bool
  rate : BitVec 4
deriving DecidableEq, Repr

/-- `F_SWEEP` (R107): bit 7 `E`, 6:4 `PPP`, 3 `N` (1 decreases the period value), 2:0 `SSS`. -/
structure FSweep where
  enable : Bool
  rate : BitVec 3
  decrease : Bool
  shift : BitVec 3
deriving DecidableEq, Repr

/-- `F_PLO` (R108): the whole byte is bits 7:0 of the period value. -/
structure FPlo where
  low : Byte
deriving DecidableEq, Repr

/-- `F_PHI` (R109): bits 7:3 `IIIII`, the length index; 2:0 `HHH`, bits 10:8 of the period value (unused on
`NOI_R3`). -/
structure FPhi where
  index : BitVec 5
  high : BitVec 3
deriving DecidableEq, Repr

/-- `F_BYTE` (R112, R113): the whole byte, the Dmc's start address or length. -/
structure FByte where
  value : Byte
deriving DecidableEq, Repr

/-- `F_LIN` (R114): bit 7 `C`, 6:0 `RRRRRRR`. -/
structure FLin where
  control : Bool
  reload : BitVec 7
deriving DecidableEq, Repr

/-- `F_NPER` (R115): bit 7 `M`, 6:4 unused, 3:0 `PPPP`. -/
structure FNper where
  mode : Bool
  unused : BitVec 3
  period : BitVec 4
deriving DecidableEq, Repr

/-- `F_DCTL` (R116): bit 7 `I`, 6 `L`, 5:4 unused, 3:0 `RRRR`. -/
structure FDctl where
  irqEnable : Bool
  loop : Bool
  unused : BitVec 2
  rate : BitVec 4
deriving DecidableEq, Repr

/-- `F_DDAC` (R117): bit 7 unused, 6:0 `DDDDDDD`. -/
structure FDdac where
  unused : Bool
  level : BitVec 7
deriving DecidableEq, Repr

/-- `F_STW` (R118): bits 7:5 unused, 4 `D`, 3 `N`, 2 `T`, 1 `2`, 0 `1`. -/
structure FStw where
  unused : BitVec 3
  dmc : Bool
  noise : Bool
  tri : Bool
  square2 : Bool
  square1 : Bool
deriving DecidableEq, Repr

/-- `F_FRM` (R105): bit 7 `M`, 6 `I`, 5:0 unused. -/
structure FFrm where
  mode5 : Bool
  irqInhibit : Bool
  unused : BitVec 6
deriving DecidableEq, Repr

/-- `F_STR` (R119), the byte `STATUS_R` returns: bit 7 `I`, 6 `F`, 5 always 0, 4 `D`, 3 `N`, 2 `T`, 1 `2`, 0 `1`. -/
structure FStr where
  dmcIrq : Bool
  frameIrq : Bool
  dmc : Bool
  noise : Bool
  tri : Bool
  square2 : Bool
  square1 : Bool
deriving DecidableEq, Repr

/-! ### Instructions -/

/-- The bus transactions the device serves: the 21 rows of 30_encoding.md R102 and the two no-effect writes of
R104 (a), in the order of the opcode table.  A read's data field is ignored on input (R100), so `statusR` has no
operand. -/
inductive Instr where
  | sq1R0 (f : FEnv)
  | sq1R1 (f : FSweep)
  | sq1R2 (f : FPlo)
  | sq1R3 (f : FPhi)
  | sq2R0 (f : FEnv)
  | sq2R1 (f : FSweep)
  | sq2R2 (f : FPlo)
  | sq2R3 (f : FPhi)
  | triR0 (f : FLin)
  | triR2 (f : FPlo)
  | triR3 (f : FPhi)
  | noiR0 (f : FEnv)
  | noiR2 (f : FNper)
  | noiR3 (f : FPhi)
  | dmcR0 (f : FDctl)
  | dmcR1 (f : FDdac)
  | dmcR2 (f : FByte)
  | dmcR3 (f : FByte)
  | statusW (f : FStw)
  | statusR
  | frameW (f : FFrm)
  | nop4009 (d : Byte)
  | nop400D (d : Byte)
deriving DecidableEq, Repr

/-! ### Host events -/

/-- Which of the two code paths `Update` takes (00_scope.md R10 `synth`, 30_encoding.md R122). -/
inductive SynthMode where
  | synth
  | advanceOnly
deriving DecidableEq, Repr

/-- Output channel count (00_scope.md R10 `stereo`). -/
inductive Channels where
  | mono
  | stereo
deriving DecidableEq, Repr

/-- The six settings of `Configure` (47_clock_converter.md R291) and of `cfg` (10_state.md R48).  `bits` is any
natural number as an argument; `Configure` accepts 8 and 16 only. -/
structure Settings where
  sampleRate : Nat
  speed : Nat
  tv : TvMode
  bits : Nat
  channels : Channels
  synth : SynthMode
deriving DecidableEq, Repr

/-- The answer of the host's `Lock` (49_output_and_synthesis.md R339): no callbacks at all counts as granted, and no
callback is then called. -/
inductive LockAnswer where
  | noCallbacks
  | granted
  | refused
deriving DecidableEq, Repr

/-- The seven host events of 30_encoding.md R120 with their arguments.  Times and frame lengths are in MC; a stream is
given by its `length` in sample frames. -/
inductive HostEvent where
  | reset (hard : Bool)
  | configure (new : Settings)
  | update (now : Nat)
  | endFrame (now : Nat) (frameCycles : Nat) (stream : Option Nat) (lock : LockAnswer)
  | flush (length : Nat)
  | dmcTick (now : Nat)
  | frameIrqTick (now : Nat)
deriving DecidableEq, Repr

/-- One line of a program (30_encoding.md R121): a timed bus transaction with the parity the CPU collaborator supplies
(20_memory.md R72), a host event, or a change of the CPU collaborator's memory, which is no operation of the device
but decides what a later fetch sees (20_memory.md R82). -/
inductive Line where
  | bus (now : Nat) (odd : Bool) (word : TWord)
  | event (e : HostEvent)
  | cpuStore (addr : Addr) (value : Byte)
deriving DecidableEq, Repr

end Sys2Proof
end

