-- ==== Sys2Proof/Decode.lean ====
section
/-!
DEFINITION. Decoding and encoding of bus transactions (30_encoding.md R100 to R119), both written from the register
map and the field formats.  `decode` is total on the 25-bit words and rejects by name what R104 (b) to (d) says is no
operation of this device.
-/

namespace Sys2Proof

/-! ### Fields of a data byte, format by format -/

/-- `F_ENV` (R106). -/
def FEnv.ofByte (d : Byte) : FEnv := ⟨d.extractLsb' 6 2, d.getLsbD 5, d.getLsbD 4, d.extractLsb' 0 4⟩
def FEnv.toByte (f : FEnv) : Byte := f.duty ++ BitVec.ofBool f.loop ++ BitVec.ofBool f.disable ++ f.rate

/-- `F_SWEEP` (R107). -/
def FSweep.ofByte (d : Byte) : FSweep := ⟨d.getLsbD 7, d.extractLsb' 4 3, d.getLsbD 3, d.extractLsb' 0 3⟩
def FSweep.toByte (f : FSweep) : Byte := BitVec.ofBool f.enable ++ f.rate ++ BitVec.ofBool f.decrease ++ f.shift

/-- `F_PLO` (R108). -/
def FPlo.ofByte (d : Byte) : FPlo := ⟨d⟩
def FPlo.toByte (f : FPlo) : Byte := f.low

/-- `F_PHI` (R109). -/
def FPhi.ofByte (d : Byte) : FPhi := ⟨d.extractLsb' 3 5, d.extractLsb' 0 3⟩
def FPhi.toByte (f : FPhi) : Byte := f.index ++ f.high

/-- `F_BYTE` (R112, R113). -/
def FByte.ofByte (d : Byte) : FByte := ⟨d⟩
def FByte.toByte (f : FByte) : Byte := f.value

/-- `F_LIN` (R114). -/
def FLin.ofByte (d : Byte) : FLin := ⟨d.getLsbD 7, d.extractLsb' 0 7⟩
def FLin.toByte (f : FLin) : Byte := BitVec.ofBool f.control ++ f.reload

/-- `F_NPER` (R115). -/
def FNper.ofByte (d : Byte) : FNper := ⟨d.getLsbD 7, d.extractLsb' 4 3, d.extractLsb' 0 4⟩
def FNper.toByte (f : FNper) : Byte := BitVec.ofBool f.mode ++ f.unused ++ f.period

/-- `F_DCTL` (R116). -/
def FDctl.ofByte (d : Byte) : FDctl := ⟨d.getLsbD 7, d.getLsbD 6, d.extractLsb' 4 2, d.extractLsb' 0 4⟩
def FDctl.toByte (f : FDctl) : Byte := BitVec.ofBool f.irqEnable ++ BitVec.ofBool f.loop ++ f.unused ++ f.rate

/-- `F_DDAC` (R117). -/
def FDdac.ofByte (d : Byte) : FDdac := ⟨d.getLsbD 7, d.extractLsb' 0 7⟩
def FDdac.toByte (f : FDdac) : Byte := BitVec.ofBool f.unused ++ f.level

/-- `F_STW` (R118). -/
def FStw.ofByte (d : Byte) : FStw :=
  ⟨d.extractLsb' 5 3, d.getLsbD 4, d.getLsbD 3, d.getLsbD 2, d.getLsbD 1, d.getLsbD 0⟩
def FStw.toByte (f : FStw) : Byte :=
  f.unused ++ BitVec.ofBool f.dmc ++ BitVec.ofBool f.noise ++ BitVec.ofBool f.tri ++ BitVec.ofBool f.square2
    ++ BitVec.ofBool f.square1

/-- `F_FRM` (R105). -/
def FFrm.ofByte (d : Byte) : FFrm := ⟨d.getLsbD 7, d.getLsbD 6, d.extractLsb' 0 6⟩
def FFrm.toByte (f : FFrm) : Byte := BitVec.ofBool f.mode5 ++ BitVec.ofBool f.irqInhibit ++ f.unused

/-- `F_STR` (R119), the byte a status read returns; bit 5 is always 0 in the model (93 U7). -/
def FStr.toByte (f : FStr) : Byte :=
  BitVec.ofBool f.dmcIrq ++ BitVec.ofBool f.frameIrq ++ (0 : BitVec 1) ++ BitVec.ofBool f.dmc
    ++ BitVec.ofBool f.noise ++ BitVec.ofBool f.tri ++ BitVec.ofBool f.square2 ++ BitVec.ofBool f.square1

/-! ### The transaction word -/

/-- Bits 24 to 8 of `T`: direction and address (R100). -/
def TWord.head (t : TWord) : Head := t.extractLsb' 8 17
/-- Bit 24 of `T`: 1 for a write (R100). -/
def TWord.isWrite (t : TWord) : Bool := t.getLsbD 24
/-- Bits 23 to 8 of `T`: the CPU address (R100). -/
def TWord.addr (t : TWord) : Addr := t.extractLsb' 8 16
/-- Bits 7 to 0 of `T`: the data byte (R100). -/
def TWord.data (t : TWord) : Byte := t.extractLsb' 0 8

/-- One row of the opcode table: the head under the mask `0x1FFFF00` (R101) and how the row reads the data byte. -/
structure Row where
  head : Head
  make : Byte → Instr

/-- The register map (R102) and the two no-effect writes (R104 (a)), in the order of the opcode table. -/
def rows : List Row := [
  ⟨0x14000, fun d => .sq1R0 (.ofByte d)⟩,
  ⟨0x14001, fun d => .sq1R1 (.ofByte d)⟩,
  ⟨0x14002, fun d => .sq1R2 (.ofByte d)⟩,
  ⟨0x14003, fun d => .sq1R3 (.ofByte d)⟩,
  ⟨0x14004, fun d => .sq2R0 (.ofByte d)⟩,
  ⟨0x14005, fun d => .sq2R1 (.ofByte d)⟩,
  ⟨0x14006, fun d => .sq2R2 (.ofByte d)⟩,
  ⟨0x14007, fun d => .sq2R3 (.ofByte d)⟩,
  ⟨0x14008, fun d => .triR0 (.ofByte d)⟩,
  ⟨0x1400A, fun d => .triR2 (.ofByte d)⟩,
  ⟨0x1400B, fun d => .triR3 (.ofByte d)⟩,
  ⟨0x1400C, fun d => .noiR0 (.ofByte d)⟩,
  ⟨0x1400E, fun d => .noiR2 (.ofByte d)⟩,
  ⟨0x1400F, fun d => .noiR3 (.ofByte d)⟩,
  ⟨0x14010, fun d => .dmcR0 (.ofByte d)⟩,
  ⟨0x14011, fun d => .dmcR1 (.ofByte d)⟩,
  ⟨0x14012, fun d => .dmcR2 (.ofByte d)⟩,
  ⟨0x14013, fun d => .dmcR3 (.ofByte d)⟩,
  ⟨0x14015, fun d => .statusW (.ofByte d)⟩,
  ⟨0x04015, fun _ => .statusR⟩,
  ⟨0x14017, fun d => .frameW (.ofByte d)⟩,
  ⟨0x14009, fun d => .nop4009 d⟩,
  ⟨0x1400D, fun d => .nop400D d⟩]

/-- Why a transaction is no operation of this device (R104 (b) to (d)). -/
inductive Reject where
  /-- `$4014` or `$4016`, either direction: other devices' ports (R104 (b)). -/
  | otherDevice (addr : Addr)
  /-- A read of a window address other than `$4015` (R104 (c)): the source gives it no value. -/
  | readOfWriteOnly (addr : Addr)
  /-- An address outside `$4000` to `$4017`: it never reaches the device (R104 (d)). -/
  | outsideWindow (addr : Addr)
deriving DecidableEq, Repr

/-- What a transaction word decodes to. -/
inductive Decoded where
  | instr (i : Instr)
  | reject (why : Reject)
deriving DecidableEq, Repr

/-- The class of a transaction that matches no row (R104 (b) to (d)). -/
def rejectOf (t : TWord) : Reject :=
  let a := t.addr
  if a = 0x4014 ∨ a = 0x4016 then .otherDevice a
  else if 0x4000 ≤ a.toNat ∧ a.toNat ≤ 0x4017 then .readOfWriteOnly a
  else .outsideWindow a

/-- Decoding, total on the 25-bit words (R101, R103, R104). -/
def decode (t : TWord) : Decoded :=
  match rows.find? (fun r => r.head == t.head) with
  | some r => .instr (r.make t.data)
  | none => .reject (rejectOf t)

/-! ### Encoding -/

/-- The direction and the address of an instruction (R102). -/
def Instr.head : Instr → Head
  | .sq1R0 _ => 0x14000
  | .sq1R1 _ => 0x14001
  | .sq1R2 _ => 0x14002
  | .sq1R3 _ => 0x14003
  | .sq2R0 _ => 0x14004
  | .sq2R1 _ => 0x14005
  | .sq2R2 _ => 0x14006
  | .sq2R3 _ => 0x14007
  | .triR0 _ => 0x14008
  | .triR2 _ => 0x1400A
  | .triR3 _ => 0x1400B
  | .noiR0 _ => 0x1400C
  | .noiR2 _ => 0x1400E
  | .noiR3 _ => 0x1400F
  | .dmcR0 _ => 0x14010
  | .dmcR1 _ => 0x14011
  | .dmcR2 _ => 0x14012
  | .dmcR3 _ => 0x14013
  | .statusW _ => 0x14015
  | .statusR => 0x04015
  | .frameW _ => 0x14017
  | .nop4009 _ => 0x14009
  | .nop400D _ => 0x1400D

/-- The data byte of an instruction; a read's is 0, as in `RD $4015`, `T = 0x0401500` (46 R283). -/
def Instr.data : Instr → Byte
  | .sq1R0 f | .sq2R0 f | .noiR0 f => f.toByte
  | .sq1R1 f | .sq2R1 f => f.toByte
  | .sq1R2 f | .sq2R2 f | .triR2 f => f.toByte
  | .sq1R3 f | .sq2R3 f | .triR3 f | .noiR3 f => f.toByte
  | .triR0 f => f.toByte
  | .noiR2 f => f.toByte
  | .dmcR0 f => f.toByte
  | .dmcR1 f => f.toByte
  | .dmcR2 f | .dmcR3 f => f.toByte
  | .statusW f => f.toByte
  | .statusR => 0
  | .frameW f => f.toByte
  | .nop4009 d | .nop400D d => d

/-- The transaction word of an instruction (R100). -/
def encode (i : Instr) : TWord := i.head ++ i.data

/-- The instruction read from a word numbered as the opcode table numbers it.  A transaction has 25 bits; a word with
a higher bit set is no transaction. -/
def decodeTableWord (nbits w : Nat) : Option Instr :=
  let v := w % 2 ^ nbits
  if v < 2 ^ 25 then
    match decode (BitVec.ofNat 25 v) with
    | .instr i => some i
    | .reject _ => none
  else none

end Sys2Proof
end

