-- ==== Sys2Proof/Machine/State.lean ====
section
/-!
DEFINITION. The machine's state: the device's record `S` of 10_state.md R20, field by field, and beside it what the
spec makes an input or an output of an operation and a step must therefore find or leave in the state (log entries
2, 6, 9, 10, 11).  All of it is plain data.  Times are integers in the unit `u` (00_scope.md R15); `none` is the
value `INF` (00_scope.md R16).
-/

namespace Sys2Proof.Machine

/-- ClockModel (10_state.md R21 to R28). -/
structure ClockModel where
  fixed : Int
  rate : Int
  rateCounter : Int
  frameCounter : Int
  frameDivider : BitVec 2
  frameIrqClock : Option Int
  frameIrqRepeat : Fin 3
  dmcClock : Int
  extCounter : Option Int
deriving DecidableEq, Repr

/-- The frame control latch (10_state.md R29). -/
structure FrameCtrl where
  mode5 : Bool
  irqInhibit : Bool
deriving DecidableEq, Repr

/-- Envelope (10_state.md R30, R31). -/
structure Envelope where
  reg : Byte
  volume : BitVec 4
  count : BitVec 4
  reset : Bool
  outputVolume : Nat
  output : Nat
deriving DecidableEq, Repr

/-- LengthCounter (10_state.md R32). -/
structure LengthCounter where
  enabled : Bool
  count : Nat
deriving DecidableEq, Repr

/-- The Oscillator base (10_state.md R35). -/
structure Osc where
  active : Bool
  timer : Int
  frequency : Int
  rate : Int
  fixed : Int
  amp : Int
deriving DecidableEq, Repr

/-- The sweep unit of a Square (10_state.md R37). -/
structure Sweep where
  rate : Nat
  shift : BitVec 3
  count : Nat
  reload : Bool
  increase : Bool
deriving DecidableEq, Repr

/-- A Square channel (10_state.md R37 to R39). -/
structure Square where
  osc : Osc
  duty : BitVec 2
  step : BitVec 3
  sweep : Sweep
  waveLength : BitVec 11
  validFrequency : Bool
  env : Envelope
  len : LengthCounter
deriving DecidableEq, Repr

/-- The Triangle's linear counter status (10_state.md R40). -/
inductive LinearStatus where
  | reload
  | counting
deriving DecidableEq, Repr

/-- The Triangle channel (10_state.md R40). -/
structure Triangle where
  osc : Osc
  step : BitVec 5
  linearCounter : BitVec 7
  linearCtrl : Byte
  status : LinearStatus
  waveLength : BitVec 11
  len : LengthCounter
deriving DecidableEq, Repr

/-- The two values of `noise.shifter`: 13 in the long mode, 8 in the short one (43_noise.md R202). -/
inductive Tap where
  | long
  | short
deriving DecidableEq, Repr

/-- The Noise channel (10_state.md R42). -/
structure Noise where
  osc : Osc
  bits : BitVec 15
  shifter : Tap
  periodIndex : BitVec 4
  env : Envelope
  len : LengthCounter
deriving DecidableEq, Repr

/-- The Dmc's DMA half (10_state.md R43). -/
structure Dma where
  address : Addr
  lengthCounter : Nat
  buffer : Byte
  buffered : Bool
deriving DecidableEq, Repr

/-- The Dmc's output half (10_state.md R43). -/
structure DmcOut where
  shifter : BitVec 3
  buffer : Byte
  dac : Nat
deriving DecidableEq, Repr

/-- The Dmc channel (10_state.md R43, R44). -/
structure Dmc where
  active : Bool
  dma : Dma
  out : DmcOut
  curSample : Int
  linSample : Int
  loop : Bool
  irqEnable : Bool
  rateIndex : BitVec 4
  frequency : Int
  regAddress : Addr
  regLength : Nat
deriving DecidableEq, Repr

/-- DCBlocker (10_state.md R45). -/
structure DcBlocker where
  acc : Int
  prev : Int
  next : Int
deriving DecidableEq, Repr

/-- OutputRingBuffer with its history ring (10_state.md R46, R47).  The two arrays list their non-zero samples by
index, rising; an index not listed holds 0, the value every slot has after a reset (log entry 20). -/
structure Ring where
  output : List (Nat × Int)
  pos : Nat
  start : Nat
  history : List (Nat × Int)
  hpos : Nat
deriving DecidableEq, Repr

/-- The device's view of its two interrupt sources (10_state.md R49). -/
structure IrqView where
  frame : Bool
  dmc : Bool
deriving DecidableEq, Repr

/-- The device state `S` (10_state.md R20). -/
structure Dev where
  clk : ClockModel
  ctrl : FrameCtrl
  sq0 : Square
  sq1 : Square
  tri : Triangle
  noise : Noise
  dmc : Dmc
  dc : DcBlocker
  ring : Ring
  cfg : Settings
  irq : IrqView
  stolen : Nat
deriving DecidableEq, Repr

/-- The inputs of the operation in progress: the time in MC and the parity of the CPU cycle (20_memory.md R72). -/
structure Inputs where
  now : Nat
  odd : Bool
deriving DecidableEq, Repr

/-- How an operation ended (00_scope.md R17, 60_exceptions.md R381). -/
inductive OpOutcome where
  | ok
  | okValue (v : Byte)
  | noOp
  | invalidSampleRate
  | unsupportedBits
deriving DecidableEq, Repr

/-- One slot of the host's sample buffer: a byte in 8-bit output, a word in 16-bit output
(49_output_and_synthesis.md R345). -/
inductive Slot where
  | byte (b : Byte)
  | word (w : BitVec 16)
deriving DecidableEq, Repr

/-- What the host has been handed: the slots the last `Flush` wrote, slot 0 first (49_output_and_synthesis.md R344),
and how often its lock was granted and released (49_output_and_synthesis.md R339). -/
structure HostPort where
  buffer : List Slot
  locks : Nat
  unlocks : Nat
deriving DecidableEq, Repr

/-- The whole state: the device, what the CPU collaborator's memory is known to hold and how many unknown bytes it
has answered, the inputs and the outcome of the operation, the host's side, and the lines still to be run. -/
structure State where
  dev : Dev
  mem : List Host.Cell
  peeks : Nat
  inp : Inputs
  outcome : OpOutcome
  host : HostPort
  todo : List Line
deriving DecidableEq, Repr

/-- Why a step can stop because a duty of an outside agent was broken (60_exceptions.md R383): the spec gives such an
operation no step and the state is not changed.  Every one is safe: the model stops where the spec says nothing. -/
inductive Fault where
  /-- P2: an operation that catches up was issued with `clk.dmcClock <= now * clk.fixed`.  Raised by every meaning
  that catches up (49 R331, 45 R258) and by the events `Update` and `EndFrame`.  Safe. -/
  | dmcTickMissed
  /-- P3: `EndFrame` without `0 < frameCycles <= now`.  Raised by the event `EndFrame` (49 R337).  Safe. -/
  | frameCyclesOutOfRange
  /-- P1: a line's time is before the time of the line before it.  Raised by the step when it takes a line (20 R80).
  Safe. -/
  | timeWentBack
deriving DecidableEq, Repr

/-- Why the machine has no meaning for what it was given. -/
inductive Refusal where
  /-- An instruction the model does not have yet.  Raised by no arm.  Safe. -/
  | notModelled (mnemonic : String)
  /-- A transaction on `$4014` or `$4016`, another device's port (30 R104 (b)).  Raised by the step.  Safe. -/
  | otherDevicePort (addr : Addr)
  /-- A read of a window address other than `$4015` (30 R104 (c)).  Raised by the step.  Safe. -/
  | readOfWriteOnly (addr : Addr)
  /-- A transaction outside `$4000` to `$4017` (30 R104 (d)).  Raised by the step.  Safe. -/
  | outsideWindow (addr : Addr)
deriving DecidableEq, Repr

/-- The result type of every meaning and of the step. -/
abbrev Result := Host.Outcome State Fault Refusal

/-! ### The state after reset

`PowerOn(NTSC)` (70_reset_and_hazards.md R401), written out from the table of 10_state.md R61 with the numbers of
95_test_vectors.md V70.1; Sys2Proof/Laws/Reset.lean proves that the reset procedure gives exactly this.  The TV mode
is the argument of power-on; log entry 12 says why NTSC.  The model's own fields start empty (log entry 23). -/

/-- An oscillator after a reset at `fixed = 77`, `rate = 37500` (10_state.md R35). -/
def resetOsc (frequency : Int) : Osc :=
  { active := false, timer := 0, frequency := frequency, rate := 37500, fixed := 77, amp := 0 }

/-- An envelope after reset (10_state.md R31). -/
def resetEnvelope : Envelope :=
  { reg := 0x10, volume := 0, count := 0, reset := false, outputVolume := 256, output := 0 }

/-- A length counter after reset (10_state.md R32). -/
def resetLength : LengthCounter := { enabled := false, count := 0 }

/-- A Square after reset (10_state.md R37, R39). -/
def resetSquare : Square :=
  { osc := resetOsc 1848, duty := 0, step := 0,
    sweep := { rate := 0, shift := 0, count := 1, reload := false, increase := true },
    waveLength := 0, validFrequency := false, env := resetEnvelope, len := resetLength }

/-- The device after `PowerOn(NTSC)` (10_state.md R61). -/
def resetDev : Dev :=
  { clk := { fixed := 77, rate := 37500, rateCounter := 0, frameCounter := 6892116, frameDivider := 0,
             frameIrqClock := some 27562920, frameIrqRepeat := 0, dmcClock := 395472, extCounter := none },
    ctrl := { mode5 := false, irqInhibit := false },
    sq0 := resetSquare,
    sq1 := resetSquare,
    tri := { osc := resetOsc 924, step := 0, linearCounter := 0, linearCtrl := 0, status := .counting,
             waveLength := 0, len := resetLength },
    noise := { osc := resetOsc 3696, bits := 0x4000, shifter := .long, periodIndex := 0, env := resetEnvelope,
               len := resetLength },
    dmc := { active := false, dma := { address := 0xC000, lengthCounter := 0, buffer := 0, buffered := false },
             out := { shifter := 0, buffer := 0, dac := 0 }, curSample := 0, linSample := 0, loop := false,
             irqEnable := false, rateIndex := 0, frequency := 395472, regAddress := 0xC000, regLength := 1 },
    dc := { acc := 0, prev := 0, next := 0 },
    ring := { output := [], pos := 0, start := 0, history := [], hpos := 0 },
    cfg := { sampleRate := 44100, speed := 0, tv := .ntsc, bits := 16, channels := .mono, synth := .synth },
    irq := { frame := false, dmc := false },
    stolen := 0 }

/-- The machine right after reset: `PowerOn(NTSC)` with no line to run. -/
def State.reset : State :=
  { dev := resetDev, mem := [], peeks := 0, inp := { now := 0, odd := false }, outcome := .ok,
    host := { buffer := [], locks := 0, unlocks := 0 }, todo := [] }

end Sys2Proof.Machine
end

