-- ==== Sys2Proof/Machine/Ops.lean ====
section
/-!
DEFINITION. The named operations over the state that everything else is written with: the sparse arrays and the CPU
collaborator's memory, the interrupt view (the device takes no exception, it raises and clears two sources:
60_exceptions.md R370 to R374), time, and the box filter and decay that the oscillators share.
-/

namespace Sys2Proof.Machine

/-! ### Sparse arrays: lists of index and value, indices strictly rising -/

/-- The canonical form: indices strictly rising. -/
abbrev Rising {α : Type} (m : List (Nat × α)) : Prop := m.Pairwise (fun a b => a.1 < b.1)

/-- The entry at index `k`. -/
def cellAt {α : Type} (k : Nat) : List (Nat × α) → Option α
  | [] => none
  | (j, v) :: rest => if j = k then some v else cellAt k rest

/-- Put `v` at index `k`, keeping the indices rising. -/
def putCell {α : Type} (k : Nat) (v : α) : List (Nat × α) → List (Nat × α)
  | [] => [(k, v)]
  | (j, w) :: rest =>
    if k < j then (k, v) :: (j, w) :: rest
    else if k = j then (k, v) :: rest
    else (j, w) :: putCell k v rest

/-- Take the entry at index `k` out. -/
def dropCell {α : Type} (k : Nat) : List (Nat × α) → List (Nat × α)
  | [] => []
  | (j, w) :: rest => if j = k then rest else (j, w) :: dropCell k rest

/-- A sample array's value at an index; an index not listed holds 0 (10_state.md R46, R47: every slot is 0 after a
reset). -/
def sampleAt (m : List (Nat × Int)) (k : Nat) : Int := (cellAt k m).getD 0

/-- Write a sample; writing 0 takes the entry out. -/
def putSample (m : List (Nat × Int)) (k : Nat) (v : Int) : List (Nat × Int) :=
  if v = 0 then dropCell k m else putCell k v m

/-- The canonical form of a sample array: indices rising, no 0 listed. -/
abbrev SamplesWf (m : List (Nat × Int)) : Prop := Rising m ∧ ∀ c ∈ m, c.2 ≠ 0

/-! ### The CPU collaborator's memory (20_memory.md R70 (b), R72) -/

/-- The canonical form of memory: addresses strictly rising, 16-bit.  An unlisted address reads as a free value
(log entry 6), which no listed byte can be said to equal. -/
abbrev Memory.wf (m : List Host.Cell) : Prop := Rising m ∧ ∀ c ∈ m, c.1 < 2 ^ 16

/-- What the memory is known to hold at an address. -/
def Memory.read (m : List Host.Cell) (a : Addr) : Option Byte := cellAt a.toNat m

/-- The CPU collaborator's memory after a store of its own (20_memory.md R82). -/
def Memory.write (m : List Host.Cell) (a : Addr) (b : Byte) : List Host.Cell := putCell a.toNat b m

/-- `Cpu.peek(addr)` (20_memory.md R72): the listed byte, else the next free value. -/
def State.peek (s : State) (a : Addr) : Byte × State :=
  match Memory.read s.mem a with
  | some b => (b, s)
  | none => (Config.freePeek s.peeks a, { s with peeks := s.peeks + 1 })

/-! ### Interrupts (60_exceptions.md R371 to R374) -/

/-- The two interrupt sources (60_exceptions.md R370). -/
inductive IrqSource where
  | frame
  | dmc
deriving DecidableEq, Repr

/-- `RaiseIrq(s)` (60_exceptions.md R371). -/
def raiseIrq (src : IrqSource) (d : Dev) : Dev :=
  match src with
  | .frame => { d with irq := { d.irq with frame := true } }
  | .dmc => { d with irq := { d.irq with dmc := true } }

/-- `ClearIrq(s)` (60_exceptions.md R372). -/
def clearIrq (src : IrqSource) (d : Dev) : Dev :=
  match src with
  | .frame => { d with irq := { d.irq with frame := false } }
  | .dmc => { d with irq := { d.irq with dmc := false } }

/-- `irqLine`, a level (60_exceptions.md R374). -/
def irqLine (d : Dev) : Bool := d.irq.frame || d.irq.dmc

/-- `Cpu.stealCycles(n)`: the device adds `n` to `stolen` (20_memory.md R72). -/
def stealCycles (n : Nat) (d : Dev) : Dev := { d with stolen := d.stolen + n }

/-! ### Time (00_scope.md R15) -/

/-- `CC`, one CPU cycle in `u`, for a TV mode and a scale. -/
def cpuCycle (P : Params) (tv : TvMode) (fixed : Int) : Int := (P.cpuDiv tv : Int) * fixed

/-- `CC` of the device as it stands. -/
def Dev.cc (P : Params) (d : Dev) : Int := cpuCycle P d.cfg.tv d.clk.fixed

/-- `now * clk.fixed`: the time of the operation in progress, in `u`. -/
def State.nowU (s : State) : Int := (s.inp.now : Int) * s.dev.clk.fixed

/-- `c <= t` for a time that may be `INF`, which is greater than every integer (00_scope.md R16). -/
def dueBy (c : Option Int) (t : Int) : Bool :=
  match c with
  | some c => decide (c ≤ t)
  | none => false

/-- `FRAME_STEP[tv][mode][k] * CC` in `u` (45_frame_sequencer.md R251). -/
def frameGap (P : Params) (tv : TvMode) (mode5 : Bool) (k : BitVec 2) (fixed : Int) : Int :=
  (((P.frameStep tv mode5).getD k.toNat 0 : Nat) : Int) * cpuCycle P tv fixed

/-- `FRAME_IRQ_CLOCKS[tv][k] * CC` in `u` (45_frame_sequencer.md R251). -/
def irqGap (P : Params) (tv : TvMode) (k : Nat) (fixed : Int) : Int :=
  (((P.frameIrqClocks tv).getD k 0 : Nat) : Int) * cpuCycle P tv fixed

/-! ### Derived periods (10_state.md R41), given `CC` -/

/-- A Square's step length. -/
def squarePeriod (waveLength : BitVec 11) (cc : Int) : Int := ((waveLength.toNat : Int) + 1) * 2 * cc

/-- The Triangle's step length. -/
def trianglePeriod (waveLength : BitVec 11) (cc : Int) : Int := ((waveLength.toNat : Int) + 1) * cc

/-- The Noise channel's step length. -/
def noiseStepLength (P : Params) (tv : TvMode) (index : BitVec 4) (cc : Int) : Int :=
  (((P.noisePeriod tv).getD index.toNat 0 : Nat) : Int) * cc

/-- The Dmc's bit length. -/
def dmcBitLength (P : Params) (tv : TvMode) (index : BitVec 4) (cc : Int) : Int :=
  (((P.dmcPeriod tv).getD index.toNat 0 : Nat) : Int) * cc

/-! ### What the three oscillator kinds share -/

/-- How many steps of length `frequency` bring a timer that is below 0 back to 0 or above: the number of times the
`repeat ... until timer >= 0` of 41_square.md R156, 42_triangle.md R187 and 43_noise.md R206 runs.  It is
`ceil(-timer / frequency)`; with no step length it is 0 (log entry 13). -/
def stepsDue (timer frequency : Int) : Nat :=
  if timer < 0 then ((-timer + frequency - 1) / frequency).toNat else 0

/-- The averaging loop of `GetSample` (41_square.md R156, 42_triangle.md R187, 43_noise.md R206), run `n` times: step
on, weigh the new step by `min(-timer, frequency)`, add one step length to the timer. -/
def boxWalk {α : Type} (advance : α → α) (level : α → Int) (frequency : Int) :
    Nat → α → Int → Int → α × Int × Int
  | 0, x, timer, sum => (x, timer, sum)
  | n + 1, x, timer, sum =>
    boxWalk advance level frequency n (advance x) (timer + frequency)
      (sum + min (-timer) frequency * level (advance x))

/-- The time-weighted mean `floor((sum * v + floor(rate / 2)) / rate)`. -/
def boxMean (sum v rate : Int) : Int := (sum * v + rate / 2) / rate

/-- The amplitude after one `Decay()` (41_square.md R157). -/
def decayed (P : Params) (amp : Int) : Int := if amp < P.outputDecay then 0 else amp - P.outputDecay

/-- `clamp(v, lo, hi)` (00_scope.md R12). -/
def clampInt (v lo hi : Int) : Int := max lo (min hi v)

end Sys2Proof.Machine
end

