-- ==== Sys2Proof/Machine/Operands.lean ====
section
/-!
DEFINITION. The operand forms: how values are assembled from the fields of a data byte (30_encoding.md R110 to R113)
and how a sample becomes a slot of the host's buffer (49_output_and_synthesis.md R345).
-/

namespace Sys2Proof.Machine

/-- The period value after a register-2 write: the low eight bits replaced (30_encoding.md R110). -/
def withPeriodLow (waveLength : BitVec 11) (low : Byte) : BitVec 11 := (waveLength &&& 0x700) ||| low.setWidth 11

/-- The period value after a register-3 write: the high three bits replaced (30_encoding.md R110). -/
def withPeriodHigh (waveLength : BitVec 11) (high : BitVec 3) : BitVec 11 :=
  (high.setWidth 11 <<< 8) ||| (waveLength &&& 0x0FF)

/-- The Dmc's fetch start address `0xC000 + (d << 6)` (30_encoding.md R112). -/
def dmcStartAddress (d : Byte) : Addr := 0xC000 + (d.setWidth 16 <<< 6)

/-- The Dmc's sample length `(d << 4) + 1` in bytes (30_encoding.md R113). -/
def dmcSampleLength (d : Byte) : Nat := d.toNat * 16 + 1

/-- `Encode(s)` (49_output_and_synthesis.md R345): two's complement in 16 bits, `floor(s / 256) + 128` in 8 bits. -/
def encodeSlot (bits : Nat) (s : Int) : Slot :=
  if bits = 16 then .word (BitVec.ofInt 16 s) else .byte (BitVec.ofInt 8 (s / 256 + 128))

/-- The bytes of a slot in host memory, lowest address first.  Which byte of a word comes first is
`HOST_BYTE_ORDER`, which the spec leaves open (20_memory.md R74 (d)). -/
def Slot.bytes (P : Params) : Slot → List Byte
  | .byte b => [b]
  | .word w =>
    match P.hostByteOrder with
    | .lowFirst => [w.extractLsb' 0 8, w.extractLsb' 8 8]
    | .highFirst => [w.extractLsb' 8 8, w.extractLsb' 0 8]

end Sys2Proof.Machine
end

