-- ==== Sys2Proof/Machine/Flags.lean ====
section
/-!
DEFINITION. The one-bit state the device derives (10_state.md R51): `CanOutput` of each channel kind, the Square's
period validity, and the status byte a program reads.
-/

namespace Sys2Proof.Machine

/-- `shifted = waveLength >> sweep.shift` (41_square.md R152). -/
def Square.shifted (q : Square) : Nat := q.waveLength.toNat >>> q.sweep.shift.toNat

/-- The validity target `vt`: the upward direction only (41_square.md R152, conflict C7). -/
def Square.validityTarget (q : Square) : Nat :=
  q.waveLength.toNat + (if q.sweep.increase then q.shifted else 0)

/-- The validity window of 41_square.md R154. -/
def Square.periodValid (P : Params) (q : Square) : Bool :=
  decide (P.sqMinPeriod ≤ q.waveLength.toNat) && decide (q.validityTarget ≤ P.sqMaxPeriod)

/-- A Square's `CanOutput()` (41_square.md R153). -/
def Square.canOutput (q : Square) : Bool :=
  decide (0 < q.len.count) && decide (0 < q.env.output) && q.validFrequency

/-- The Triangle's `CanOutput()` (42_triangle.md R183). -/
def Triangle.canOutput (P : Params) (r : Triangle) : Bool :=
  decide (0 < r.len.count) && decide (0 < r.linearCounter.toNat) && decide (P.triMinPeriod ≤ r.waveLength.toNat)

/-- The Noise channel's `CanOutput()` (43_noise.md R204). -/
def Noise.canOutput (n : Noise) : Bool := decide (0 < n.len.count) && decide (0 < n.env.output)

/-- `active <- CanOutput()` of a Square. -/
def Square.refresh (q : Square) : Square := { q with osc := { q.osc with active := q.canOutput } }

/-- `active <- CanOutput()` of the Triangle. -/
def Triangle.refresh (P : Params) (r : Triangle) : Triangle :=
  { r with osc := { r.osc with active := r.canOutput P } }

/-- `active <- CanOutput()` of the Noise channel. -/
def Noise.refresh (n : Noise) : Noise := { n with osc := { n.osc with active := n.canOutput } }

/-- The fields of the byte `RD $4015` returns (46_status.md R283). -/
def Dev.statusFields (d : Dev) : FStr :=
  { dmcIrq := d.irq.dmc
    frameIrq := d.irq.frame
    dmc := decide (0 < d.dmc.dma.lengthCounter)
    noise := decide (0 < d.noise.len.count)
    tri := decide (0 < d.tri.len.count)
    square2 := decide (0 < d.sq1.len.count)
    square1 := decide (0 < d.sq0.len.count) }

/-- The byte `RD $4015` returns (46_status.md R283, 30_encoding.md R119). -/
def Dev.statusByte (d : Dev) : Byte := d.statusFields.toByte

end Sys2Proof.Machine
end

