-- ==== Sys2Proof/Machine/EnvelopeLength.lean ====
section
/-!
DEFINITION. The Envelope and LengthCounter subunits (40_envelope_length.md R131 to R138).
-/

namespace Sys2Proof.Machine

/-- `env.UpdateOutput()` (40_envelope_length.md R131). -/
def Envelope.updateOutput (e : Envelope) : Envelope :=
  { e with output := (if e.reg.getLsbD 4 then (e.reg.extractLsb' 0 4).toNat else e.volume.toNat) * e.outputVolume }

/-- `env.Write(d)` (40_envelope_length.md R132). -/
def Envelope.write (d : Byte) (e : Envelope) : Envelope := Envelope.updateOutput { e with reg := d }

/-- `env.Restart()` (40_envelope_length.md R133). -/
def Envelope.restart (e : Envelope) : Envelope := { e with reset := true }

/-- `env.Clock()` (40_envelope_length.md R134). -/
def Envelope.clock (e : Envelope) : Envelope :=
  if e.reset then
    Envelope.updateOutput { e with reset := false, volume := 15, count := e.reg.extractLsb' 0 4 }
  else if e.count ≠ 0 then
    { e with count := e.count - 1 }
  else
    Envelope.updateOutput
      { e with
        volume := if e.volume ≠ 0 ∨ e.reg.getLsbD 5 then e.volume - 1 else e.volume
        count := e.reg.extractLsb' 0 4 }

/-- `len.Enable(e)` (40_envelope_length.md R136). -/
def LengthCounter.enable (e : Bool) (l : LengthCounter) : LengthCounter :=
  { enabled := e, count := if e then l.count else 0 }

/-- `len.Load(idx)` (40_envelope_length.md R137). -/
def LengthCounter.load (P : Params) (idx : BitVec 5) (l : LengthCounter) : LengthCounter :=
  if l.enabled then { l with count := P.lengthTable.getD idx.toNat 0 } else l

/-- `len.Clock(halt)` (40_envelope_length.md R138). -/
def LengthCounter.clock (halt : Bool) (l : LengthCounter) : LengthCounter :=
  if halt = false ∧ 0 < l.count then { l with count := l.count - 1 } else l

/-- What `len.Clock(halt)` returns: whether this clock brought the count to zero (40_envelope_length.md R138). -/
def LengthCounter.expires (halt : Bool) (l : LengthCounter) : Bool := !halt && decide (l.count = 1)

end Sys2Proof.Machine
end

