-- ==== Sys2Proof/Machine/NoiseUnit.lean ====
section
/-!
DEFINITION. The Noise channel's own operations (43_noise.md R201 to R214).
-/

namespace Sys2Proof.Machine

/-- The bit position of the tap: 13 in the long mode, 8 in the short one (43_noise.md R202). -/
def Tap.position : Tap → Nat
  | .long => 13
  | .short => 8

/-- One step of the LFSR on its bits (43_noise.md R203). -/
def lfsrStep (tap : Tap) (bits : BitVec 15) : BitVec 15 :=
  (bits <<< 1) ||| (BitVec.ofBool (bits.getLsbD 14 ^^ bits.getLsbD tap.position)).setWidth 15

/-- The LFSR after `n` steps (43_noise.md R206). -/
def lfsrSteps (tap : Tap) : Nat → BitVec 15 → BitVec 15
  | 0, bits => bits
  | n + 1, bits => lfsrSteps tap n (lfsrStep tap bits)

/-- `on`: 1 while output bit 14 is 0 (43_noise.md R203, R206). -/
def noiseOn (bits : BitVec 15) : Int := if bits.getLsbD 14 then 0 else 1

/-- `noise.GetSample()` (43_noise.md R206). -/
def Noise.getSample (P : Params) (c : Noise) : Int × Noise :=
  let timer := c.osc.timer - c.osc.rate
  let n := stepsDue timer c.osc.frequency
  if c.osc.active then
    if 0 ≤ timer then
      let amp := (c.env.output : Int) * noiseOn c.bits * P.noiseWeight
      (amp, { c with osc := { c.osc with timer := timer, amp := amp } })
    else
      let w := boxWalk (lfsrStep c.shifter) noiseOn c.osc.frequency n c.bits timer (c.osc.timer * noiseOn c.bits)
      let amp := boxMean w.2.2 c.env.output c.osc.rate * P.noiseWeight
      (amp, { c with bits := w.1, osc := { c.osc with timer := w.2.1, amp := amp } })
  else
    let amp := decayed P c.osc.amp
    (amp, { c with bits := lfsrSteps c.shifter n c.bits,
                   osc := { c.osc with timer := timer + (n : Int) * c.osc.frequency, amp := amp } })

/-! ### Register writes, without the catch-up -/

/-- Register 0 (43_noise.md R210). -/
def Noise.writeR0 (f : FEnv) (c : Noise) : Noise := Noise.refresh { c with env := c.env.write f.toByte }

/-- Register 2 (43_noise.md R211). -/
def Noise.writeR2 (P : Params) (tv : TvMode) (cc : Int) (f : FNper) (c : Noise) : Noise :=
  { c with
    periodIndex := f.period
    osc := { c.osc with frequency := noiseStepLength P tv f.period cc }
    shifter := if f.mode then .short else .long }

/-- Register 3 (43_noise.md R212). -/
def Noise.writeR3 (P : Params) (f : FPhi) (c : Noise) : Noise :=
  Noise.refresh { c with len := c.len.load P f.index, env := c.env.restart }

/-- The enable of `WR $4015` (46_status.md R281). -/
def Noise.enable (e : Bool) (c : Noise) : Noise := Noise.refresh { c with len := c.len.enable e }

/-! ### Clocks -/

/-- `noise.ClockEnvelope()` (43_noise.md R213). -/
def Noise.clockEnvelope (c : Noise) : Noise := Noise.refresh { c with env := c.env.clock }

/-- `noise.ClockLengthCounter()` (43_noise.md R214). -/
def Noise.clockLength (c : Noise) : Noise := Noise.refresh { c with len := c.len.clock (c.env.reg.getLsbD 5) }

end Sys2Proof.Machine
end

