-- ==== Sys2Proof/Machine/SquareUnit.lean ====
section
/-!
DEFINITION. A Square channel's own operations: what a register write does to it, its clocks and its `GetSample`
(41_square.md R151 to R172).  The bus operations that call them are in Sys2Proof/Machine/Square.lean.
-/

namespace Sys2Proof.Machine

/-- Which of the two Squares: `i` is 0 for Square 1 and 1 for Square 2. -/
inductive SquareId where
  | one
  | two
deriving DecidableEq, Repr

/-- `DUTY_TABLE[duty][step]` (41_square.md R151). -/
def dutyLevel (P : Params) (duty : BitVec 2) (step : BitVec 3) : Int :=
  (((P.dutyTable.getD duty.toNat []).getD step.toNat 0 : Nat) : Int)

/-- `sq[i].UpdateFrequency()` (41_square.md R154). -/
def Square.updateFrequency (P : Params) (cc : Int) (q : Square) : Square :=
  Square.refresh
    (if q.periodValid P then
      { q with validFrequency := true, osc := { q.osc with frequency := squarePeriod q.waveLength cc } }
    else { q with validFrequency := false })

/-- `sq[i].GetSample()` (41_square.md R156): the amplitude and the channel one host sample later. -/
def Square.getSample (P : Params) (q : Square) : Int × Square :=
  let timer := q.osc.timer - q.osc.rate
  let n := stepsDue timer q.osc.frequency
  if q.osc.active then
    if 0 ≤ timer then
      let amp := (q.env.output : Int) * dutyLevel P q.duty q.step
      (amp, { q with osc := { q.osc with timer := timer, amp := amp } })
    else
      let w := boxWalk (· + 1) (dutyLevel P q.duty) q.osc.frequency n q.step timer
        (q.osc.timer * dutyLevel P q.duty q.step)
      let amp := boxMean w.2.2 q.env.output q.osc.rate
      (amp, { q with step := w.1, osc := { q.osc with timer := w.2.1, amp := amp } })
  else
    let amp := decayed P q.osc.amp
    (amp, { q with step := q.step + BitVec.ofNat 3 n,
                   osc := { q.osc with timer := timer + (n : Int) * q.osc.frequency, amp := amp } })

/-! ### Register writes, without the catch-up -/

/-- Register 0 (41_square.md R160). -/
def Square.writeR0 (f : FEnv) (q : Square) : Square :=
  Square.refresh { q with env := q.env.write f.toByte, duty := f.duty }

/-- Register 1 (41_square.md R161). -/
def Square.writeR1 (P : Params) (cc : Int) (f : FSweep) (q : Square) : Square :=
  let runs := f.enable && decide (f.shift ≠ 0)
  Square.updateFrequency P cc
    { q with sweep :=
        { q.sweep with
          increase := !f.decrease
          shift := f.shift
          rate := if runs then f.rate.toNat + 1 else 0
          reload := if runs then true else q.sweep.reload } }

/-- Register 2 (41_square.md R162). -/
def Square.writeR2 (P : Params) (cc : Int) (f : FPlo) (q : Square) : Square :=
  Square.updateFrequency P cc { q with waveLength := withPeriodLow q.waveLength f.low }

/-- Register 3 (41_square.md R163). -/
def Square.writeR3 (P : Params) (cc : Int) (f : FPhi) (q : Square) : Square :=
  Square.updateFrequency P cc
    { q with
      step := 0
      env := q.env.restart
      len := q.len.load P f.index
      waveLength := withPeriodHigh q.waveLength f.high }

/-- The enable of `WR $4015` (46_status.md R281). -/
def Square.enable (e : Bool) (q : Square) : Square := Square.refresh { q with len := q.len.enable e }

/-! ### Clocks -/

/-- `sq[i].ClockEnvelope()` (41_square.md R170). -/
def Square.clockEnvelope (q : Square) : Square := Square.refresh { q with env := q.env.clock }

/-- `sq[i].ClockLengthCounter()` (41_square.md R171). -/
def Square.clockLength (q : Square) : Square :=
  Square.refresh { q with len := q.len.clock (q.env.reg.getLsbD 5) }

/-- The downward target: Square 1 subtracts one more than Square 2 (41_square.md R152). -/
def Square.downTarget (i : SquareId) (q : Square) : BitVec 11 :=
  q.waveLength - BitVec.ofNat 11 q.shifted - (match i with | .one => 1 | .two => 0)

/-- The period change of a sweep clock whose divider has run out (41_square.md R172). -/
def Square.sweepPeriod (P : Params) (i : SquareId) (cc : Int) (q : Square) : Square :=
  if P.sqMinPeriod ≤ q.waveLength.toNat then
    if q.sweep.increase = false then
      Square.updateFrequency P cc { q with waveLength := q.downTarget i }
    else if q.waveLength.toNat + q.shifted ≤ P.sqMaxPeriod then
      Square.updateFrequency P cc { q with waveLength := BitVec.ofNat 11 (q.waveLength.toNat + q.shifted) }
    else q
  else q

/-- The divider of a sweep clock (41_square.md R172, first half). -/
def Square.sweepDivider (P : Params) (i : SquareId) (cc : Int) (q : Square) : Square :=
  if q.sweep.rate ≠ 0 ∧ q.sweep.count ≠ 0 then
    if q.sweep.count = 1 then
      Square.sweepPeriod P i cc { q with sweep := { q.sweep with count := q.sweep.rate } }
    else { q with sweep := { q.sweep with count := q.sweep.count - 1 } }
  else q

/-- `sq[i].ClockSweep()` (41_square.md R172). -/
def Square.clockSweep (P : Params) (i : SquareId) (cc : Int) (q : Square) : Square :=
  let q := q.sweepDivider P i cc
  if q.sweep.reload then { q with sweep := { q.sweep with reload := false, count := q.sweep.rate } } else q

end Sys2Proof.Machine
end

