-- ==== Sys2Proof/Machine/TriangleUnit.lean ====
section
/-!
DEFINITION. The Triangle channel's own operations (42_triangle.md R181 to R192).
-/

namespace Sys2Proof.Machine

/-- `TRIANGLE_TABLE[step]` (42_triangle.md R181). -/
def triangleLevel (P : Params) (step : BitVec 5) : Int := ((P.triangleTable.getD step.toNat 0 : Nat) : Int)

/-- `tri.GetSample()` (42_triangle.md R187); an inactive Triangle holds its step and its timer. -/
def Triangle.getSample (P : Params) (r : Triangle) : Int × Triangle :=
  if r.osc.active then
    let timer := r.osc.timer - r.osc.rate
    if 0 ≤ timer then
      let amp := triangleLevel P r.step * ((P.outputMul : Int) * P.triWeight)
      (amp, { r with osc := { r.osc with timer := timer, amp := amp } })
    else
      let w := boxWalk (· + 1) (triangleLevel P) r.osc.frequency (stepsDue timer r.osc.frequency) r.step timer
        (r.osc.timer * triangleLevel P r.step)
      let amp := boxMean w.2.2 P.outputMul r.osc.rate * P.triWeight
      (amp, { r with step := w.1, osc := { r.osc with timer := w.2.1, amp := amp } })
  else
    let amp := decayed P r.osc.amp
    (amp, { r with osc := { r.osc with amp := amp } })

/-! ### Clocks -/

/-- `tri.ClockLinearCounter()` (42_triangle.md R184). -/
def Triangle.clockLinear (P : Params) (r : Triangle) : Triangle :=
  Triangle.refresh P
    (match r.status with
    | .counting => if r.linearCounter ≠ 0 then { r with linearCounter := r.linearCounter - 1 } else r
    | .reload =>
      { r with
        status := if r.linearCtrl.getLsbD 7 then .reload else .counting
        linearCounter := r.linearCtrl.extractLsb' 0 7 })

/-- `tri.ClockLengthCounter()` (42_triangle.md R185). -/
def Triangle.clockLength (P : Params) (r : Triangle) : Triangle :=
  Triangle.refresh P { r with len := r.len.clock (r.linearCtrl.getLsbD 7) }

/-! ### Register writes, without the catch-up -/

/-- Register 0 (42_triangle.md R190). -/
def Triangle.writeR0 (f : FLin) (r : Triangle) : Triangle := { r with linearCtrl := f.toByte }

/-- A new period value (42_triangle.md R191, R192). -/
def Triangle.setPeriod (waveLength : BitVec 11) (cc : Int) (r : Triangle) : Triangle :=
  { r with waveLength := waveLength, osc := { r.osc with frequency := trianglePeriod waveLength cc } }

/-- Register 2 (42_triangle.md R191). -/
def Triangle.writeR2 (P : Params) (cc : Int) (f : FPlo) (r : Triangle) : Triangle :=
  Triangle.refresh P (r.setPeriod (withPeriodLow r.waveLength f.low) cc)

/-- Register 3 (42_triangle.md R192). -/
def Triangle.writeR3 (P : Params) (cc : Int) (f : FPhi) (r : Triangle) : Triangle :=
  Triangle.refresh P
    { r.setPeriod (withPeriodHigh r.waveLength f.high) cc with
      status := .reload
      len := r.len.load P f.index }

/-- The enable of `WR $4015` (46_status.md R281). -/
def Triangle.enable (P : Params) (e : Bool) (r : Triangle) : Triangle :=
  Triangle.refresh P { r with len := r.len.enable e }

end Sys2Proof.Machine
end

