-- ==== Sys2Proof/Machine/Mixer.lean ====
section
/-!
DEFINITION. The Mixer, the DC blocker and the external channel (48_mixer.md R310 to R316), and the Dmc's sample
(44_dmc.md R237), which only the mixer asks for.
-/

namespace Sys2Proof.Machine

/-! ### The external channel: the null instance (48_mixer.md R316; log entry 14) -/

/-- `Ext.GetSample()`. -/
def extGetSample : Int := 0
/-- `Ext.GetOutputVolume()`. -/
def extGetOutputVolume : Nat := 0
/-- `Ext.Clock(from, to)`: the new `clk.extCounter`, `INF`. -/
def extClock (_fromTime _toTime : Int) : Option Int := none
/-- `Ext.SetContext(rate, fixed)`: the null instance ignores it. -/
def extSetContext (_rate _fixed : Int) (d : Dev) : Dev := d
/-- `Ext.Reset()`: does nothing. -/
def extReset (d : Dev) : Dev := d
/-- `clk.extCounter` after a reset: `INF` with the null instance (70_reset_and_hazards.md R400). -/
def extCounterAfterReset : Option Int := none

/-! ### The Dmc's sample -/

/-- The next `linSample` (44_dmc.md R237). -/
def linStep (P : Params) (cur lin : Int) : Int :=
  if lin = cur then lin
  else if (cur - lin).natAbs ≤ P.dmcLinStep then cur
  else if lin < cur then lin + P.dmcLinStep
  else lin - P.dmcLinStep

/-- `dmc.GetSample()` (44_dmc.md R237). -/
def Dmc.getSample (P : Params) (m : Dmc) : Int × Dmc :=
  let lin := linStep P m.curSample m.linSample
  (lin, { m with linSample := lin })

/-! ### Combination -/

/-- A group's output: 0 for a sum of 0, else `floor(k0 / (floor(k1 / x) + k2))` (48_mixer.md R311). -/
def groupOutput (k0 k1 k2 : Nat) (x : Int) : Int := if x = 0 then 0 else (k0 : Int) / ((k1 : Int) / x + k2)

/-- The Squares' group (48_mixer.md R312, `p`). -/
def squareGroup (P : Params) (a : Int) : Int := groupOutput P.nlnSq0 P.nlnSq1 P.nlnSq2 a

/-- The second group (48_mixer.md R312, `q`). -/
def tndGroup (P : Params) (b : Int) : Int := groupOutput P.nlnTnd0 P.nlnTnd1 P.nlnTnd2 b

/-- `DcBlock(x)` (48_mixer.md R314): the filter's state after it; the sample is its `next`. -/
def DcBlocker.push (P : Params) (x : Int) (c : DcBlocker) : DcBlocker :=
  let prev := x * 2 ^ P.dcK
  let acc := c.acc - c.prev + prev - c.next * P.dcPole
  { acc := acc, prev := prev, next := acc / 2 ^ P.dcK }

/-- The five channels one host sample later (48_mixer.md R312): the two group sums and the device. -/
def sampleChannels (P : Params) (d : Dev) : (Int × Int) × Dev :=
  let s0 := d.sq0.getSample P
  let s1 := d.sq1.getSample P
  let t := d.tri.getSample P
  let n := d.noise.getSample P
  let m := d.dmc.getSample P
  ((s0.1 + s1.1, t.1 + n.1 + m.1 + extGetSample),
    { d with sq0 := s0.2, sq1 := s1.2, tri := t.2, noise := n.2, dmc := m.2 })

/-- `MixSample()` (48_mixer.md R312): the clamped sample and the device one host sample later. -/
def mixSample (P : Params) (d : Dev) : Int × Dev :=
  let c := sampleChannels P d
  let dc := c.2.dc.push P (squareGroup P c.1.1 + tndGroup P c.1.2)
  (clampInt dc.next P.sampleMin P.sampleMax, { c.2 with dc := dc })

end Sys2Proof.Machine
end

