-- ==== Sys2Proof/Machine/Sequencer.lean ====
section
/-!
DEFINITION. The FrameSequencer's steps and the frame IRQ timer (45_frame_sequencer.md R253, R254, R263).
-/

namespace Sys2Proof.Machine

/-- The even half of `ClockOscillators`: envelopes and the linear counter (45_frame_sequencer.md R254). -/
def clockEnvelopes (P : Params) (d : Dev) : Dev :=
  { d with
    sq0 := d.sq0.clockEnvelope
    sq1 := d.sq1.clockEnvelope
    tri := d.tri.clockLinear P
    noise := d.noise.clockEnvelope }

/-- The odd half of `ClockOscillators`: length counters, and sweeps after them (45_frame_sequencer.md R254). -/
def clockLengths (P : Params) (d : Dev) : Dev :=
  { d with
    sq0 := d.sq0.clockLength.clockSweep P .one (d.cc P)
    sq1 := d.sq1.clockLength.clockSweep P .two (d.cc P)
    tri := d.tri.clockLength P
    noise := d.noise.clockLength }

/-- `ClockOscillators(odd)` (45_frame_sequencer.md R254). -/
def clockOscillators (P : Params) (odd : Bool) (d : Dev) : Dev :=
  if odd then clockLengths P (clockEnvelopes P d) else clockEnvelopes P d

/-- `ClockFrameSequencer()` (45_frame_sequencer.md R253): the next gap is looked up with the new divider. -/
def clockFrameSequencer (P : Params) (d : Dev) : Dev :=
  let k := d.clk.frameDivider + 1
  let e := clockOscillators P (d.clk.frameDivider.getLsbD 0) d
  { e with clk :=
      { d.clk with
        frameDivider := k
        frameCounter := d.clk.frameCounter + frameGap P d.cfg.tv d.ctrl.mode5 k d.clk.fixed } }

/-- Every sequencer step whose time is before `limit`, at most `fuel` of them (49_output_and_synthesis.md R333). -/
def drainSteps (P : Params) (limit : Int) : Nat → Dev → Dev
  | 0, d => d
  | fuel + 1, d =>
    if d.clk.frameCounter < limit then drainSteps P limit fuel (clockFrameSequencer P d) else d

/-- `while clk.frameCounter < limit do ClockFrameSequencer()` (49_output_and_synthesis.md R333).  A gap is at least
one unit long, so the difference bounds the number of steps (log entry 13). -/
def runSequencer (P : Params) (limit : Int) (d : Dev) : Dev :=
  drainSteps P limit (limit - d.clk.frameCounter).toNat d

/-! ### The frame IRQ timer -/

/-- The next assertion point and the next repeat index (45_frame_sequencer.md R263, the loop's body). -/
def nextIrqPoint (P : Params) (tv : TvMode) (fixed : Int) (c : Int) (k : Fin 3) : Int × Fin 3 :=
  (c + irqGap P tv (1 + k.val) fixed, k + 1)

/-- `repeat ... until clk.frameIrqClock > limit`, at most `fuel` times (45_frame_sequencer.md R263). -/
def irqPoints (P : Params) (tv : TvMode) (fixed limit : Int) : Nat → Int × Fin 3 → Int × Fin 3
  | 0, p => p
  | fuel + 1, p => if p.1 ≤ limit then irqPoints P tv fixed limit fuel (nextIrqPoint P tv fixed p.1 p.2) else p

/-- `FrameIrqTick` at the time `limit` in `u` (45_frame_sequencer.md R263). -/
def frameIrqTick (P : Params) (limit : Int) (d : Dev) : Dev :=
  match d.clk.frameIrqClock with
  | none => d
  | some c =>
    if c ≤ limit then
      let p := irqPoints P d.cfg.tv d.clk.fixed limit (limit - c + 1).toNat (c, d.clk.frameIrqRepeat)
      raiseIrq .frame { d with clk := { d.clk with frameIrqClock := some p.1, frameIrqRepeat := p.2 } }
    else d

end Sys2Proof.Machine
end

