-- ==== Sys2Proof/Machine/Synthesis.lean ====
section
/-!
DEFINITION. The synthesis loop and the catch-up (49_output_and_synthesis.md R331, R333), with the ring's push
(49_output_and_synthesis.md R340, R341).
-/

namespace Sys2Proof.Machine

/-- `RingPush(s)` (49_output_and_synthesis.md R340). -/
def Ring.push (P : Params) (s : Int) (r : Ring) : Ring :=
  let pos := (r.pos + 1) % P.ringSize
  { r with
    output := putSample r.output r.pos s
    pos := pos
    start := if pos = r.start then (r.start + 1) % P.ringSize else r.start }

/-- `Latency()` (49_output_and_synthesis.md R341). -/
def Ring.latency (P : Params) (r : Ring) : Nat := (((r.pos : Int) - r.start) % P.ringSize).toNat

/-- `if clk.extCounter <= t then clk.extCounter <- Ext.Clock(clk.extCounter, t)` (49_output_and_synthesis.md R333). -/
def clockExt (t : Int) (d : Dev) : Dev :=
  match d.clk.extCounter with
  | some c => if c ≤ t then { d with clk := { d.clk with extCounter := extClock c t } } else d
  | none => d

/-- One pass of the loop: mix and push one sample, the sequencer steps that are due at its time, the external
channel, and on to the next sample time (49_output_and_synthesis.md R333). -/
def hostSample (P : Params) (d : Dev) : Dev :=
  let now := d.clk.rateCounter
  let m := mixSample P d
  let d1 := { m.2 with ring := m.2.ring.push P m.1 }
  let d2 := clockExt now (runSequencer P (now + 1) d1)
  { d2 with clk := { d2.clk with rateCounter := now + d.clk.rate } }

/-- `while clk.rateCounter < t do ...`, at most `fuel` times (49_output_and_synthesis.md R333). -/
def synthLoop (P : Params) (t : Int) : Nat → Dev → Dev
  | 0, d => d
  | fuel + 1, d => if d.clk.rateCounter < t then synthLoop P t fuel (hostSample P d) else d

/-- The `SYNTH` path of `Update(t)`.  A sample is at least one unit long, so the difference bounds the number of
passes (log entry 13). -/
def synthPath (P : Params) (t : Int) (d : Dev) : Dev := synthLoop P t (t - d.clk.rateCounter).toNat d

/-- The `ADVANCE_ONLY` path of `Update(t)` (49_output_and_synthesis.md R333). -/
def advancePath (t : Int) (d : Dev) : Dev :=
  clockExt t { d with clk := { d.clk with rateCounter := max d.clk.rateCounter t } }

/-- `Update(t)`, `t` in `u` (49_output_and_synthesis.md R333). -/
def update (P : Params) (t : Int) (d : Dev) : Dev :=
  runSequencer P t
    (match d.cfg.synth with
    | .synth => synthPath P t d
    | .advanceOnly => advancePath t d)

/-- The device after the catch-up of the operation in progress. -/
def State.caughtUp (P : Params) (s : State) : Dev := update P s.nowU s.dev

/-- The operation ends with outcome `ok` and this device. -/
def State.done (s : State) (d : Dev) : State := { s with dev := d, outcome := .ok }

/-- `CatchUp(now)` at the head of an operation (49_output_and_synthesis.md R331): the contract fault when a Dmc clock
is due, else what the operation makes of the state that has been caught up. -/
def catchUpThen (P : Params) (s : State) (k : State → State) : Result :=
  if s.nowU < s.dev.clk.dmcClock then .next (k (s.done (s.caughtUp P))) else .fault .dmcTickMissed

end Sys2Proof.Machine
end

