-- ==== Sys2Proof/Machine/DmcUnit.lean ====
section
/-!
DEFINITION. The Dmc's DMA controller and output unit (44_dmc.md R228 to R236).  A fetch reads the CPU collaborator's
memory, so these work on the whole state.
-/

namespace Sys2Proof.Machine

/-- A change of the device that leaves everything else alone. -/
def State.mapDev (f : Dev → Dev) (s : State) : State := { s with dev := f s.dev }

/-- A change of the Dmc channel alone. -/
def Dev.mapDmc (f : Dmc → Dmc) (d : Dev) : Dev := { d with dmc := f d.dmc }

/-- `dmc.EndOfSample()` (44_dmc.md R230). -/
def endOfSample (d : Dev) : Dev :=
  if d.dmc.loop then
    d.mapDmc fun m =>
      { m with dma := { m.dma with address := m.regAddress, lengthCounter := m.regLength } }
  else if d.dmc.irqEnable then raiseIrq .dmc d
  else d

/-- The DMA half after a fetch of byte `b`, before the end-of-sample test (44_dmc.md R229). -/
def Dma.fetched (b : Byte) (a : Dma) : Dma :=
  { address := 0x8000 ||| ((a.address + 1) &&& 0x7FFF)
    lengthCounter := a.lengthCounter - 1
    buffer := b
    buffered := true }

/-- `dmc.DoDMA()`: report the stolen cycles, read the byte, move on (44_dmc.md R229). -/
def doDma (P : Params) (s : State) : State :=
  let s1 := s.mapDev (stealCycles P.dmaStealCycles)
  let p := s1.peek s1.dev.dmc.dma.address
  p.2.mapDev fun d =>
    let d1 := d.mapDmc fun m => { m with dma := m.dma.fetched p.1 }
    if d1.dmc.dma.lengthCounter = 0 then endOfSample d1 else d1

/-- `dmc.SetEnabled(e)` (44_dmc.md R228). -/
def dmcSetEnabled (P : Params) (e : Bool) (s : State) : State :=
  let s1 := s.mapDev (clearIrq .dmc)
  if e = false then
    s1.mapDev fun d => d.mapDmc fun m => { m with dma := { m.dma with lengthCounter := 0 } }
  else if s1.dev.dmc.dma.lengthCounter = 0 then
    let s2 := s1.mapDev fun d => d.mapDmc fun m =>
      { m with dma := { m.dma with lengthCounter := m.regLength, address := m.regAddress } }
    if s2.dev.dmc.dma.buffered then s2 else doDma P s2
  else s1

/-- The level one delta step away (44_dmc.md R232, `next`). -/
def dacTarget (m : Dmc) : Int := (m.out.dac : Int) + (if m.out.buffer.getLsbD 0 then 2 else -2)

/-- Whether `dmc.ClockDAC()` changes the level, which is what it returns (44_dmc.md R232). -/
def dacMoves (P : Params) (m : Dmc) : Bool :=
  m.active && decide (0 ≤ dacTarget m) && decide (dacTarget m ≤ P.dacMax)

/-- `dmc.ClockDAC()` (44_dmc.md R232). -/
def clockDac (P : Params) (m : Dmc) : Dmc :=
  if m.active then
    { m with out :=
        { m.out with
          buffer := m.out.buffer >>> 1
          dac := if dacMoves P m then (dacTarget m).toNat else m.out.dac } }
  else m

/-- The fetched byte goes to the output unit, eight bits to play (44_dmc.md R233). -/
def Dmc.takeByte (m : Dmc) : Dmc :=
  { m with
    active := true
    dma := { m.dma with buffered := false }
    out := { m.out with shifter := 7, buffer := m.dma.buffer } }

/-- `dmc.ClockOutputUnit()` (44_dmc.md R233). -/
def clockOutputUnit (P : Params) (s : State) : State :=
  let m := s.dev.dmc
  if m.out.shifter ≠ 0 then
    s.mapDev fun d => d.mapDmc fun m => { m with out := { m.out with shifter := m.out.shifter - 1 } }
  else if m.dma.buffered then
    let s1 := s.mapDev fun d => d.mapDmc Dmc.takeByte
    if s1.dev.dmc.dma.lengthCounter ≠ 0 then doDma P s1 else s1
  else
    s.mapDev fun d => d.mapDmc fun m => { m with active := false, out := { m.out with shifter := 7 } }

/-- `dmc.LevelUpdate()`: the other channels are brought up to this clock at the old level first (44_dmc.md R235). -/
def levelUpdate (P : Params) (d : Dev) : Dev :=
  (update P d.clk.dmcClock d).mapDmc fun m => { m with curSample := (m.out.dac : Int) * P.outputMul }

/-- The first half of a Dmc clock: the delta step, the level update if it moved, and the next clock's time
(44_dmc.md R234). -/
def dmcDeltaStep (P : Params) (d : Dev) : Dev :=
  let d1 := d.mapDmc (clockDac P)
  let d2 := if dacMoves P d.dmc then levelUpdate P d1 else d1
  { d2 with clk := { d2.clk with dmcClock := d2.clk.dmcClock + d2.dmc.frequency } }

/-- `dmc.Clock()` (44_dmc.md R234). -/
def dmcClock (P : Params) (s : State) : State := clockOutputUnit P (s.mapDev (dmcDeltaStep P))

/-- `while clk.dmcClock <= limit do dmc.Clock()`, at most `fuel` times (44_dmc.md R236). -/
def dmcClocks (P : Params) (limit : Int) : Nat → State → State
  | 0, s => s
  | fuel + 1, s => if s.dev.clk.dmcClock ≤ limit then dmcClocks P limit fuel (dmcClock P s) else s

/-- `DmcTick` at the time `limit` in `u` (44_dmc.md R236).  A bit is at least one unit long, so the difference bounds
the number of clocks (log entry 13). -/
def dmcTick (P : Params) (limit : Int) (s : State) : State :=
  dmcClocks P limit (limit - s.dev.clk.dmcClock + 1).toNat s

end Sys2Proof.Machine
end

