-- ==== Sys2Proof/Machine/ClockConverter.lean ====
section
/-!
DEFINITION. The ClockConverter (47_clock_converter.md R291 to R296) and the reset procedure
(70_reset_and_hazards.md R400, R401), which it calls when the TV mode changes.
-/

namespace Sys2Proof.Machine

/-- `EffectiveRate(sampleRate, speed, tv)` (47_clock_converter.md R292). -/
def effectiveRate (P : Params) (sampleRate speed : Nat) (tv : TvMode) : Nat :=
  if speed ≠ 0 then sampleRate * P.fps tv / speed else sampleRate

/-- The search of 47_clock_converter.md R293: the first `k` at or after `k` with `base * k mod r = 0` among the next
`fuel`, if any. -/
def searchMultiplier (base r : Nat) : Nat → Nat → Option Nat
  | 0, _ => none
  | fuel + 1, k => if base * k % r = 0 then some k else searchMultiplier base r fuel (k + 1)

/-- The multiplier `m` of 47_clock_converter.md R293. -/
def multiplier (P : Params) (tv : TvMode) (r : Nat) : Nat :=
  (searchMultiplier (P.clockBase tv) r P.mMax 1).getD P.mMax

/-- What `Derive` returns (47_clock_converter.md R293). -/
structure Derived where
  m : Nat
  rate : Nat
  fixed : Nat
deriving DecidableEq, Repr

/-- `Derive(tv, r)` (47_clock_converter.md R293). -/
def derive (P : Params) (tv : TvMode) (r : Nat) : Derived :=
  let m := multiplier P tv r
  { m := m, rate := P.clockBase tv * m / r, fixed := P.baseDivider tv * m }

/-- `Derive` on a set of settings. -/
def deriveFor (P : Params) (c : Settings) : Derived :=
  derive P c.tv (effectiveRate P c.sampleRate c.speed c.tv)

/-! ### Reset (70_reset_and_hazards.md R400) -/

/-- An oscillator after a reset. -/
def freshOsc (rate fixed frequency : Int) : Osc :=
  { active := false, timer := 0, frequency := frequency, rate := rate, fixed := fixed, amp := 0 }

/-- An envelope after a reset. -/
def freshEnvelope (P : Params) : Envelope :=
  { reg := 0x10, volume := 0, count := 0, reset := false, outputVolume := P.outputMul, output := 0 }

/-- A length counter after a reset. -/
def freshLength : LengthCounter := { enabled := false, count := 0 }

/-- A Square after a reset. -/
def freshSquare (P : Params) (rate fixed cc : Int) : Square :=
  { osc := freshOsc rate fixed (2 * cc), duty := 0, step := 0,
    sweep := { rate := 0, shift := 0, count := 1, reload := false, increase := true },
    waveLength := 0, validFrequency := false, env := freshEnvelope P, len := freshLength }

/-- The ClockModel after a reset: re-derived from the settings, the timers counted from time zero. -/
def freshClock (P : Params) (cfg : Settings) (ctrl : FrameCtrl) : ClockModel :=
  let v := deriveFor P cfg
  let fixed : Int := v.fixed
  { fixed := fixed
    rate := v.rate
    rateCounter := 0
    frameCounter := frameGap P cfg.tv ctrl.mode5 0 fixed
    frameDivider := 0
    frameIrqClock := if ctrl.mode5 = false ∧ ctrl.irqInhibit = false then some (irqGap P cfg.tv 0 fixed) else none
    frameIrqRepeat := 0
    dmcClock := dmcBitLength P cfg.tv 0 (cpuCycle P cfg.tv fixed)
    extCounter := extCounterAfterReset }

/-- The device with every field at its reset value, from the settings and the control latch it keeps. -/
def freshDev (P : Params) (cfg : Settings) (ctrl : FrameCtrl) : Dev :=
  let clk := freshClock P cfg ctrl
  let cc := cpuCycle P cfg.tv clk.fixed
  { clk := clk
    ctrl := ctrl
    sq0 := freshSquare P clk.rate clk.fixed cc
    sq1 := freshSquare P clk.rate clk.fixed cc
    tri := { osc := freshOsc clk.rate clk.fixed cc, step := 0, linearCounter := 0, linearCtrl := 0,
             status := .counting, waveLength := 0, len := freshLength }
    noise := { osc := freshOsc clk.rate clk.fixed (noiseStepLength P cfg.tv 0 cc), bits := P.noiseSeed,
               shifter := .long, periodIndex := 0, env := freshEnvelope P, len := freshLength }
    dmc := { active := false, dma := { address := 0xC000, lengthCounter := 0, buffer := 0, buffered := false },
             out := { shifter := 0, buffer := 0, dac := 0 }, curSample := 0, linSample := 0, loop := false,
             irqEnable := false, rateIndex := 0, frequency := dmcBitLength P cfg.tv 0 cc,
             regAddress := 0xC000, regLength := 1 }
    dc := { acc := 0, prev := 0, next := 0 }
    ring := { output := [], pos := 0, start := 0, history := [], hpos := 0 }
    cfg := cfg
    irq := { frame := false, dmc := false }
    stolen := 0 }

/-- `Reset(hard)` (70_reset_and_hazards.md R400): a soft reset keeps `ctrl`. -/
def resetDevice (P : Params) (hard : Bool) (d : Dev) : Dev :=
  let ctrl := if hard then { mode5 := false, irqInhibit := false } else d.ctrl
  let e := freshDev P d.cfg ctrl
  extSetContext e.clk.rate e.clk.fixed (extReset e)

/-- The settings at power-on (10_state.md R48). -/
def powerOnSettings (tv : TvMode) : Settings :=
  { sampleRate := 44100, speed := 0, tv := tv, bits := 16, channels := .mono, synth := .synth }

/-- `PowerOn(tv)` (70_reset_and_hazards.md R401): the hard reset of a device with these settings. -/
def powerOn (P : Params) (tv : TvMode) : Dev :=
  freshDev P (powerOnSettings tv) { mode5 := false, irqInhibit := false }

/-! ### Configure -/

/-- A time carried from the old scale to the new one: `floor(c * newFixed / old)` (47_clock_converter.md R295). -/
def rescaled (newFixed old c : Int) : Int := c * newFixed / old

/-- An oscillator's timer carried to the new scale (47_clock_converter.md R295). -/
def Osc.rescale (newFixed old : Int) (o : Osc) : Osc := { o with timer := rescaled newFixed old o.timer }

/-- `Rescale(newFixed, newRate)` (47_clock_converter.md R295): every finite counter and the four timers. -/
def rescaleDevice (newFixed newRate : Int) (d : Dev) : Dev :=
  let f := rescaled newFixed d.clk.fixed
  let g := Osc.rescale newFixed d.clk.fixed
  { d with
    clk :=
      { d.clk with
        rateCounter := f d.clk.rateCounter
        frameCounter := f d.clk.frameCounter
        dmcClock := f d.clk.dmcClock
        frameIrqClock := d.clk.frameIrqClock.map f
        extCounter := d.clk.extCounter.map f
        fixed := newFixed
        rate := newRate }
    sq0 := { d.sq0 with osc := g d.sq0.osc }
    sq1 := { d.sq1 with osc := g d.sq1.osc }
    tri := { d.tri with osc := g d.tri.osc }
    noise := { d.noise with osc := g d.noise.osc } }

/-- A Square's settings after a rescale (47_clock_converter.md R296). -/
def Square.newSettings (rate fixed oldFixed cc : Int) (q : Square) : Square :=
  { q with osc :=
      { q.osc with
        rate := rate
        fixed := fixed
        frequency :=
          if q.validFrequency then squarePeriod q.waveLength cc else q.osc.frequency * fixed / oldFixed } }

/-- `UpdateChannelSettings(oldFixed)` (47_clock_converter.md R296). -/
def updateChannelSettings (P : Params) (oldFixed : Int) (d : Dev) : Dev :=
  let cc := d.cc P
  let rate := d.clk.rate
  let fixed := d.clk.fixed
  extSetContext rate fixed
    { d with
      sq0 := d.sq0.newSettings rate fixed oldFixed cc
      sq1 := d.sq1.newSettings rate fixed oldFixed cc
      tri := { d.tri with osc :=
        { d.tri.osc with rate := rate, fixed := fixed, frequency := trianglePeriod d.tri.waveLength cc } }
      noise := { d.noise with osc :=
        { d.noise.osc with
          rate := rate, fixed := fixed, frequency := noiseStepLength P d.cfg.tv d.noise.periodIndex cc } }
      dmc := { d.dmc with frequency := dmcBitLength P d.cfg.tv d.dmc.rateIndex cc } }

/-- The outcome of `Configure` on settings it does not take up: the checks of 60_exceptions.md R385 in order, then
the no-op test; none when it takes them up. -/
def configureRefuses (P : Params) (new cfg : Settings) : Option OpOutcome :=
  if new.sampleRate = 0 then some .invalidSampleRate
  else if new.bits ≠ 8 ∧ new.bits ≠ 16 then some .unsupportedBits
  else if effectiveRate P new.sampleRate new.speed new.tv = 0 then some .invalidSampleRate
  else if (deriveFor P new).rate = 0 then some .invalidSampleRate
  else if new = cfg then some .noOp
  else none

/-- What `Configure` does once it takes the settings up, before the reset of a changed TV mode
(47_clock_converter.md R291). -/
def takeSettings (P : Params) (new : Settings) (d : Dev) : Dev :=
  let v := deriveFor P new
  updateChannelSettings P d.clk.fixed (rescaleDevice v.fixed v.rate { d with cfg := new })

/-- `Configure` (47_clock_converter.md R291): the outcome and the device after it. -/
def configure (P : Params) (new : Settings) (d : Dev) : OpOutcome × Dev :=
  match configureRefuses P new d.cfg with
  | some o => (o, d)
  | none =>
    let e := takeSettings P new d
    (.ok, if new.tv ≠ d.cfg.tv then resetDevice P true e else e)

end Sys2Proof.Machine
end

