-- ==== Sys2Proof/Machine/Output.lean ====
section
/-!
DEFINITION. Delivery to the host: `Flush`, `EndFrame` and the rebasing of the counters
(49_output_and_synthesis.md R337 to R347).
-/

namespace Sys2Proof.Machine

/-- `WriteFrame` (49_output_and_synthesis.md R346, R347): the slots of one frame, in order, and the ring after it. -/
def writeFrame (P : Params) (cfg : Settings) (s : Int) (r : Ring) : List Slot × Ring :=
  match cfg.channels with
  | .mono => ([encodeSlot cfg.bits s], r)
  | .stereo =>
    let h := r.hpos % P.historySize
    ([encodeSlot cfg.bits (sampleAt r.history h), encodeSlot cfg.bits s],
      { r with history := putSample r.history h s, hpos := r.hpos + 1 })

/-- The slots of a list of frames, frame 0 first, and the ring after them. -/
def writeFrames (P : Params) (cfg : Settings) : List Int → Ring → List Slot × Ring
  | [], r => ([], r)
  | s :: rest, r =>
    let f := writeFrame P cfg s r
    let g := writeFrames P cfg rest f.2
    (f.1 ++ g.1, g.2)

/-- A block of `n` samples from `start` on (49_output_and_synthesis.md R342). -/
def Ring.block (P : Params) (n : Nat) (r : Ring) : List Int :=
  (List.range n).map fun k => sampleAt r.output ((r.start + k) % P.ringSize)

/-- The ring once `n` samples have been delivered: only `start` moves. -/
def Ring.deliver (P : Params) (n : Nat) (r : Ring) : Ring := { r with start := (r.start + n) % P.ringSize }

/-- The last delivered sample, which a starving flush repeats (49_output_and_synthesis.md R344, R348). -/
def Ring.hold (P : Params) (r : Ring) : Int :=
  sampleAt r.output (((r.start : Int) - 1) % P.ringSize).toNat

/-- The samples of the `length` frames of a flush: the block the ring has, then the held sample. -/
def flushSamples (P : Params) (length : Nat) (r : Ring) : List Int :=
  let n := min length (r.latency P)
  r.block P n ++ List.replicate (length - n) ((r.deliver P n).hold P)

/-- `Flush(stream)` with `stream.length = length` (49_output_and_synthesis.md R344): the slots written, slot 0 first,
and the ring after it. -/
def flushRing (P : Params) (cfg : Settings) (length : Nat) (r : Ring) : List Slot × Ring :=
  writeFrames P cfg (flushSamples P length r) (r.deliver P (min length (r.latency P)))

/-- `Flush` on the whole state: the host's buffer holds what was written. -/
def flush (P : Params) (length : Nat) (s : State) : State :=
  let w := flushRing P s.dev.cfg length s.dev.ring
  { s with dev := { s.dev with ring := w.2 }, host := { s.host with buffer := w.1 } }

/-- `Rebase(frameCycles)` (49_output_and_synthesis.md R338). -/
def rebase (frameCycles : Nat) (d : Dev) : Dev :=
  let f := fun c : Int => c - (frameCycles : Int) * d.clk.fixed
  { d with clk :=
      { d.clk with
        rateCounter := f d.clk.rateCounter
        frameCounter := f d.clk.frameCounter
        dmcClock := f d.clk.dmcClock
        frameIrqClock := d.clk.frameIrqClock.map f
        extCounter := d.clk.extCounter.map f } }

/-- `Lock`: the granted lock is counted; with no callbacks nothing is called (49_output_and_synthesis.md R339). -/
def lockStream (a : LockAnswer) (s : State) : State :=
  match a with
  | .granted => { s with host := { s.host with locks := s.host.locks + 1 } }
  | .noCallbacks | .refused => s

/-- `Unlock`: called exactly once after a granted lock (49_output_and_synthesis.md R339). -/
def unlockStream (a : LockAnswer) (s : State) : State :=
  match a with
  | .granted => { s with host := { s.host with unlocks := s.host.unlocks + 1 } }
  | .noCallbacks | .refused => s

/-- The output part of `EndFrame` (49_output_and_synthesis.md R337): skipped without a stream, in `ADVANCE_ONLY` and
when the lock is refused. -/
def deliverFrame (P : Params) (stream : Option Nat) (a : LockAnswer) (s : State) : State :=
  match stream, s.dev.cfg.synth, a with
  | none, _, _ => s
  | some _, .advanceOnly, _ => s
  | some _, .synth, .refused => s
  | some length, .synth, a => unlockStream a (flush P length (lockStream a s))

end Sys2Proof.Machine
end

