-- ==== Sys2Proof/Machine/Params.lean ====
section
/-!
DEFINITION. The parameter values the model is run with: the defaults of 00_scope.md R10 and of the tables it points
at.  Log entry 16 says where they come from.
-/

namespace Sys2Proof.Machine

/-- `LENGTH_TABLE` (10_state.md R33). -/
def lengthTable : List Nat :=
  [10, 254, 20, 2, 40, 4, 80, 6, 160, 8, 60, 10, 14, 12, 26, 14]
    ++ [12, 16, 24, 18, 48, 20, 96, 22, 192, 24, 72, 26, 16, 28, 32, 30]

/-- `DUTY_TABLE[duty][step]` (41_square.md R151). -/
def dutyTable : List (List Nat) := [
  [0, 1, 0, 0, 0, 0, 0, 0],
  [0, 1, 1, 0, 0, 0, 0, 0],
  [0, 1, 1, 1, 1, 0, 0, 0],
  [1, 0, 0, 1, 1, 1, 1, 1]]

/-- `TRIANGLE_TABLE` (42_triangle.md R181). -/
def triangleTable : List Nat :=
  [0, 1, 2, 3, 4, 5, 6, 7, 8, 9, 10, 11, 12, 13, 14, 15]
    ++ [15, 14, 13, 12, 11, 10, 9, 8, 7, 6, 5, 4, 3, 2, 1, 0]

/-- `NOISE_PERIOD[tv]` in CPU cycles (43_noise.md R201). -/
def noisePeriod : TvMode → List Nat
  | .ntsc => [4, 8, 16, 32, 64, 96, 128, 160, 202, 254, 380, 508, 762, 1016, 2034, 4068]
  | .pal => [4, 8, 14, 30, 60, 88, 118, 148, 188, 236, 354, 472, 708, 944, 1890, 3778]

/-- `DMC_PERIOD[tv]` in CPU cycles (44_dmc.md R221). -/
def dmcPeriod : TvMode → List Nat
  | .ntsc => [428, 380, 340, 320, 286, 254, 226, 214, 190, 160, 142, 128, 106, 84, 72, 54]
  | .pal => [398, 354, 316, 298, 276, 236, 210, 198, 176, 148, 132, 118, 98, 78, 66, 50]

/-- `FRAME_STEP[tv][mode]` in CPU cycles; the Boolean is true for the 5-step mode (45_frame_sequencer.md R251). -/
def frameStep : TvMode → Bool → List Nat
  | .ntsc, false => [7459, 7456, 7458, 7457]
  | .ntsc, true => [7458, 7456, 7458, 14910]
  | .pal, false => [8315, 8314, 8312, 8313]
  | .pal, true => [8314, 8314, 8312, 16626]

/-- The 4-step period `P` in CPU cycles (45_frame_sequencer.md R251). -/
def framePeriod : TvMode → Nat
  | .ntsc => 29830
  | .pal => 33254

/-- The parameters of the model, each at the default of 00_scope.md R10. -/
def params : Params where
  mMax := 511
  sqMinPeriod := 8
  sqMaxPeriod := 0x7FF
  dacMax := 0x7F
  lengthMax := 254
  clockBase := fun | .ntsc => 236250000 | .pal => 212813700
  baseDivider := fun | .ntsc => 11 | .pal => 8
  cpuDiv := fun | .ntsc => 12 | .pal => 16
  fps := fun | .ntsc => 60 | .pal => 50
  lengthTable := lengthTable
  dutyTable := dutyTable
  triangleTable := triangleTable
  noisePeriod := noisePeriod
  dmcPeriod := dmcPeriod
  noiseSeed := 0x4000
  triMinPeriod := 3
  frameStep := frameStep
  frameIrqClocks := fun tv => [framePeriod tv, 1, 1, framePeriod tv - 2]
  frameWriteDelay := 1
  dmaStealCycles := 4
  outputMul := 256
  outputDecay := 63
  triWeight := 3
  noiseWeight := 2
  dmcLinStep := 2048
  nlnSq0 := 4225499136
  nlnSq1 := 1872691200
  nlnSq2 := 90000
  nlnTnd0 := 4022353920
  nlnTnd1 := 3114112000
  nlnTnd2 := 50000
  dcK := 15
  dcPole := 3
  sampleMin := -32767
  sampleMax := 32767
  ringSize := 0x4000
  historySize := 0x40
  hostByteOrder := Config.hostByteOrder

end Sys2Proof.Machine
end

