-- ==== Sys2Proof/Machine/Dmc.lean ====
section
/-!
DEFINITION. The meanings of the Dmc registers (44_dmc.md R224 to R227).
-/

namespace Sys2Proof.Machine

/-- Register 0 of the Dmc, without the catch-up (44_dmc.md R224). -/
def dmcWriteR0 (P : Params) (f : FDctl) (d : Dev) : Dev :=
  let e := d.mapDmc fun m =>
    { m with
      irqEnable := f.irqEnable
      loop := f.loop
      rateIndex := f.rate
      frequency := dmcBitLength P d.cfg.tv f.rate (d.cc P) }
  if f.irqEnable then e else clearIrq .dmc e

/-- Register 1 of the Dmc, without the catch-up (44_dmc.md R225). -/
def dmcWriteR1 (P : Params) (f : FDdac) (m : Dmc) : Dmc :=
  { m with
    out := { m.out with dac := f.level.toNat }
    curSample := (f.level.toNat : Int) * P.outputMul
    linSample := (f.level.toNat : Int) * P.outputMul }

/-- `DMC_R0`, `WR $4010` (44_dmc.md R224). -/
def execDmcR0 (f : FDctl) (s : State) : Result :=
  catchUpThen params s fun s => s.mapDev (dmcWriteR0 params f)

/-- `DMC_R1`, `WR $4011` (44_dmc.md R225). -/
def execDmcR1 (f : FDdac) (s : State) : Result :=
  catchUpThen params s fun s => s.mapDev fun d => d.mapDmc (dmcWriteR1 params f)

/-- `DMC_R2`, `WR $4012` (44_dmc.md R226). -/
def execDmcR2 (f : FByte) (s : State) : Result :=
  catchUpThen params s fun s => s.mapDev fun d => d.mapDmc fun m =>
    { m with regAddress := dmcStartAddress f.value }

/-- `DMC_R3`, `WR $4013` (44_dmc.md R227). -/
def execDmcR3 (f : FByte) (s : State) : Result :=
  catchUpThen params s fun s => s.mapDev fun d => d.mapDmc fun m =>
    { m with regLength := dmcSampleLength f.value }

end Sys2Proof.Machine
end

