-- ==== Sys2Proof/Machine/Frame.lean ====
section
/-!
DEFINITION. The meaning of the frame control write (45_frame_sequencer.md R258).
-/

namespace Sys2Proof.Machine

/-- The time up to which `WR $4017` catches up, in MC: one CPU cycle later on an odd cycle. -/
def frameWriteTime (P : Params) (tv : TvMode) (now : Nat) (odd : Bool) : Nat :=
  now + (if odd then P.cpuDiv tv else 0)

/-- The time of the divider reset, in MC. -/
def frameResetTime (P : Params) (tv : TvMode) (now : Nat) (odd : Bool) : Nat :=
  frameWriteTime P tv now odd + P.frameWriteDelay * P.cpuDiv tv

/-- The restart of both timers and the new control latch, at the divider reset's time `next` in MC
(45_frame_sequencer.md R258, the assignments). -/
def frameRestart (P : Params) (f : FFrm) (next : Nat) (d : Dev) : Dev :=
  { d with
    clk :=
      { d.clk with
        frameCounter := (next : Int) * d.clk.fixed + frameGap P d.cfg.tv f.mode5 0 d.clk.fixed
        frameDivider := 0
        frameIrqRepeat := 0
        frameIrqClock :=
          if f.mode5 ∨ f.irqInhibit then none
          else some ((next : Int) * d.clk.fixed + irqGap P d.cfg.tv 0 d.clk.fixed) }
    ctrl := { mode5 := f.mode5, irqInhibit := f.irqInhibit } }

/-- What the write does to the flag and the units after the restart (45_frame_sequencer.md R258, the `if`). -/
def frameModeEffects (P : Params) (f : FFrm) (d : Dev) : Dev :=
  let d1 := if f.irqInhibit then clearIrq .frame d else d
  if f.mode5 then clockOscillators P true d1 else d1

/-- The whole write on the device: catch up, bring the frame IRQ timer up to date, restart, mode effects. -/
def frameWrite (P : Params) (f : FFrm) (now : Nat) (odd : Bool) (d : Dev) : Dev :=
  let t := (frameWriteTime P d.cfg.tv now odd : Int) * d.clk.fixed
  frameModeEffects P f
    (frameRestart P f (frameResetTime P d.cfg.tv now odd) (frameIrqTick P t (update P t d)))

/-- `FRAME_W`, `WR $4017` (45_frame_sequencer.md R258). -/
def execFrameW (f : FFrm) (s : State) : Result :=
  if s.nowU < s.dev.clk.dmcClock then
    .next (s.done (frameWrite params f s.inp.now s.inp.odd s.dev))
  else .fault .dmcTickMissed

end Sys2Proof.Machine
end

