-- ==== Sys2Proof/Machine/Noise.lean ====
section
/-!
DEFINITION. The meanings of the Noise registers (43_noise.md R210 to R212).
-/

namespace Sys2Proof.Machine

/-- A change of the Noise channel alone. -/
def Dev.mapNoise (f : Noise → Noise) (d : Dev) : Dev := { d with noise := f d.noise }

/-- `NOI_R0`, `WR $400C` (43_noise.md R210). -/
def execNoiR0 (f : FEnv) (s : State) : Result :=
  catchUpThen params s fun s => s.mapDev fun d => d.mapNoise (Noise.writeR0 f)

/-- `NOI_R2`, `WR $400E` (43_noise.md R211). -/
def execNoiR2 (f : FNper) (s : State) : Result :=
  catchUpThen params s fun s => s.mapDev fun d => d.mapNoise (Noise.writeR2 params d.cfg.tv (d.cc params) f)

/-- `NOI_R3`, `WR $400F` (43_noise.md R212). -/
def execNoiR3 (f : FPhi) (s : State) : Result :=
  catchUpThen params s fun s => s.mapDev fun d => d.mapNoise (Noise.writeR3 params f)

end Sys2Proof.Machine
end

