-- ==== Sys2Proof/Machine/Nop.lean ====
section
/-!
DEFINITION. The meanings of the two writes with no effect at all, not even the catch-up (30_encoding.md R104 (a)).
-/

namespace Sys2Proof.Machine

/-- `NOP_4009`, `WR $4009`. -/
def execNop4009 (_d : Byte) (s : State) : Result := .next (s.done s.dev)

/-- `NOP_400D`, `WR $400D`. -/
def execNop400D (_d : Byte) (s : State) : Result := .next (s.done s.dev)

end Sys2Proof.Machine
end

