-- ==== Sys2Proof/Machine/Square.lean ====
section
/-!
DEFINITION. The meanings of the Square registers (41_square.md R160 to R167): the catch-up, then the channel's own
register write.  One definition per instruction.
-/

namespace Sys2Proof.Machine

/-- A change of Square 1 alone. -/
def Dev.mapSq0 (f : Square → Square) (d : Dev) : Dev := { d with sq0 := f d.sq0 }

/-- A change of Square 2 alone. -/
def Dev.mapSq1 (f : Square → Square) (d : Dev) : Dev := { d with sq1 := f d.sq1 }

/-- `SQ1_R0`, `WR $4000` (41_square.md R160). -/
def execSq1R0 (f : FEnv) (s : State) : Result :=
  catchUpThen params s fun s => s.mapDev fun d => d.mapSq0 (Square.writeR0 f)

/-- `SQ1_R1`, `WR $4001` (41_square.md R161). -/
def execSq1R1 (f : FSweep) (s : State) : Result :=
  catchUpThen params s fun s => s.mapDev fun d => d.mapSq0 (Square.writeR1 params (d.cc params) f)

/-- `SQ1_R2`, `WR $4002` (41_square.md R162). -/
def execSq1R2 (f : FPlo) (s : State) : Result :=
  catchUpThen params s fun s => s.mapDev fun d => d.mapSq0 (Square.writeR2 params (d.cc params) f)

/-- `SQ1_R3`, `WR $4003` (41_square.md R163). -/
def execSq1R3 (f : FPhi) (s : State) : Result :=
  catchUpThen params s fun s => s.mapDev fun d => d.mapSq0 (Square.writeR3 params (d.cc params) f)

/-- `SQ2_R0`, `WR $4004` (41_square.md R164). -/
def execSq2R0 (f : FEnv) (s : State) : Result :=
  catchUpThen params s fun s => s.mapDev fun d => d.mapSq1 (Square.writeR0 f)

/-- `SQ2_R1`, `WR $4005` (41_square.md R165). -/
def execSq2R1 (f : FSweep) (s : State) : Result :=
  catchUpThen params s fun s => s.mapDev fun d => d.mapSq1 (Square.writeR1 params (d.cc params) f)

/-- `SQ2_R2`, `WR $4006` (41_square.md R166). -/
def execSq2R2 (f : FPlo) (s : State) : Result :=
  catchUpThen params s fun s => s.mapDev fun d => d.mapSq1 (Square.writeR2 params (d.cc params) f)

/-- `SQ2_R3`, `WR $4007` (41_square.md R167). -/
def execSq2R3 (f : FPhi) (s : State) : Result :=
  catchUpThen params s fun s => s.mapDev fun d => d.mapSq1 (Square.writeR3 params (d.cc params) f)

end Sys2Proof.Machine
end

