-- ==== Sys2Proof/Machine/Status.lean ====
section
/-!
DEFINITION. The meanings of the status register in both directions (46_status.md R281, R283).
-/

namespace Sys2Proof.Machine

/-- The four length counter enables of `WR $4015` (46_status.md R281). -/
def enableChannels (P : Params) (f : FStw) (d : Dev) : Dev :=
  { d with
    sq0 := d.sq0.enable f.square1
    sq1 := d.sq1.enable f.square2
    tri := d.tri.enable P f.tri
    noise := d.noise.enable f.noise }

/-- `STATUS_W`, `WR $4015` (46_status.md R281). -/
def execStatusW (f : FStw) (s : State) : Result :=
  catchUpThen params s fun s => dmcSetEnabled params f.dmc (s.mapDev (enableChannels params f))

/-- `STATUS_R`, `RD $4015` (46_status.md R283): the frame IRQ timer first, then the catch-up; the byte carries the
frame flag as it was before the clear. -/
def execStatusR (s : State) : Result :=
  catchUpThen params (s.mapDev (frameIrqTick params s.nowU)) fun s =>
    { s with dev := clearIrq .frame s.dev, outcome := .okValue s.dev.statusByte }

end Sys2Proof.Machine
end

