-- ==== Sys2Proof/Machine/Triangle.lean ====
section
/-!
DEFINITION. The meanings of the Triangle registers (42_triangle.md R190 to R192).
-/

namespace Sys2Proof.Machine

/-- A change of the Triangle alone. -/
def Dev.mapTri (f : Triangle → Triangle) (d : Dev) : Dev := { d with tri := f d.tri }

/-- `TRI_R0`, `WR $4008` (42_triangle.md R190). -/
def execTriR0 (f : FLin) (s : State) : Result :=
  catchUpThen params s fun s => s.mapDev fun d => d.mapTri (Triangle.writeR0 f)

/-- `TRI_R2`, `WR $400A` (42_triangle.md R191). -/
def execTriR2 (f : FPlo) (s : State) : Result :=
  catchUpThen params s fun s => s.mapDev fun d => d.mapTri (Triangle.writeR2 params (d.cc params) f)

/-- `TRI_R3`, `WR $400B` (42_triangle.md R192). -/
def execTriR3 (f : FPhi) (s : State) : Result :=
  catchUpThen params s fun s => s.mapDev fun d => d.mapTri (Triangle.writeR3 params (d.cc params) f)

end Sys2Proof.Machine
end

