-- ==== Sys2Proof/Machine/Dispatch.lean ====
section
/-!
DEFINITION. The dispatch: one arm per instruction, each one direct call of its meaning.
-/

namespace Sys2Proof.Machine

/-- The meaning of an instruction; its time and parity are the inputs of the state (20_memory.md R72). -/
def exec (i : Instr) (s : State) : Host.Outcome State Fault Refusal :=
  match i with
  | .sq1R0 f => Sys2Proof.Machine.execSq1R0 f s
  | .sq1R1 f => Sys2Proof.Machine.execSq1R1 f s
  | .sq1R2 f => Sys2Proof.Machine.execSq1R2 f s
  | .sq1R3 f => Sys2Proof.Machine.execSq1R3 f s
  | .sq2R0 f => Sys2Proof.Machine.execSq2R0 f s
  | .sq2R1 f => Sys2Proof.Machine.execSq2R1 f s
  | .sq2R2 f => Sys2Proof.Machine.execSq2R2 f s
  | .sq2R3 f => Sys2Proof.Machine.execSq2R3 f s
  | .triR0 f => Sys2Proof.Machine.execTriR0 f s
  | .triR2 f => Sys2Proof.Machine.execTriR2 f s
  | .triR3 f => Sys2Proof.Machine.execTriR3 f s
  | .noiR0 f => Sys2Proof.Machine.execNoiR0 f s
  | .noiR2 f => Sys2Proof.Machine.execNoiR2 f s
  | .noiR3 f => Sys2Proof.Machine.execNoiR3 f s
  | .dmcR0 f => Sys2Proof.Machine.execDmcR0 f s
  | .dmcR1 f => Sys2Proof.Machine.execDmcR1 f s
  | .dmcR2 f => Sys2Proof.Machine.execDmcR2 f s
  | .dmcR3 f => Sys2Proof.Machine.execDmcR3 f s
  | .statusW f => Sys2Proof.Machine.execStatusW f s
  | .statusR => Sys2Proof.Machine.execStatusR s
  | .frameW f => Sys2Proof.Machine.execFrameW f s
  | .nop4009 d => Sys2Proof.Machine.execNop4009 d s
  | .nop400D d => Sys2Proof.Machine.execNop400D d s

end Sys2Proof.Machine
end

