-- ==== Sys2Proof/Machine/Events.lean ====
section
/-!
DEFINITION. The seven host events (30_encoding.md R120) on the whole state.  Those that carry a time find it latched
in `inp.now`.
-/

namespace Sys2Proof.Machine

/-- `Reset(hard)` (70_reset_and_hazards.md R400); it defines time zero (60_exceptions.md R383 P8). -/
def execReset (hard : Bool) (s : State) : Result :=
  .next { s.done (resetDevice params hard s.dev) with inp := { now := 0, odd := false } }

/-- `Configure` (47_clock_converter.md R291).  A change of TV mode that is taken up resets the device, and so defines
time zero as well (60_exceptions.md R383 P8). -/
def execConfigure (new : Settings) (s : State) : Result :=
  let r := configure params new s.dev
  let resets : Bool := r.1 = .ok ∧ new.tv ≠ s.dev.cfg.tv
  .next { s with
    dev := r.2
    outcome := r.1
    inp := if resets then { now := 0, odd := false } else s.inp }

/-- `Update(now)` (49_output_and_synthesis.md R332). -/
def execUpdate (s : State) : Result := catchUpThen params s id

/-- `EndFrame(now, frameCycles, stream)` (49_output_and_synthesis.md R337).  After it the CPU collaborator's time is
lower by the frame's length (49_output_and_synthesis.md R338). -/
def execEndFrame (frameCycles : Nat) (stream : Option Nat) (a : LockAnswer) (s : State) : Result :=
  if 0 < frameCycles ∧ frameCycles ≤ s.inp.now then
    catchUpThen params s fun s =>
      let t := (deliverFrame params stream a s).mapDev (rebase frameCycles)
      { t with inp := { t.inp with now := t.inp.now - frameCycles } }
  else .fault .frameCyclesOutOfRange

/-- `Flush(stream)` as an event of its own (49_output_and_synthesis.md R344). -/
def execFlush (length : Nat) (s : State) : Result :=
  .next { flush params length s with outcome := .ok }

/-- `DmcTick(now)` (44_dmc.md R236). -/
def execDmcTick (s : State) : Result :=
  .next { dmcTick params s.nowU s with outcome := .ok }

/-- `FrameIrqTick(now)` (45_frame_sequencer.md R263). -/
def execFrameIrqTick (s : State) : Result := .next (s.done (frameIrqTick params s.nowU s.dev))

end Sys2Proof.Machine
end

