-- ==== Sys2Proof/Machine/Script.lean ====
section
/-!
DEFINITION. Running one line: take its time as the operation's input, decode a transaction, call the meaning.  What
the step around it does is in Sys2Proof/Machine/Step.lean.
-/

namespace Sys2Proof.Machine

/-- Latch the inputs of an operation; a time before the last one is a breach of P1 (60_exceptions.md R383), for which
the spec has no step (20_memory.md R80). -/
def atTime (now : Nat) (odd : Bool) (s : State) (k : State → Result) : Result :=
  if s.inp.now ≤ now then k { s with inp := { now := now, odd := odd } } else .fault .timeWentBack

/-- The refusal of a transaction that is no operation of this device (30_encoding.md R104 (b) to (d)). -/
def refusalOf : Reject → Refusal
  | .otherDevice a => .otherDevicePort a
  | .readOfWriteOnly a => .readOfWriteOnly a
  | .outsideWindow a => .outsideWindow a

/-- A bus transaction: decoded, then run at its time. -/
def runBus (now : Nat) (odd : Bool) (w : TWord) (s : State) : Result :=
  match decode w with
  | .instr i => atTime now odd s (exec i)
  | .reject why => .refused (refusalOf why)

/-- A host event, at its time if it carries one. -/
def runEvent (e : HostEvent) (s : State) : Result :=
  match e with
  | .reset hard => execReset hard s
  | .configure new => execConfigure new s
  | .update now => atTime now false s execUpdate
  | .endFrame now frameCycles stream a => atTime now false s (execEndFrame frameCycles stream a)
  | .flush length => execFlush length s
  | .dmcTick now => atTime now false s execDmcTick
  | .frameIrqTick now => atTime now false s execFrameIrqTick

/-- One line (30_encoding.md R121).  A store of the CPU collaborator changes its memory and nothing of the device
(20_memory.md R82). -/
def runLine (l : Line) (s : State) : Result :=
  match l with
  | .bus now odd w => runBus now odd w s
  | .event e => runEvent e s
  | .cpuStore a b => .next { s with mem := Memory.write s.mem a b }

/-- The machine with one transaction placed as the next line, at the present time. -/
def placeWord (w : TWord) (s : State) : State := { s with todo := .bus s.inp.now false w :: s.todo }

end Sys2Proof.Machine
end

