-- ==== Sys2Proof/Machine/Step.lean ====
section
/-!
DEFINITION. One step of the machine: the next line is taken from `todo` and run; with no line left the device waits
(70_reset_and_hazards.md R402) and nothing changes.
-/

namespace Sys2Proof.Machine

/-- One step. -/
def step (s : State) : Host.Outcome State Fault Refusal :=
  match s.todo with
  | [] => .next s
  | l :: rest => runLine l { s with todo := rest }

/-- The state with one transaction, numbered as the opcode table numbers it, placed where `step` takes its next one. -/
def State.withFetchWord (s : State) (nbits w : Nat) : State := placeWord (BitVec.ofNat 25 (w % 2 ^ nbits)) s

end Sys2Proof.Machine
end

