-- ==== Sys2Proof/Safety.lean ====
section
/-!
DEFINITION. What counts as a good state and a good run: the invariants I1 to I18 of 60_exceptions.md R382 as one
predicate on states, with the ranges 10_state.md gives the fields; the two parts of them that speak of a run and of an
operation, as predicates of their own; and what a claim may assume of an operation's time.
-/

namespace Sys2Proof.Machine

/-- I2 and I3 for one envelope, and its fixed amplitude unit (10_state.md R30, R31). -/
structure Envelope.Inv (P : Params) (e : Envelope) : Prop where
  output : e.output = (if e.reg.getLsbD 4 then (e.reg.extractLsb' 0 4).toNat else e.volume.toNat) * e.outputVolume
  unit : e.outputVolume = P.outputMul

/-- I4 for one length counter. -/
structure LengthCounter.Inv (P : Params) (l : LengthCounter) : Prop where
  count_le : l.count ≤ P.lengthMax
  disabled : l.enabled = false → l.count = 0

/-- I5 and the copies of I14 for one oscillator, given `clk.rate` and `clk.fixed`; its step length is positive and
its amplitude is not negative (10_state.md R35). -/
structure Osc.Inv (rate fixed : Int) (o : Osc) : Prop where
  timer : 0 ≤ o.timer
  rate_eq : o.rate = rate
  fixed_eq : o.fixed = fixed
  frequency : 0 < o.frequency
  amp : 0 ≤ o.amp

/-- The sweep's ranges (10_state.md R37) and what 41_square.md R172 (b), (c) say of a running sweep. -/
structure Sweep.Inv (w : Sweep) : Prop where
  rate_le : w.rate ≤ 8
  count_le : w.count ≤ 8
  shift_ne : w.rate ≠ 0 → w.shift ≠ 0
  pending : w.rate ≠ 0 → w.count = 0 → w.reload = true

/-- A Square: I1, I2, I4, I5, I6, I14.  While the period is invalid the step length stays a whole number of CPU cycles
(47_clock_converter.md R296). -/
structure Square.Inv (P : Params) (rate fixed cc : Int) (q : Square) : Prop where
  active : q.osc.active = q.canOutput
  osc : q.osc.Inv rate fixed
  env : q.env.Inv P
  len : q.len.Inv P
  sweep : q.sweep.Inv
  valid : q.validFrequency = q.periodValid P
  period : q.validFrequency = true → q.osc.frequency = squarePeriod q.waveLength cc
  whole : cc ∣ q.osc.frequency

/-- The Triangle: I1, I4, I5, I14 (I7 holds by the types of its fields). -/
structure Triangle.Inv (P : Params) (rate fixed cc : Int) (r : Triangle) : Prop where
  active : r.osc.active = r.canOutput P
  osc : r.osc.Inv rate fixed
  len : r.len.Inv P
  period : r.osc.frequency = trianglePeriod r.waveLength cc

/-- Noise: I1, I2, I4, I5, I8, I14. -/
structure Noise.Inv (P : Params) (tv : TvMode) (rate fixed cc : Int) (c : Noise) : Prop where
  active : c.osc.active = c.canOutput
  osc : c.osc.Inv rate fixed
  env : c.env.Inv P
  len : c.len.Inv P
  period : c.osc.frequency = noiseStepLength P tv c.periodIndex cc
  bits : c.bits ≠ 0

/-- The Dmc: I9, I11 (its last part is `EntersDmaReady`), I14, and the level of 10_state.md R52. -/
structure Dmc.Inv (P : Params) (tv : TvMode) (cc : Int) (m : Dmc) : Prop where
  dac : m.out.dac ≤ P.dacMax
  address : 0x8000 ≤ m.dma.address.toNat
  remaining : m.dma.lengthCounter ≤ 4081
  regAddress : 0xC000 ≤ m.regAddress.toNat
  regLength_pos : 1 ≤ m.regLength
  regLength_le : m.regLength ≤ 4081
  period : m.frequency = dmcBitLength P tv m.rateIndex cc
  level : m.curSample = (m.out.dac : Int) * P.outputMul
  smooth : 0 ≤ m.linSample

/-- The rings: I12, I13, both arrays in their canonical form and inside their size. -/
structure Ring.Inv (P : Params) (r : Ring) : Prop where
  pos : r.pos < P.ringSize
  start : r.start < P.ringSize
  output_wf : SamplesWf r.output
  output_index : ∀ c ∈ r.output, c.1 < P.ringSize
  output_range : ∀ c ∈ r.output, P.sampleMin ≤ c.2 ∧ c.2 ≤ P.sampleMax
  history_wf : SamplesWf r.history
  history_index : ∀ c ∈ r.history, c.1 < P.historySize
  history_range : ∀ c ∈ r.history, P.sampleMin ≤ c.2 ∧ c.2 ≤ P.sampleMax

/-- The ClockModel: I15 (first half; the second is `ClockModel.OnSampleGrid`), I16, I17, I18. -/
structure ClockModel.Inv (P : Params) (cfg : Settings) (ctrl : FrameCtrl) (c : ClockModel) : Prop where
  fixed_pos : 0 < c.fixed
  rate_pos : 0 < c.rate
  fixed_eq : c.fixed = (deriveFor P cfg).fixed
  rate_eq : c.rate = (deriveFor P cfg).rate
  frame_whole : c.fixed ∣ c.frameCounter
  dmc_whole : c.fixed ∣ c.dmcClock
  irq_whole : ∀ x, c.frameIrqClock = some x → c.fixed ∣ x
  irq_finite : c.frameIrqClock.isSome = (!ctrl.mode5 && !ctrl.irqInhibit)
  rateCounter : 0 ≤ c.rateCounter
  frameCounter : 0 ≤ c.frameCounter
  dmcClock : 0 ≤ c.dmcClock
  ext : c.extCounter = none

/-- I15, second half: the next sample's time is a whole multiple of the sample length.  The invariant holds of a run's
part from a reset to the first `Configure` or `EndFrame`, so it is a predicate of its own beside `ClockModel.Inv`. -/
def ClockModel.OnSampleGrid (c : ClockModel) : Prop := c.rate ∣ c.rateCounter

/-- The lines after which I15's second half is still claimed (60_exceptions.md, section 3): all but `Configure`, whose
rescale rounds, and `EndFrame`, which lowers the time by a non-multiple. -/
def keepsSampleGrid : Line → Bool
  | .event (.configure _) | .event (.endFrame ..) => false
  | .bus .. | .cpuStore .. | .event (.reset _) | .event (.update _) | .event (.flush _) | .event (.dmcTick _)
  | .event (.frameIrqTick _) => true

/-- I11, last part, for an operation that leads from `s` to `t`: a fetch, which is what steals cycles, is a `DoDMA`
entered at `u`, with bytes remaining there. -/
def EntersDmaReady (P : Params) (s u t : State) : Prop :=
  t.dev.stolen ≠ s.dev.stolen → t = doDma P u ∧ 0 < u.dev.dmc.dma.lengthCounter

/-- `cfg` holds only values that `Configure` accepts (70_reset_and_hazards.md R400). -/
structure SettingsInv (P : Params) (c : Settings) : Prop where
  bits : c.bits = 8 ∨ c.bits = 16
  sampleRate : c.sampleRate ≠ 0
  effective : effectiveRate P c.sampleRate c.speed c.tv ≠ 0
  derived : (deriveFor P c).rate ≠ 0

/-- The invariants of 60_exceptions.md R382 on the device. -/
structure Dev.Inv (P : Params) (d : Dev) : Prop where
  cfg : SettingsInv P d.cfg
  clk : d.clk.Inv P d.cfg d.ctrl
  sq0 : d.sq0.Inv P d.clk.rate d.clk.fixed (d.cc P)
  sq1 : d.sq1.Inv P d.clk.rate d.clk.fixed (d.cc P)
  tri : d.tri.Inv P d.clk.rate d.clk.fixed (d.cc P)
  noise : d.noise.Inv P d.cfg.tv d.clk.rate d.clk.fixed (d.cc P)
  dmc : d.dmc.Inv P d.cfg.tv (d.cc P)
  ring : d.ring.Inv P

/-- The invariants on the whole state: the device's, and memory in its canonical form. -/
structure State.Inv (P : Params) (s : State) : Prop where
  dev : s.dev.Inv P
  mem : Memory.wf s.mem

/-- Duty P2 of the CPU collaborator: no Dmc clock is due at the operation's time (60_exceptions.md R383). -/
def State.onTime (s : State) : Prop := s.nowU < s.dev.clk.dmcClock

end Sys2Proof.Machine
end

