-- ==== Sys2Proof/WellFormed.lean ====
section
/-!
DEFINITION. Which programs a faithful CPU collaborator and host issue.  An instruction term needs no check: every
field of a format has exactly the width the format gives it, so an ill-formed instruction cannot be written, and
every data byte is a legal operand (30_encoding.md R103).  What can be ill-formed is a line, and a list of lines.
-/

namespace Sys2Proof

/-- What is wrong with a line. -/
inductive LineProblem where
  /-- The transaction is no operation of this device (30_encoding.md R104 (b) to (d)). -/
  | notAnOperation
  /-- Only `WR $4017` carries `odd` (20_memory.md R72, 30_encoding.md R121). -/
  | strayOdd
  /-- `EndFrame` needs `0 < frameCycles <= now` (60_exceptions.md R383 P3). -/
  | frameCycles
  /-- A line's time is before an earlier line's (60_exceptions.md R383 P1). -/
  | timeBack
deriving DecidableEq, Repr

/-- The checks on one line alone. -/
def Line.problem : Line → Option LineProblem
  | .bus _ odd w =>
    match decode w with
    | .reject _ => some .notAnOperation
    | .instr (.frameW _) => none
    | .instr _ => if odd then some .strayOdd else none
  | .event (.endFrame now frameCycles _ _) =>
    if 0 < frameCycles ∧ frameCycles ≤ now then none else some .frameCycles
  | .event _ => none
  | .cpuStore _ _ => none

/-- The time a line carries, if it carries one (30_encoding.md R121). -/
def Line.time : Line → Option Nat
  | .bus now _ _ => some now
  | .event (.update now) => some now
  | .event (.endFrame now _ _ _) => some now
  | .event (.dmcTick now) => some now
  | .event (.frameIrqTick now) => some now
  | .event (.reset _) | .event (.configure _) | .event (.flush _) | .cpuStore _ _ => none

/-- The clock after a line, from the clock `t` before it: a reset starts it again at zero, the end of a frame lowers
it by the frame's length (60_exceptions.md R383 P1, P8).  A `Configure` may reset the device (47 R291), so the check
asks nothing of the first time after one; the step tests the time itself. -/
def Line.clockAfter (t : Nat) : Line → Nat
  | .event (.reset _) => 0
  | .event (.configure _) => 0
  | .event (.endFrame now frameCycles _ _) => now - frameCycles
  | l => l.time.getD t

/-- The first problem of a list of lines that starts at time `t`. -/
def programProblem : Nat → List Line → Option LineProblem
  | _, [] => none
  | t, l :: rest =>
    match l.problem with
    | some p => some p
    | none => if l.time.getD t < t then some .timeBack else programProblem (l.clockAfter t) rest

/-- A list of lines with no problem. -/
def programWf (t : Nat) (p : List Line) : Bool := (programProblem t p).isNone

end Sys2Proof
end

