-- ==== Sys2Proof/Certificates/Slice0/Obligations.lean ====
section
/-!
DEFINITION. The statements for the provers, each from the numbered rules of spec/.  Where a statement rests on a choice of
the model or on an inference the spec marks as its own, its docstring says so.  `s.onTime` is duty P2 of
60_exceptions.md R383: no Dmc clock is due at the operation's time.  `s.caughtUp params` is the device after
`CatchUp(now)`; `UpdateLoops` says what that is.
-/

open Sys2Proof Sys2Proof.Machine

/-! ### Encoding -/

/-- Decoding gives back every encoded instruction (30_encoding.md, sections 1 to 3). -/
def Obligations.DecodeInvertsEncode : Prop := ∀ i : Instr, decode (encode i) = .instr i

/-- What a word decodes to has its direction and address, and a write has its data byte too: no bit of a write is lost;
the only read is `RD $4015`, whose data field is ignored (30_encoding.md R100, R101, R102). -/
def Obligations.EncodeInvertsDecode : Prop :=
  ∀ (t : TWord) (i : Instr), decode t = .instr i →
    (encode i).head = t.head ∧ (t.isWrite = true → encode i = t) ∧ (t.isWrite = false → i = .statusR)

/-- Words written out bit by bit from the formats of 30_encoding.md R100 to R118. -/
def Obligations.DecodedWords : Prop :=
  decode 0b1_0100000000000000_10111111 = .instr (.sq1R0 { duty := 2, loop := true, disable := true, rate := 15 }) ∧
  decode 0b1_0100000000000101_10001010 =
    .instr (.sq2R1 { enable := true, rate := 0, decrease := true, shift := 2 }) ∧
  decode 0b1_0100000000001000_11111111 = .instr (.triR0 { control := true, reload := 127 }) ∧
  decode 0b1_0100000000001110_10001111 = .instr (.noiR2 { mode := true, unused := 0, period := 15 }) ∧
  decode 0b1_0100000000010000_10001111 =
    .instr (.dmcR0 { irqEnable := true, loop := false, unused := 0, rate := 15 }) ∧
  decode 0b1_0100000000010101_00000001 =
    .instr (.statusW { unused := 0, dmc := false, noise := false, tri := false, square2 := false, square1 := true }) ∧
  decode 0b0_0100000000010101_00000000 = .instr .statusR ∧
  decode 0b1_0100000000010111_10000000 = .instr (.frameW { mode5 := true, irqInhibit := false, unused := 0 })

/-- Reserved and unmapped transactions, class by class (30_encoding.md R104): the two no-effect writes change nothing
but the outcome, and what is no operation of this device has no meaning.  That the step answers a refusal named after the
class of the transaction is the model's choice (log entry 5). -/
def Obligations.ReservedTransactions : Prop :=
  (∀ (d : Byte) (s : State), exec (.nop4009 d) s = .next { s with outcome := .ok } ∧
    exec (.nop400D d) s = .next { s with outcome := .ok }) ∧
  ∀ (s : State) (now : Nat) (odd : Bool) (t : TWord) (rest : List Line), s.todo = .bus now odd t :: rest →
    (t.isWrite = true → t.addr = 0x4009 → decode t = .instr (.nop4009 t.data)) ∧
    (t.isWrite = true → t.addr = 0x400D → decode t = .instr (.nop400D t.data)) ∧
    (t.addr = 0x4014 ∨ t.addr = 0x4016 → step s = .refused (.otherDevicePort t.addr)) ∧
    (t.isWrite = false → (0x4000 ≤ t.addr.toNat ∧ t.addr.toNat ≤ 0x4013) ∨ t.addr = 0x4017 →
      step s = .refused (.readOfWriteOnly t.addr)) ∧
    (t.addr.toNat < 0x4000 ∨ 0x4017 < t.addr.toNat → step s = .refused (.outsideWindow t.addr))

/-! ### The step -/

/-- A step whose next line is a transaction that decodes to `i` runs `i` at the line's time and parity; a word placed by
`withFetchWord` is run by the very next step.  How lines come to the machine is the model's choice (log entry 2). -/
def Obligations.StepRunsDecodedTransaction : Prop :=
  (∀ (s : State) (now : Nat) (odd : Bool) (t : TWord) (rest : List Line) (i : Instr),
    s.todo = .bus now odd t :: rest → decode t = .instr i → s.inp.now ≤ now →
      step s = exec i { s with todo := rest, inp := { now := now, odd := odd } }) ∧
  ∀ (s : State) (nbits w : Nat) (i : Instr), decodeTableWord nbits w = some i →
    step (s.withFetchWord nbits w) = exec i { s with inp := { now := s.inp.now, odd := false } }

/-- Without a line the machine waits, and a line whose time is before the last one has no step but the fault of its
name.  Both are the model's choices (log entries 2 and 3). -/
def Obligations.StepWaitsAndKeepsTime : Prop :=
  (∀ s : State, s.todo = [] → step s = .next s) ∧
  ∀ (s : State) (l : Line) (rest : List Line) (now : Nat), s.todo = l :: rest → l.time = some now → now < s.inp.now →
    (∀ n o t, l = .bus n o t → ∃ i, decode t = .instr i) → step s = .fault .timeWentBack

/-- The duties P2 and P3 (60_exceptions.md, section 4): an operation whose duty is broken has no next state.  That the
model answers a fault of its own name there is its choice (log entry 4). -/
def Obligations.ContractFaults : Prop :=
  (∀ s : State, ¬ s.onTime →
    (∀ i : Instr, (∀ d, i ≠ .nop4009 d) → (∀ d, i ≠ .nop400D d) → exec i s = .fault .dmcTickMissed) ∧
    execUpdate s = .fault .dmcTickMissed ∧
    ∀ frameCycles stream a, 0 < frameCycles → frameCycles ≤ s.inp.now →
      execEndFrame frameCycles stream a s = .fault .dmcTickMissed) ∧
  ∀ (s : State) (frameCycles : Nat) (stream : Option Nat) (a : LockAnswer),
    ¬(0 < frameCycles ∧ frameCycles ≤ s.inp.now) →
      execEndFrame frameCycles stream a s = .fault .frameCyclesOutOfRange

/-! ### Envelope and length counter -/

/-- `env.Clock()` (40_envelope_length.md R134): a pending restart, a count down, a drop of the level, and the corner
case that the level drops once every `rate + 1` clocks. -/
def Obligations.EnvelopeClock : Prop :=
  ∀ e : Envelope,
    let rate := e.reg.extractLsb' 0 4
    let withOutput := fun x : Envelope =>
      { x with output := (if e.reg.getLsbD 4 then rate.toNat else x.volume.toNat) * x.outputVolume }
    (e.reset = true → e.clock = withOutput { e with reset := false, volume := 15, count := rate }) ∧
    (e.reset = false → 0 < e.count.toNat → e.clock = { e with count := BitVec.ofNat 4 (e.count.toNat - 1) }) ∧
    (e.reset = false → e.count = 0 →
      e.clock = withOutput { e with
        count := rate
        volume := if 0 < e.volume.toNat ∨ e.reg.getLsbD 5 = true then BitVec.ofNat 4 ((e.volume.toNat + 15) % 16)
          else e.volume }) ∧
    (e.reset = false → e.count = rate →
      (∀ k, k ≤ rate.toNat → (Envelope.clock^[k] e).volume = e.volume) ∧
      (Envelope.clock^[rate.toNat + 1] e).volume =
        (if 0 < e.volume.toNat ∨ e.reg.getLsbD 5 = true then BitVec.ofNat 4 ((e.volume.toNat + 15) % 16)
          else e.volume) ∧
      (Envelope.clock^[rate.toNat + 1] e).count = rate)

/-- `len.Enable`, `len.Load` and `len.Clock` (40_envelope_length.md R136, R137, R138), the durations written out. -/
def Obligations.LengthCounterRules : Prop :=
  ∀ (l : LengthCounter) (e halt : Bool) (idx : BitVec 5),
    l.enable e = { enabled := e, count := if e = true then l.count else 0 } ∧
    l.load params idx =
      { enabled := l.enabled
        count :=
          if l.enabled = true then
            ([10, 254, 20, 2, 40, 4, 80, 6, 160, 8, 60, 10, 14, 12, 26, 14,
              12, 16, 24, 18, 48, 20, 96, 22, 192, 24, 72, 26, 16, 28, 32, 30] : List Nat).getD idx.toNat 0
          else l.count } ∧
    l.clock halt = { enabled := l.enabled, count := if halt = false then l.count - 1 else l.count } ∧
    (l.expires halt = true ↔ halt = false ∧ 0 < l.count ∧ (l.clock halt).count = 0)

/-! ### Square -/

/-- `CanOutput` and `UpdateFrequency` of a Square (41_square.md R153, R154): the validity window on the upward target,
and a period outside it leaves `waveLength` and the step length alone. -/
def Obligations.SquareUpdateFrequency : Prop :=
  ∀ (cc : Int) (q : Square),
    let w := q.waveLength.toNat
    let target := w + (if q.sweep.increase = true then w / 2 ^ q.sweep.shift.toNat else 0)
    let valid : Bool := decide (8 ≤ w ∧ target ≤ 0x7FF)
    q.updateFrequency params cc = { q with
      validFrequency := valid
      osc := { q.osc with
        frequency := if valid = true then ((w : Int) + 1) * 2 * cc else q.osc.frequency
        active := decide (0 < q.len.count) && decide (0 < q.env.output) && valid } }

/-- `ClockSweep` of a Square with its targets (41_square.md R152, R172): the divider, the change of the period, which is
one larger downward on Square 1, and the reload.  The premise is what R161 gives: a sweep runs only with a shift. -/
def Obligations.SquareClockSweep : Prop :=
  ∀ (i : SquareId) (cc : Int) (q : Square), (q.sweep.rate ≠ 0 → q.sweep.shift ≠ 0) →
    let w := q.waveLength.toNat
    let shifted := w / 2 ^ q.sweep.shift.toNat
    let acts := q.sweep.rate ≠ 0 ∧ q.sweep.count = 1
    let moves := acts ∧ 8 ≤ w ∧ (q.sweep.increase = false ∨ w + shifted ≤ 0x7FF)
    let target : Int := if q.sweep.increase = true then w + shifted else w - shifted - (if i = .one then 1 else 0)
    let r := q.clockSweep params i cc
    (r.waveLength.toNat : Int) = (if moves then target else w) ∧
    (moves → q.sweep.increase = false → 3 ≤ r.waveLength.toNat) ∧
    r = { (if moves then Square.updateFrequency params cc { q with waveLength := r.waveLength } else q) with
      sweep := { q.sweep with
        reload := false
        count :=
          if q.sweep.reload = true then q.sweep.rate
          else if acts then q.sweep.rate
          else if q.sweep.rate ≠ 0 then q.sweep.count - 1
          else q.sweep.count } }

/-- `GetSample` of a Square (41_square.md R156, R157): inside one step the level itself, across steps the rounded mean
weighted by time, inactive the decay with the phase running on. -/
def Obligations.SquareGetSample : Prop :=
  ∀ q : Square, 0 ≤ q.osc.timer → 0 < q.osc.frequency → 0 < q.osc.rate →
    let level := fun p : BitVec 3 => (((params.dutyTable.getD q.duty.toNat []).getD p.toNat 0 : Nat) : Int)
    let rate := q.osc.rate
    let timer := q.osc.timer
    let frequency := q.osc.frequency
    let volume : Int := q.env.output
    let n := ((rate - timer + frequency - 1) / frequency).toNat
    let weight := fun k : Nat => min (rate - timer - k * frequency) frequency
    let amp : Int :=
      if q.osc.active = true then
        if rate ≤ timer then volume * level q.step
        else ((timer * level q.step
            + ∑ k ∈ Finset.range n, weight k * level (q.step + BitVec.ofNat 3 (k + 1))) * volume + rate / 2) / rate
      else if q.osc.amp < 63 then 0 else q.osc.amp - 63
    q.getSample params =
      (amp, { q with
        step := if rate ≤ timer then q.step else q.step + BitVec.ofNat 3 n
        osc := { q.osc with
          amp := amp
          timer := if rate ≤ timer then timer - rate else timer - rate + n * frequency } }) ∧
    (timer < rate → timer + ∑ k ∈ Finset.range n, weight k = rate ∧
      0 ≤ timer - rate + n * frequency ∧ timer - rate + n * frequency < frequency)

/-- `Decay()` (41_square.md R157): one call, and zero after `ceil(amp / OUTPUT_DECAY)` calls, at most 61 for a Square's
largest amplitude. -/
def Obligations.DecayReachesZero : Prop :=
  (∀ amp : Int, decayed params amp = if amp < 63 then 0 else amp - 63) ∧
  ∀ amp : Int, 0 ≤ amp →
    (decayed params)^[((amp + 62) / 63).toNat] amp = 0 ∧ (amp ≤ 3840 → ((amp + 62) / 63).toNat ≤ 61) ∧
    decayed params 0 = 0

/-! ### Triangle -/

/-- `GetSample` of the Triangle (42_triangle.md R187): as a Square's with the level of the step, and an inactive
Triangle holds its step and its timer. -/
def Obligations.TriangleGetSample : Prop :=
  ∀ r : Triangle, 0 ≤ r.osc.timer → 0 < r.osc.frequency → 0 < r.osc.rate →
    let level := fun p : BitVec 5 => ((params.triangleTable.getD p.toNat 0 : Nat) : Int)
    let rate := r.osc.rate
    let timer := r.osc.timer
    let frequency := r.osc.frequency
    let n := ((rate - timer + frequency - 1) / frequency).toNat
    let weight := fun k : Nat => min (rate - timer - k * frequency) frequency
    let amp : Int :=
      if r.osc.active = true then
        if rate ≤ timer then level r.step * (256 * 3)
        else ((timer * level r.step
            + ∑ k ∈ Finset.range n, weight k * level (r.step + BitVec.ofNat 5 (k + 1))) * 256 + rate / 2) / rate * 3
      else if r.osc.amp < 63 then 0 else r.osc.amp - 63
    r.getSample params =
      (amp, { r with
        step := if r.osc.active = true ∧ timer < rate then r.step + BitVec.ofNat 5 n else r.step
        osc := { r.osc with
          amp := amp
          timer :=
            if r.osc.active = true then (if rate ≤ timer then timer - rate else timer - rate + n * frequency)
            else timer } })

/-! ### Noise -/

/-- One step of the LFSR as a number (its pseudocode in 43_noise.md, section 1), and `GetSample` of the Noise channel
(43_noise.md R206): the rounded mean of the output bit weighted by time, and the LFSR runs whether or not the channel is
active. -/
def Obligations.NoiseGetSample : Prop :=
  (∀ (tap : Tap) (bits : BitVec 15),
    let position := if tap = .short then 8 else 13
    (lfsrStep tap bits).toNat =
      bits.toNat * 2 % 0x8000 + (if bits.getLsbD 14 = bits.getLsbD position then 0 else 1)) ∧
  ∀ c : Noise, 0 ≤ c.osc.timer → 0 < c.osc.frequency → 0 < c.osc.rate →
    let on := fun b : BitVec 15 => if b.getLsbD 14 = true then (0 : Int) else 1
    let rate := c.osc.rate
    let timer := c.osc.timer
    let frequency := c.osc.frequency
    let volume : Int := c.env.output
    let n := if rate ≤ timer then 0 else ((rate - timer + frequency - 1) / frequency).toNat
    let weight := fun k : Nat => min (rate - timer - k * frequency) frequency
    let amp : Int :=
      if c.osc.active = true then
        if rate ≤ timer then volume * on c.bits * 2
        else ((timer * on c.bits
            + ∑ k ∈ Finset.range n, weight k * on ((lfsrStep c.shifter)^[k + 1] c.bits)) * volume + rate / 2) / rate * 2
      else if c.osc.amp < 63 then 0 else c.osc.amp - 63
    c.getSample params =
      (amp, { c with
        bits := (lfsrStep c.shifter)^[n] c.bits
        osc := { c.osc with amp := amp, timer := timer - rate + n * frequency } })

/-! ### Register writes of the Squares -/

/-- `WR $4000` and `WR $4004` (41_square.md R160, R164). -/
def Obligations.SquareRegister0 : Prop :=
  ∀ (f : FEnv) (s : State), s.onTime →
    let c := s.caughtUp params
    let written := fun q : Square =>
      let output := (if f.disable = true then f.rate.toNat else q.env.volume.toNat) * q.env.outputVolume
      { q with
        env := { q.env with reg := f.toByte, output := output }
        duty := f.duty
        osc := { q.osc with
          active := decide (0 < q.len.count) && decide (0 < output) && q.validFrequency } }
    exec (.sq1R0 f) s = .next (s.done { c with sq0 := written c.sq0 }) ∧
    exec (.sq2R0 f) s = .next (s.done { c with sq1 := written c.sq1 })

/-- `WR $4001` and `WR $4005` (41_square.md R161, R165). -/
def Obligations.SquareRegister1 : Prop :=
  ∀ (f : FSweep) (s : State), s.onTime →
    let c := s.caughtUp params
    let written := fun q : Square =>
      Square.updateFrequency params (c.cc params)
        { q with
          sweep :=
            { increase := !f.decrease
              shift := f.shift
              rate := if f.enable = true ∧ f.shift ≠ 0 then f.rate.toNat + 1 else 0
              reload := if f.enable = true ∧ f.shift ≠ 0 then true else q.sweep.reload
              count := q.sweep.count } }
    exec (.sq1R1 f) s = .next (s.done { c with sq0 := written c.sq0 }) ∧
    exec (.sq2R1 f) s = .next (s.done { c with sq1 := written c.sq1 })

/-- `WR $4002` and `WR $4006` (41_square.md R162, R166): the low eight bits of the period value. -/
def Obligations.SquareRegister2 : Prop :=
  ∀ (f : FPlo) (s : State), s.onTime →
    let c := s.caughtUp params
    let written := fun q : Square =>
      Square.updateFrequency params (c.cc params)
        { q with waveLength := BitVec.ofNat 11 (q.waveLength.toNat / 256 * 256 + f.low.toNat) }
    exec (.sq1R2 f) s = .next (s.done { c with sq0 := written c.sq0 }) ∧
    exec (.sq2R2 f) s = .next (s.done { c with sq1 := written c.sq1 })

/-- `WR $4003` and `WR $4007` (41_square.md R163, R167): the high three bits, the duty position, the envelope's restart
and the length load, which a disabled counter ignores. -/
def Obligations.SquareRegister3 : Prop :=
  ∀ (f : FPhi) (s : State), s.onTime →
    let c := s.caughtUp params
    let written := fun q : Square =>
      Square.updateFrequency params (c.cc params)
        { q with
          step := 0
          env := { q.env with reset := true }
          len := { q.len with
            count := if q.len.enabled = true then params.lengthTable.getD f.index.toNat 0 else q.len.count }
          waveLength := BitVec.ofNat 11 (f.high.toNat * 256 + q.waveLength.toNat % 256) }
    exec (.sq1R3 f) s = .next (s.done { c with sq0 := written c.sq0 }) ∧
    exec (.sq2R3 f) s = .next (s.done { c with sq1 := written c.sq1 })

/-! ### Register writes of the Triangle -/

/-- `WR $4008` (42_triangle.md R190). -/
def Obligations.TriangleRegister0 : Prop :=
  ∀ (f : FLin) (s : State), s.onTime →
    let c := s.caughtUp params
    exec (.triR0 f) s = .next (s.done { c with tri := { c.tri with linearCtrl := f.toByte } }) ∧
    f.toByte.getLsbD 7 = f.control ∧ f.toByte.extractLsb' 0 7 = f.reload

/-- `WR $400A` (42_triangle.md R191). -/
def Obligations.TriangleRegister2 : Prop :=
  ∀ (f : FPlo) (s : State), s.onTime →
    let c := s.caughtUp params
    let w := c.tri.waveLength.toNat / 256 * 256 + f.low.toNat
    exec (.triR2 f) s = .next (s.done { c with tri := { c.tri with
      waveLength := BitVec.ofNat 11 w
      osc := { c.tri.osc with
        frequency := ((w : Int) + 1) * c.cc params
        active := decide (0 < c.tri.len.count) && decide (0 < c.tri.linearCounter.toNat) && decide (3 ≤ w) } } })

/-- `WR $400B` (42_triangle.md R192). -/
def Obligations.TriangleRegister3 : Prop :=
  ∀ (f : FPhi) (s : State), s.onTime →
    let c := s.caughtUp params
    let w := f.high.toNat * 256 + c.tri.waveLength.toNat % 256
    let count := if c.tri.len.enabled = true then params.lengthTable.getD f.index.toNat 0 else c.tri.len.count
    exec (.triR3 f) s = .next (s.done { c with tri := { c.tri with
      waveLength := BitVec.ofNat 11 w
      status := .reload
      len := { c.tri.len with count := count }
      osc := { c.tri.osc with
        frequency := ((w : Int) + 1) * c.cc params
        active := decide (0 < count) && decide (0 < c.tri.linearCounter.toNat) && decide (3 ≤ w) } } })

/-! ### Register writes of the Noise channel -/

/-- `WR $400C` (43_noise.md R210): the whole byte is stored, its duty bits have no effect. -/
def Obligations.NoiseRegister0 : Prop :=
  ∀ (f : FEnv) (s : State), s.onTime →
    let c := s.caughtUp params
    let output := (if f.disable = true then f.rate.toNat else c.noise.env.volume.toNat) * c.noise.env.outputVolume
    exec (.noiR0 f) s = .next (s.done { c with noise := { c.noise with
      env := { c.noise.env with reg := f.toByte, output := output }
      osc := { c.noise.osc with active := decide (0 < c.noise.len.count) && decide (0 < output) } } })

/-- `WR $400E` (43_noise.md R211). -/
def Obligations.NoiseRegister2 : Prop :=
  ∀ (f : FNper) (s : State), s.onTime →
    let c := s.caughtUp params
    exec (.noiR2 f) s = .next (s.done { c with noise := { c.noise with
      periodIndex := f.period
      osc := { c.noise.osc with
        frequency := (((params.noisePeriod c.cfg.tv).getD f.period.toNat 0 : Nat) : Int) * c.cc params }
      shifter := if f.mode = true then .short else .long } }) ∧
    (Tap.position .short = 8 ∧ Tap.position .long = 13)

/-- `WR $400F` (43_noise.md R212): the period bits have no effect. -/
def Obligations.NoiseRegister3 : Prop :=
  ∀ (f : FPhi) (s : State), s.onTime →
    let c := s.caughtUp params
    let count := if c.noise.len.enabled = true then params.lengthTable.getD f.index.toNat 0 else c.noise.len.count
    exec (.noiR3 f) s = .next (s.done { c with noise := { c.noise with
      len := { c.noise.len with count := count }
      env := { c.noise.env with reset := true }
      osc := { c.noise.osc with active := decide (0 < count) && decide (0 < c.noise.env.output) } } })

/-! ### Register writes of the Dmc -/

/-- `WR $4010` (44_dmc.md R224): the scheduled clock stands, and clearing the enable clears a pending interrupt. -/
def Obligations.DmcRegister0 : Prop :=
  ∀ (f : FDctl) (s : State), s.onTime →
    let c := s.caughtUp params
    exec (.dmcR0 f) s = .next (s.done { c with
      dmc := { c.dmc with
        irqEnable := f.irqEnable
        loop := f.loop
        rateIndex := f.rate
        frequency := (((params.dmcPeriod c.cfg.tv).getD f.rate.toNat 0 : Nat) : Int) * c.cc params }
      irq := { c.irq with dmc := c.irq.dmc && f.irqEnable } })

/-- `WR $4011` (44_dmc.md R225): the level and both amplitudes at once. -/
def Obligations.DmcRegister1 : Prop :=
  ∀ (f : FDdac) (s : State), s.onTime →
    let c := s.caughtUp params
    exec (.dmcR1 f) s = .next (s.done { c with dmc := { c.dmc with
      out := { c.dmc.out with dac := f.level.toNat }
      curSample := (f.level.toNat : Int) * 256
      linSample := (f.level.toNat : Int) * 256 } })

/-- `WR $4012` and `WR $4013` (44_dmc.md R226, R227): the start address `0xC000 + d * 64` and the length `d * 16 + 1`,
used at the next restart or loop. -/
def Obligations.DmcRegisters2And3 : Prop :=
  ∀ (f : FByte) (s : State), s.onTime →
    let c := s.caughtUp params
    exec (.dmcR2 f) s = .next (s.done { c with dmc := { c.dmc with
      regAddress := BitVec.ofNat 16 (0xC000 + f.value.toNat * 64) } }) ∧
    exec (.dmcR3 f) s = .next (s.done { c with dmc := { c.dmc with regLength := f.value.toNat * 16 + 1 } })

/-! ### Status and frame control -/

/-- `WR $4015` with `dmc.SetEnabled` (46_status.md R281, 44_dmc.md R228): five enables at once, the Dmc interrupt
cleared, and the restart of a Dmc whose count is zero, which fetches at once when nothing is buffered. -/
def Obligations.StatusWrite : Prop :=
  ∀ (f : FStw) (s : State), s.onTime →
    let c := s.caughtUp params
    let square := fun (e : Bool) (q : Square) =>
      let count := if e = true then q.len.count else 0
      { q with
        len := { enabled := e, count := count }
        osc := { q.osc with
          active := decide (0 < count) && decide (0 < q.env.output) && q.validFrequency } }
    let triCount := if f.tri = true then c.tri.len.count else 0
    let noiseCount := if f.noise = true then c.noise.len.count else 0
    let enabled : Dev := { c with
      sq0 := square f.square1 c.sq0
      sq1 := square f.square2 c.sq1
      tri := { c.tri with
        len := { enabled := f.tri, count := triCount }
        osc := { c.tri.osc with
          active := decide (0 < triCount) && decide (0 < c.tri.linearCounter.toNat) &&
            decide (3 ≤ c.tri.waveLength.toNat) } }
      noise := { c.noise with
        len := { enabled := f.noise, count := noiseCount }
        osc := { c.noise.osc with active := decide (0 < noiseCount) && decide (0 < c.noise.env.output) } }
      irq := { c.irq with dmc := false } }
    let restarted : Dev := { enabled with dmc := { c.dmc with dma := { c.dmc.dma with
      lengthCounter := c.dmc.regLength, address := c.dmc.regAddress } } }
    exec (.statusW f) s = .next
      (if f.dmc = false then
        s.done { enabled with dmc := { c.dmc with dma := { c.dmc.dma with lengthCounter := 0 } } }
      else if c.dmc.dma.lengthCounter ≠ 0 then s.done enabled
      else if c.dmc.dma.buffered = true then s.done restarted
      else doDma params (s.done restarted))

/-- `RD $4015` (46_status.md R283): the frame IRQ timer, then the catch-up; the byte has the frame flag as it was before
the clear, and the read leaves the Dmc interrupt alone. -/
def Obligations.StatusRead : Prop :=
  ∀ s : State, s.onTime →
    let c := update params s.nowU (frameIrqTick params s.nowU s.dev)
    ∃ v : Byte, exec .statusR s =
        .next { s with dev := { c with irq := { c.irq with frame := false } }, outcome := .okValue v } ∧
      v.getLsbD 7 = c.irq.dmc ∧ v.getLsbD 6 = c.irq.frame ∧ v.getLsbD 5 = false ∧
      v.getLsbD 4 = decide (0 < c.dmc.dma.lengthCounter) ∧ v.getLsbD 3 = decide (0 < c.noise.len.count) ∧
      v.getLsbD 2 = decide (0 < c.tri.len.count) ∧ v.getLsbD 1 = decide (0 < c.sq1.len.count) ∧
      v.getLsbD 0 = decide (0 < c.sq0.len.count)

/-- `WR $4017` (45_frame_sequencer.md R258): the catch-up, one CPU cycle later on an odd cycle, the restart of both
timers, the latch, the clear by the inhibit bit only, and the immediate odd clock of the 5-step mode. -/
def Obligations.FrameControlWrite : Prop :=
  ∀ (f : FFrm) (s : State), s.onTime →
    let tv := s.dev.cfg.tv
    let fixed := s.dev.clk.fixed
    let cpu := params.cpuDiv tv
    let written : Nat := s.inp.now + (if s.inp.odd = true then cpu else 0)
    let c := frameIrqTick params (written * fixed) (update params (written * fixed) s.dev)
    let next : Nat := written + 1 * cpu
    let r : Dev := { c with
      clk := { c.clk with
        frameCounter := ((next + (params.frameStep tv f.mode5).getD 0 0 * cpu : Nat) : Int) * fixed
        frameDivider := 0
        frameIrqRepeat := 0
        frameIrqClock :=
          if f.mode5 = true ∨ f.irqInhibit = true then none
          else some (((next + (params.frameIrqClocks tv).getD 0 0 * cpu : Nat) : Int) * fixed) }
      ctrl := { mode5 := f.mode5, irqInhibit := f.irqInhibit }
      irq := { c.irq with frame := c.irq.frame && !f.irqInhibit } }
    exec (.frameW f) s = .next (s.done (if f.mode5 = true then clockOscillators params true r else r))

/-! ### The Dmc's units -/

/-- `DoDMA` with `EndOfSample` (44_dmc.md R229, R230): the stolen cycles, the byte at the fetch address, the address that
wraps from `0xFFFF` to `0x8000`, and at the last byte the reload or the interrupt.  The premises are the rule's
precondition and invariant I11.  Nothing is said of a byte the memory does not list. -/
def Obligations.DmcFetch : Prop :=
  ∀ s : State, 0 < s.dev.dmc.dma.lengthCounter → 0x8000 ≤ s.dev.dmc.dma.address.toNat →
    let m := s.dev.dmc
    let last := m.dma.lengthCounter = 1
    ∃ b : Byte, (∀ x, Memory.read s.mem m.dma.address = some x → b = x) ∧
      doDma params s = { s with
        peeks := (doDma params s).peeks
        dev := { s.dev with
          stolen := s.dev.stolen + 4
          irq := { s.dev.irq with
            dmc := if last ∧ m.loop = false ∧ m.irqEnable = true then true else s.dev.irq.dmc }
          dmc := { m with dma :=
            { buffer := b
              buffered := true
              address :=
                if last ∧ m.loop = true then m.regAddress
                else if m.dma.address = 0xFFFF then 0x8000
                else m.dma.address + 1
              lengthCounter := if last ∧ m.loop = true then m.regLength else m.dma.lengthCounter - 1 } } } }

/-- `ClockDAC` (44_dmc.md R232): bit 0 first, two up or two down, a step out of 0 to 127 is dropped. -/
def Obligations.DmcDeltaStep : Prop :=
  ∀ m : Dmc,
    let next : Int := (m.out.dac : Int) + (if m.out.buffer.getLsbD 0 = true then 2 else -2)
    (dacMoves params m = true ↔ m.active = true ∧ 0 ≤ next ∧ next ≤ 0x7F) ∧
    (((clockDac params m).out.dac : Int) = if dacMoves params m = true then next else m.out.dac) ∧
    (m.out.dac ≤ 0x7F → (clockDac params m).out.dac ≤ 0x7F) ∧
    clockDac params m = { m with out := { m.out with
      dac := (clockDac params m).out.dac
      buffer := if m.active = true then BitVec.ofNat 8 (m.out.buffer.toNat / 2) else m.out.buffer } }

/-- `ClockOutputUnit` (44_dmc.md R233): the bit counter and the hand-over of the prefetched byte. -/
def Obligations.DmcOutputUnit : Prop :=
  ∀ s : State,
    let m := s.dev.dmc
    let taken : Dmc := { m with
      active := true
      dma := { m.dma with buffered := false }
      out := { m.out with shifter := 7, buffer := m.dma.buffer } }
    clockOutputUnit params s =
      if m.out.shifter ≠ 0 then
        { s with dev := { s.dev with dmc := { m with out := { m.out with
          shifter := BitVec.ofNat 3 (m.out.shifter.toNat - 1) } } } }
      else if m.dma.buffered = true then
        if m.dma.lengthCounter ≠ 0 then doDma params { s with dev := { s.dev with dmc := taken } }
        else { s with dev := { s.dev with dmc := taken } }
      else { s with dev := { s.dev with dmc := { m with active := false, out := { m.out with shifter := 7 } } } }

/-- One Dmc clock with its level update (44_dmc.md R234, R235): when the level moves, every sample before the clock's
time is made first, from the device at the old level; then the level changes, the next clock is scheduled and the
output unit is clocked. -/
def Obligations.DmcClockOrder : Prop :=
  ∀ s : State,
    let d := s.dev
    let e := if dacMoves params d.dmc = true then update params d.clk.dmcClock d else d
    let o := (clockDac params d.dmc).out
    dmcClock params s = clockOutputUnit params { s with dev := { e with
      clk := { e.clk with dmcClock := d.clk.dmcClock + d.dmc.frequency }
      dmc := { e.dmc with
        out := o
        curSample := if dacMoves params d.dmc = true then (o.dac : Int) * 256 else d.dmc.curSample } } } ∧
    (dmcClock params s).dev.ring = e.ring ∧ (dmcClock params s).dev.dc = e.dc ∧
    (dmcClock params s).dev.clk.rateCounter = e.clk.rateCounter

/-- `DmcTick` (44_dmc.md R236): Dmc clocks in order, each due when it is performed, until none is due. -/
def Obligations.DmcTickDrains : Prop :=
  ∀ s : State, s.Inv params →
    ∃ n : Nat, execDmcTick s = .next { (dmcClock params)^[n] s with outcome := .ok } ∧
      (∀ k < n, ((dmcClock params)^[k] s).dev.clk.dmcClock ≤ s.nowU) ∧
      s.nowU < ((dmcClock params)^[n] s).dev.clk.dmcClock

/-! ### The frame sequencer -/

/-- The channels' clock operations (41_square.md R170, R171; 42_triangle.md R184, R185; 43_noise.md R213, R214). -/
def Obligations.ChannelClocks : Prop :=
  (∀ q : Square,
    q.clockEnvelope = { q with
      env := q.env.clock
      osc := { q.osc with
        active := decide (0 < q.len.count) && decide (0 < q.env.clock.output) && q.validFrequency } } ∧
    q.clockLength = { q with
      len := q.len.clock (q.env.reg.getLsbD 5)
      osc := { q.osc with
        active := decide (0 < (q.len.clock (q.env.reg.getLsbD 5)).count) && decide (0 < q.env.output) &&
          q.validFrequency } }) ∧
  (∀ r : Triangle,
    let counter :=
      match r.status with
      | .counting => BitVec.ofNat 7 (r.linearCounter.toNat - 1)
      | .reload => r.linearCtrl.extractLsb' 0 7
    r.clockLinear params = { r with
      linearCounter := counter
      status := if r.status = .reload ∧ r.linearCtrl.getLsbD 7 = true then .reload else .counting
      osc := { r.osc with
        active := decide (0 < r.len.count) && decide (0 < counter.toNat) && decide (3 ≤ r.waveLength.toNat) } } ∧
    r.clockLength params = { r with
      len := r.len.clock (r.linearCtrl.getLsbD 7)
      osc := { r.osc with
        active := decide (0 < (r.len.clock (r.linearCtrl.getLsbD 7)).count) && decide (0 < r.linearCounter.toNat) &&
          decide (3 ≤ r.waveLength.toNat) } }) ∧
  ∀ c : Noise,
    c.clockEnvelope = { c with
      env := c.env.clock
      osc := { c.osc with active := decide (0 < c.len.count) && decide (0 < c.env.clock.output) } } ∧
    c.clockLength = { c with
      len := c.len.clock (c.env.reg.getLsbD 5)
      osc := { c.osc with
        active := decide (0 < (c.len.clock (c.env.reg.getLsbD 5)).count) && decide (0 < c.env.output) } }

/-- `ClockOscillators` for either value of `odd`, whatever the divider holds, and `ClockFrameSequencer`, which calls it
with the divider's parity (45_frame_sequencer.md R253, R254): the units clocked, the divider modulo 4, and the gap looked
up with the new divider. -/
def Obligations.SequencerStep : Prop :=
  ∀ d : Dev,
    let k := (d.clk.frameDivider.toNat + 1) % 4
    let cc := (params.cpuDiv d.cfg.tv : Int) * d.clk.fixed
    let clocked := fun odd : Bool => ({ d with
      sq0 := if odd = true then d.sq0.clockEnvelope.clockLength.clockSweep params .one cc else d.sq0.clockEnvelope
      sq1 := if odd = true then d.sq1.clockEnvelope.clockLength.clockSweep params .two cc else d.sq1.clockEnvelope
      tri := if odd = true then (d.tri.clockLinear params).clockLength params else d.tri.clockLinear params
      noise := if odd = true then d.noise.clockEnvelope.clockLength else d.noise.clockEnvelope } : Dev)
    (∀ odd : Bool, clockOscillators params odd d = clocked odd) ∧
    clockFrameSequencer params d = { clocked (decide (d.clk.frameDivider.toNat % 2 = 1)) with
      clk := { d.clk with
        frameDivider := BitVec.ofNat 2 k
        frameCounter :=
          d.clk.frameCounter + (((params.frameStep d.cfg.tv d.ctrl.mode5).getD k 0 : Nat) : Int) * cc } }

/-- `FrameIrqTick` (45_frame_sequencer.md R263): nothing while the timer is off or not yet due; else the flag, and the
least number of points, with gaps 1, 1 and `P - 2` CPU cycles in turn, that brings the timer past the time. -/
def Obligations.FrameIrqTickPoints : Prop :=
  ∀ s : State, 0 < s.dev.clk.fixed →
    let d := s.dev
    let cc := (params.cpuDiv d.cfg.tv : Int) * d.clk.fixed
    let next := fun p : Int × Fin 3 =>
      (p.1 + (((params.frameIrqClocks d.cfg.tv).getD (1 + p.2.val) 0 : Nat) : Int) * cc, p.2 + 1)
    ∃ e : Dev, execFrameIrqTick s = .next (s.done e) ∧
      (match d.clk.frameIrqClock with
      | none => e = d
      | some c =>
        if s.nowU < c then e = d
        else ∃ n : Nat, 0 < n ∧
          (∀ k, k < n → (next^[k] (c, d.clk.frameIrqRepeat)).1 ≤ s.nowU) ∧
          s.nowU < (next^[n] (c, d.clk.frameIrqRepeat)).1 ∧
          e = { d with
            irq := { d.irq with frame := true }
            clk := { d.clk with
              frameIrqClock := some (next^[n] (c, d.clk.frameIrqRepeat)).1
              frameIrqRepeat := (next^[n] (c, d.clk.frameIrqRepeat)).2 } })

/-! ### The mixer -/

/-- `MixSample` with `DcBlock` and the clamp (48_mixer.md R312, R314, R315): the two groups, the filter, and a sample that
is in range whatever the channels and the filter hold. -/
def Obligations.MixSample : Prop :=
  ∀ d : Dev,
    let a := (d.sq0.getSample params).1 + (d.sq1.getSample params).1
    let b := (d.tri.getSample params).1 + (d.noise.getSample params).1 + (d.dmc.getSample params).1 + 0
    let p : Int := if a = 0 then 0 else 4225499136 / (1872691200 / a + 90000)
    let q : Int := if b = 0 then 0 else 4022353920 / (3114112000 / b + 50000)
    let acc := d.dc.acc - d.dc.prev + (p + q) * 2 ^ 15 - d.dc.next * 3
    mixSample params d =
      (max (-32767) (min 32767 (acc / 2 ^ 15)),
        { d with
          sq0 := (d.sq0.getSample params).2
          sq1 := (d.sq1.getSample params).2
          tri := (d.tri.getSample params).2
          noise := (d.noise.getSample params).2
          dmc := (d.dmc.getSample params).2
          dc := { acc := acc, prev := (p + q) * 2 ^ 15, next := acc / 2 ^ 15 } }) ∧
    -32767 ≤ (mixSample params d).1 ∧ (mixSample params d).1 ≤ 32767

/-- `dmc.GetSample` (44_dmc.md R237): `linSample` takes one bounded step toward `curSample`, never past it; the distance
shrinks by the bound or to 0. -/
def Obligations.DmcSmoothing : Prop :=
  ∀ m : Dmc,
    let r := m.getSample params
    r.2 = { m with linSample := r.1 } ∧
    (r.1 - m.curSample).natAbs = (m.linSample - m.curSample).natAbs - 2048 ∧
    (m.linSample ≤ m.curSample → m.linSample ≤ r.1 ∧ r.1 ≤ m.curSample) ∧
    (m.curSample ≤ m.linSample → m.curSample ≤ r.1 ∧ r.1 ≤ m.linSample) ∧
    (r.1 - m.linSample).natAbs ≤ 2048

/-- The two group functions do not decrease, and their values at the sums of the spec's table (48_mixer.md, section 1;
the spec marks the table as derived). -/
def Obligations.GroupFunctions : Prop :=
  (∀ x y : Int, 0 ≤ x → x ≤ y → squareGroup params x ≤ squareGroup params y ∧
    tndGroup params x ≤ tndGroup params y ∧ 0 ≤ squareGroup params x ∧ 0 ≤ tndGroup params x) ∧
  ([0, 256, 3840, 7680].map (squareGroup params) = [0, 570, 7314, 12657]) ∧
  ([0, 512, 768, 7680, 11520, 16384, 32512, 51712].map (tndGroup params) =
    [0, 655, 979, 8830, 12557, 16754, 27591, 36493])

/-! ### Synthesis -/

/-- `Update(t)` and the host event `Update` (49_output_and_synthesis.md R332, R333): on the `SYNTH` path samples at every
sample time before `t`, each followed by the sequencer steps due at its time; on the `ADVANCE_ONLY` path only the
sample time moves; then the sequencer steps before `t`.  In a sound state the external channel is at `INF`. -/
def Obligations.UpdateLoops : Prop :=
  (∀ s : State, s.onTime → execUpdate s = .next (s.done (update params s.nowU s.dev))) ∧
  (∀ d : Dev, d.Inv params →
    let mixed : Dev := { (mixSample params d).2 with ring := d.ring.push params (mixSample params d).1 }
    ∃ j : Nat,
      (∀ k < j, ((clockFrameSequencer params)^[k] mixed).clk.frameCounter ≤ d.clk.rateCounter) ∧
      d.clk.rateCounter < ((clockFrameSequencer params)^[j] mixed).clk.frameCounter ∧
      hostSample params d = { (clockFrameSequencer params)^[j] mixed with
        clk := { ((clockFrameSequencer params)^[j] mixed).clk with
          rateCounter := d.clk.rateCounter + d.clk.rate } }) ∧
  ∀ (d : Dev) (t : Int), d.Inv params →
    ∃ (e : Dev) (j : Nat),
      update params t d = (clockFrameSequencer params)^[j] e ∧
      (∀ k < j, ((clockFrameSequencer params)^[k] e).clk.frameCounter < t) ∧
      t ≤ ((clockFrameSequencer params)^[j] e).clk.frameCounter ∧
      (match d.cfg.synth with
      | .synth => ∃ n : Nat, e = (hostSample params)^[n] d ∧
          (∀ k < n, ((hostSample params)^[k] d).clk.rateCounter < t) ∧
          t ≤ ((hostSample params)^[n] d).clk.rateCounter
      | .advanceOnly => e = { d with clk := { d.clk with rateCounter := max d.clk.rateCounter t } })

/-- The number of samples a call makes: `ceil((t - c) / rate)` of them, and nothing at all when nothing is due
(49_output_and_synthesis.md, section 1; the spec marks the count as derived). -/
def Obligations.SampleCount : Prop :=
  ∀ (d : Dev) (t : Int), d.Inv params → d.cfg.synth = .synth →
    let n := if d.clk.rateCounter < t then ((t - d.clk.rateCounter + d.clk.rate - 1) / d.clk.rate).toNat else 0
    (update params t d).clk.rateCounter = d.clk.rateCounter + n * d.clk.rate ∧
    (update params t d).ring.pos = (d.ring.pos + n) % 0x4000 ∧
    (t ≤ d.clk.rateCounter → t ≤ d.clk.frameCounter → update params t d = d)

/-! ### The ring and delivery -/

/-- `RingPush` and `Latency` (49_output_and_synthesis.md R340, R341): the sample at the write position, every other one
kept, and a full ring drops its oldest sample, so that the count stops at the capacity. -/
def Obligations.RingPush : Prop :=
  ∀ (r : Ring) (x : Int), r.pos < 0x4000 → r.start < 0x4000 → Rising r.output →
    let full := r.latency params = 0x3FFF
    let p := r.push params x
    r.latency params ≤ 0x3FFF ∧
    sampleAt p.output r.pos = x ∧ (∀ k, k ≠ r.pos → sampleAt p.output k = sampleAt r.output k) ∧
    p = { r with
      output := p.output
      pos := (r.pos + 1) % 0x4000
      start := if full then (r.start + 1) % 0x4000 else r.start } ∧
    p.latency params = if full then 0x3FFF else r.latency params + 1

/-- `Flush` (49_output_and_synthesis.md R344) with its frames in mono and in stereo (R346, R347): the block the ring has,
then the last delivered sample held, every slot of the buffer written once.  The premise on the history array is its
canonical form. -/
def Obligations.FlushFrames : Prop :=
  ∀ (length : Nat) (s : State), Rising s.dev.ring.history →
    let r := s.dev.ring
    let bits := s.dev.cfg.bits
    let n := min length (r.latency params)
    let start := (r.start + n) % 0x4000
    let frame := fun k : Nat =>
      if k < n then sampleAt r.output ((r.start + k) % 0x4000)
      else sampleAt r.output (((start : Int) - 1) % 0x4000).toNat
    ∃ (buffer : List Slot) (history : List (Nat × Int)) (hpos : Nat),
      runEvent (.flush length) s = .next { s with
        dev := { s.dev with ring := { r with start := start, history := history, hpos := hpos } }
        host := { s.host with buffer := buffer }
        outcome := .ok } ∧
      (match s.dev.cfg.channels with
      | .mono => buffer = (List.range length).map (fun k => encodeSlot bits (frame k)) ∧
          history = r.history ∧ hpos = r.hpos
      | .stereo => buffer.length = 2 * length ∧ hpos = r.hpos + length ∧
          (∀ k, k < length →
            buffer[2 * k]? = some (encodeSlot bits
              (if k < 64 then sampleAt r.history ((r.hpos + k) % 64) else frame (k - 64))) ∧
            buffer[2 * k + 1]? = some (encodeSlot bits (frame k))) ∧
          (∀ k, length ≤ k + 64 → k < length → sampleAt history ((r.hpos + k) % 64) = frame k) ∧
          ∀ k, length ≤ k → k < 64 →
            sampleAt history ((r.hpos + k) % 64) = sampleAt r.history ((r.hpos + k) % 64))

/-- A block is two contiguous runs, split where the ring wraps (49_output_and_synthesis.md, section 3).  That the two
descriptions of a block are the same sequence the spec marks as derived, from the definition of mod. -/
def Obligations.BlockWraps : Prop :=
  ∀ (r : Ring) (n : Nat), r.start < 0x4000 → n ≤ r.latency params →
    let n1 := min n (0x4000 - r.start)
    r.block params n = (List.range n).map (fun k => sampleAt r.output ((r.start + k) % 0x4000)) ∧
    r.block params n = (List.range n1).map (fun k => sampleAt r.output (r.start + k)) ++
      (List.range (n - n1)).map (fun k => sampleAt r.output k)

/-- `Encode` (49_output_and_synthesis.md R345): the sample itself in 16 bits, `floor(s / 256) + 128` in 8 bits, neither
cut off for a sample in range. -/
def Obligations.EncodedSamples : Prop :=
  ∀ x : Int, -32767 ≤ x → x ≤ 32767 →
    (∃ w : BitVec 16, encodeSlot 16 x = .word w ∧ w.toInt = x) ∧
    ∃ b : Byte, encodeSlot 8 x = .byte b ∧ (b.toNat : Int) = x / 256 + 128

/-- `EndFrame` with `Rebase` (49_output_and_synthesis.md, section 2): it completes, the output is skipped unless the path
is `SYNTH`, a stream is there and the lock is not refused, every finite time counter is lowered by the frame's length, and
the lock's two calls pair up, in the model's own counters (log entry 9).  That the three counters that are caught up stay
at or above 0 the spec marks as derived, from its rules for the catch-up and the end of a frame. -/
def Obligations.EndFrameRebases : Prop :=
  ∀ (s : State) (frameCycles : Nat) (stream : Option Nat) (a : LockAnswer),
    s.Inv params → s.onTime → 0 < frameCycles → frameCycles ≤ s.inp.now →
      let c := s.caughtUp params
      let lower := fun x : Int => x - (frameCycles : Int) * s.dev.clk.fixed
      let flushed := flushRing params s.dev.cfg (stream.getD 0) c.ring
      let delivers := stream.isSome = true ∧ s.dev.cfg.synth = .synth ∧ a ≠ .refused
      execEndFrame frameCycles stream a s = .next { s with
        dev := { c with
          clk := { c.clk with
            rateCounter := lower c.clk.rateCounter
            frameCounter := lower c.clk.frameCounter
            dmcClock := lower c.clk.dmcClock
            frameIrqClock := c.clk.frameIrqClock.map lower
            extCounter := c.clk.extCounter.map lower }
          ring := if delivers then flushed.2 else c.ring }
        inp := { s.inp with now := s.inp.now - frameCycles }
        outcome := .ok
        host :=
          { buffer := if delivers then flushed.1 else s.host.buffer
            locks := s.host.locks + (if delivers ∧ a = .granted then 1 else 0)
            unlocks := s.host.unlocks + (if delivers ∧ a = .granted then 1 else 0) } } ∧
      0 ≤ lower c.clk.rateCounter ∧ 0 ≤ lower c.clk.frameCounter ∧ 0 ≤ lower c.clk.dmcClock

/-! ### The clock converter -/

/-- `EffectiveRate` and `Derive` (47_clock_converter.md R292, R293): the least multiplier that divides exactly, the bound
if there is none, and the pair made with it. -/
def Obligations.DeriveLeastMultiplier : Prop :=
  (∀ sampleRate speed tv, effectiveRate params sampleRate speed tv =
    if speed ≠ 0 then sampleRate * (if tv = .ntsc then 60 else 50) / speed else sampleRate) ∧
  ∀ (tv : TvMode) (r : Nat), 0 < r →
    let base := if tv = .ntsc then 236250000 else 212813700
    let v := derive params tv r
    1 ≤ v.m ∧ v.m ≤ 511 ∧
    (∀ k, 1 ≤ k → k < v.m → base * k % r ≠ 0) ∧
    (base * v.m % r = 0 ∨ v.m = 511 ∧ ∀ k, 1 ≤ k → k ≤ 511 → base * k % r ≠ 0) ∧
    v.rate = base * v.m / r ∧ v.fixed = (if tv = .ntsc then 11 else 8) * v.m

/-- The outcomes of `Configure`, in the order of their checks, with no change of state unless it is `ok`, and a hard reset
under the new settings when the TV mode changes; and no other operation answers an error or `NoOp`
(60_exceptions.md R381, R385). -/
def Obligations.ConfigureOutcomes : Prop :=
  (∀ (new : Settings) (s : State),
    let r := effectiveRate params new.sampleRate new.speed new.tv
    ∃ t : State, runEvent (.configure new) s = .next t ∧
      t.outcome =
        (if new.sampleRate = 0 then .invalidSampleRate
        else if new.bits ≠ 8 ∧ new.bits ≠ 16 then .unsupportedBits
        else if r = 0 then .invalidSampleRate
        else if (derive params new.tv r).rate = 0 then .invalidSampleRate
        else if new = s.dev.cfg then .noOp
        else .ok) ∧
      (t.outcome ≠ .ok → t = { s with outcome := t.outcome }) ∧
      (t.outcome = .ok → t.dev.cfg = new) ∧
      (t.outcome = .ok → new.tv ≠ s.dev.cfg.tv →
        runEvent (.reset true) { s with dev := { s.dev with cfg := new } } = .next t)) ∧
  (∀ (i : Instr) (s t : State), exec i s = .next t →
    if i = .statusR then ∃ v, t.outcome = .okValue v else t.outcome = .ok) ∧
  ∀ (e : HostEvent) (s t : State), (∀ new, e ≠ .configure new) → runEvent e s = .next t → t.outcome = .ok

/-- `Configure` that takes new settings of the same TV mode up (47_clock_converter.md R295, R296): every finite time and
the four timers scaled by `newFixed / oldFixed`, every derived period recomputed, and nothing else changed. -/
def Obligations.ReconfigureScales : Prop :=
  ∀ (new : Settings) (s : State), configureRefuses params new s.dev.cfg = none → new.tv = s.dev.cfg.tv →
    let v := deriveFor params new
    let d := s.dev
    let scale := fun c : Int => c * v.fixed / d.clk.fixed
    let cc := (params.cpuDiv new.tv : Int) * v.fixed
    let osc := fun (o : Osc) (frequency : Int) =>
      { o with rate := (v.rate : Int), fixed := (v.fixed : Int), timer := scale o.timer, frequency := frequency }
    let square := fun q : Square => { q with
      osc := osc q.osc (if q.validFrequency = true then ((q.waveLength.toNat : Int) + 1) * 2 * cc
        else q.osc.frequency * v.fixed / d.clk.fixed) }
    runEvent (.configure new) s = .next { s with
      outcome := .ok
      dev := { d with
        cfg := new
        clk := { d.clk with
          fixed := v.fixed
          rate := v.rate
          rateCounter := scale d.clk.rateCounter
          frameCounter := scale d.clk.frameCounter
          dmcClock := scale d.clk.dmcClock
          frameIrqClock := d.clk.frameIrqClock.map scale
          extCounter := d.clk.extCounter.map scale }
        sq0 := square d.sq0
        sq1 := square d.sq1
        tri := { d.tri with osc := osc d.tri.osc (((d.tri.waveLength.toNat : Int) + 1) * cc) }
        noise := { d.noise with
          osc := osc d.noise.osc ((((params.noisePeriod new.tv).getD d.noise.periodIndex.toNat 0 : Nat) : Int) * cc) }
        dmc := { d.dmc with
          frequency := (((params.dmcPeriod new.tv).getD d.dmc.rateIndex.toNat 0 : Nat) : Int) * cc } } }

/-- In a sound state a `Configure` that changes only the width, the channel count or the path changes nothing but the
settings, and one of the same TV mode carries a counter of `k` whole master clocks to exactly `k` of the new scale
(47_clock_converter.md; inferred from its rules on `Rescale`). -/
def Obligations.ConfigureKeepsPhase : Prop :=
  ∀ (new : Settings) (s : State), s.Inv params → configureRefuses params new s.dev.cfg = none →
    new.tv = s.dev.cfg.tv →
      ∃ t : State, runEvent (.configure new) s = .next t ∧
        (new.sampleRate = s.dev.cfg.sampleRate → new.speed = s.dev.cfg.speed →
          t = { s with dev := { s.dev with cfg := new }, outcome := .ok }) ∧
        (∀ k : Int, s.dev.clk.frameCounter = k * s.dev.clk.fixed → t.dev.clk.frameCounter = k * t.dev.clk.fixed) ∧
        (∀ k : Int, s.dev.clk.dmcClock = k * s.dev.clk.fixed → t.dev.clk.dmcClock = k * t.dev.clk.fixed) ∧
        ∀ k : Int, s.dev.clk.frameIrqClock = some (k * s.dev.clk.fixed) →
          t.dev.clk.frameIrqClock = some (k * t.dev.clk.fixed)

/-! ### Reset -/

/-- `Reset(hard)` (70_reset_and_hazards.md R400), field by field; a soft reset keeps the control latch, both keep the
settings. -/
def Obligations.ResetProcedure : Prop :=
  ∀ (hard : Bool) (s : State),
    let cfg := s.dev.cfg
    let r := effectiveRate params cfg.sampleRate cfg.speed cfg.tv
    let v := derive params cfg.tv r
    let fixed : Int := v.fixed
    let rate : Int := v.rate
    let cc := (params.cpuDiv cfg.tv : Int) * fixed
    let ctrl : FrameCtrl := if hard = true then { mode5 := false, irqInhibit := false } else s.dev.ctrl
    let osc := fun frequency : Int =>
      ({ active := false, timer := 0, frequency := frequency, rate := rate, fixed := fixed, amp := 0 } : Osc)
    let env : Envelope := { reg := 0x10, volume := 0, count := 0, reset := false, outputVolume := 256, output := 0 }
    let len : LengthCounter := { enabled := false, count := 0 }
    let square : Square :=
      { osc := osc (2 * cc), duty := 0, step := 0, waveLength := 0, validFrequency := false, env := env, len := len
        sweep := { rate := 0, shift := 0, count := 1, reload := false, increase := true } }
    let bit := (((params.dmcPeriod cfg.tv).getD 0 0 : Nat) : Int) * cc
    ∃ t : State, runEvent (.reset hard) s = .next t ∧ t.outcome = .ok ∧ t.mem = s.mem ∧ t.host = s.host ∧
      t.dev =
        { cfg := cfg
          ctrl := ctrl
          clk :=
            { fixed := fixed
              rate := rate
              rateCounter := 0
              frameDivider := 0
              frameCounter := (((params.frameStep cfg.tv ctrl.mode5).getD 0 0 : Nat) : Int) * cc
              frameIrqRepeat := 0
              frameIrqClock :=
                if ctrl.mode5 = false ∧ ctrl.irqInhibit = false then
                  some ((((params.frameIrqClocks cfg.tv).getD 0 0 : Nat) : Int) * cc)
                else none
              dmcClock := bit
              extCounter := none }
          sq0 := square
          sq1 := square
          tri :=
            { osc := osc cc, step := 0, linearCounter := 0, linearCtrl := 0, status := .counting, waveLength := 0
              len := len }
          noise :=
            { osc := osc ((((params.noisePeriod cfg.tv).getD 0 0 : Nat) : Int) * cc), bits := 0x4000
              shifter := .long, periodIndex := 0, env := env, len := len }
          dmc :=
            { active := false
              dma := { address := 0xC000, lengthCounter := 0, buffer := 0, buffered := false }
              out := { shifter := 0, buffer := 0, dac := 0 }
              curSample := 0
              linSample := 0
              loop := false
              irqEnable := false
              rateIndex := 0
              frequency := bit
              regAddress := 0xC000
              regLength := 1 }
          dc := { acc := 0, prev := 0, next := 0 }
          ring := { output := [], pos := 0, start := 0, history := [], hpos := 0 }
          irq := { frame := false, dmc := false }
          stolen := 0 }

/-- The numbers of the state after power-on (70_reset_and_hazards.md, section 1, its example).  That the machine starts
in NTSC, and the model's own fields, are the model's choices (log entries 12 and 23). -/
def Obligations.ResetState : Prop :=
  let d := State.reset.dev
  d.cfg = { sampleRate := 44100, speed := 0, tv := .ntsc, bits := 16, channels := .mono, synth := .synth } ∧
  d.clk.fixed = 77 ∧ d.clk.rate = 37500 ∧ d.clk.rateCounter = 0 ∧ d.clk.frameCounter = 6892116 ∧
  d.clk.frameIrqClock = some 27562920 ∧ d.clk.dmcClock = 395472 ∧ d.clk.extCounter = none ∧
  d.noise.bits = 0x4000 ∧ d.noise.osc.frequency = 3696 ∧ d.irq = { frame := false, dmc := false } ∧
  d.dmc.regAddress = 0xC000 ∧ d.dmc.regLength = 1 ∧ d.stolen = 0 ∧ irqLine d = false ∧
  State.reset.mem = [] ∧ State.reset.todo = []

/-! ### Invariants and whole-machine rules -/

/-- The invariants hold at reset (60_exceptions.md, section 3), and every reset puts the next sample's time on the sample
grid, I15's second half. -/
def Obligations.ResetInv : Prop :=
  State.reset.Inv params ∧ State.reset.dev.clk.OnSampleGrid ∧
  ∀ (hard : Bool) (s t : State), runEvent (.reset hard) s = .next t → t.dev.clk.OnSampleGrid

/-- Every step keeps the invariants I1 to I9 and I11 to I18 (60_exceptions.md, section 3), and memory in its canonical
form.  I15's second half is kept by every line but `Configure` and `EndFrame`, on the `SYNTH` path (log entry 24 says why
not on the other).  I11's last part: both callers of `DoDMA` enter it only with bytes remaining. -/
def Obligations.StepKeepsInv : Prop :=
  (∀ s t : State, s.Inv params → step s = .next t →
    t.Inv params ∧
    (s.dev.clk.OnSampleGrid → s.dev.cfg.synth = .synth → (∀ l rest, s.todo = l :: rest → keepsSampleGrid l = true) →
      t.dev.clk.OnSampleGrid)) ∧
  ∀ s : State, s.Inv params →
    let m := s.dev.dmc
    let restarted : State := { s with dev := { s.dev with
      irq := { s.dev.irq with dmc := false }
      dmc := { m with dma := { m.dma with lengthCounter := m.regLength, address := m.regAddress } } } }
    let taken : State := { s with dev := { s.dev with
      dmc := { m with
        active := true
        dma := { m.dma with buffered := false }
        out := { m.out with shifter := 7, buffer := m.dma.buffer } } } }
    (∀ e : Bool, EntersDmaReady params s restarted (dmcSetEnabled params e s)) ∧
    EntersDmaReady params s taken (clockOutputUnit params s)

/-- What no instruction changes, and what only the named ones change, from the rules' assignments (30_encoding.md
section 2; 44_dmc.md section 2; 45_frame_sequencer.md section 3; 46_status.md). -/
def Obligations.ExecFrame : Prop :=
  ∀ (i : Instr) (s t : State), exec i s = .next t →
    (∀ a, Memory.read t.mem a = Memory.read s.mem a) ∧ t.inp = s.inp ∧ t.host = s.host ∧ t.todo = s.todo ∧
    t.dev.cfg = s.dev.cfg ∧ t.dev.clk.fixed = s.dev.clk.fixed ∧ t.dev.clk.rate = s.dev.clk.rate ∧
    t.dev.clk.dmcClock = s.dev.clk.dmcClock ∧
    ((∀ f, i ≠ .frameW f) → t.dev.ctrl = s.dev.ctrl) ∧
    ((∀ f, i ≠ .frameW f) → i ≠ .statusR →
      t.dev.clk.frameIrqClock = s.dev.clk.frameIrqClock ∧ t.dev.clk.frameIrqRepeat = s.dev.clk.frameIrqRepeat ∧
      t.dev.irq.frame = s.dev.irq.frame) ∧
    ((∀ f, i ≠ .statusW f) → t.dev.stolen = s.dev.stolen ∧ t.peeks = s.peeks) ∧
    ((∀ f, i ≠ .statusW f) → (∀ f, i ≠ .dmcR0 f) → t.dev.irq.dmc = s.dev.irq.dmc) ∧
    ((∀ f, i ≠ .statusW f) → (∀ f, i ≠ .dmcR0 f) → (∀ f, i ≠ .dmcR1 f) → (∀ f, i ≠ .dmcR2 f) →
      (∀ f, i ≠ .dmcR3 f) → t.dev.dmc = { s.dev.dmc with linSample := t.dev.dmc.linSample })

/-- Who clears the frame IRQ (45_frame_sequencer.md R264): `RD $4015`, `WR $4017` with bit 6 set and a reset, the host's
or that of a `Configure` with another TV mode; nothing else does. -/
def Obligations.FrameIrqClearers : Prop :=
  ∀ (s t : State) (l : Line) (rest : List Line), s.todo = l :: rest → step s = .next t → s.dev.irq.frame = true →
    (t.dev.irq.frame = false ↔
      (∃ now odd w, l = .bus now odd w ∧ decode w = .instr .statusR) ∨
      (∃ now odd w f, l = .bus now odd w ∧ decode w = .instr (.frameW f) ∧ f.irqInhibit = true) ∨
      (∃ hard, l = .event (.reset hard)) ∨
      ∃ new, l = .event (.configure new) ∧ new.tv ≠ s.dev.cfg.tv ∧
        configureRefuses params new s.dev.cfg = none)

/-- The device never writes the CPU's memory (20_memory.md, section 1); a store line, the model's way to say that the CPU
collaborator stored a byte (log entry 7), changes that byte alone, and a fetch after it sees the byte. -/
def Obligations.MemoryOnlyByStore : Prop :=
  (∀ s t : State, step s = .next t → (∀ a b rest, s.todo ≠ .cpuStore a b :: rest) →
    ∀ a, Memory.read t.mem a = Memory.read s.mem a) ∧
  ∀ (s : State) (a : Addr) (b : Byte) (rest : List Line), s.todo = .cpuStore a b :: rest →
    ∃ t : State, step s = .next t ∧ t.dev = s.dev ∧ Memory.read t.mem a = some b ∧
      (∀ x, x ≠ a → Memory.read t.mem x = Memory.read s.mem x) ∧
      (s.dev.dmc.dma.address = a → (doDma params t).dev.dmc.dma.buffer = b)
end

