-- ==== Sys2Proof/Laws/BoxFilter.lean ====
section
/-!
SUPPORT. The box filter the three oscillator kinds share (41_square.md R156, R158): how many steps are due, where the
timer ends, and how large the weighted sum can get.
-/

namespace Sys2Proof.Machine

@[simp] theorem stepsDue_of_nonneg {timer frequency : Int} (h : 0 ≤ timer) : stepsDue timer frequency = 0 := by
  simp [stepsDue, Int.not_lt.mpr h]

/-- For a timer below 0, the steps that are due are the least number that brings it back to 0 or above. -/
theorem stepsDue_spec {timer frequency : Int} (ht : timer < 0) (hf : 0 < frequency) :
    0 < stepsDue timer frequency ∧ 0 ≤ timer + stepsDue timer frequency * frequency ∧
      timer + stepsDue timer frequency * frequency < frequency := by
  set q := (-timer + frequency - 1) / frequency with hq
  have h1 : q * frequency ≤ -timer + frequency - 1 := Int.ediv_mul_le _ hf.ne'
  have h2 : -timer + frequency - 1 < (q + 1) * frequency := Int.lt_ediv_add_one_mul_self _ hf
  have hq0 : 0 < q := by by_contra h; nlinarith [Int.not_lt.mp h]
  have hn : ((stepsDue timer frequency : Nat) : Int) = q := by
    simp only [stepsDue, if_pos ht]; exact Int.toNat_of_nonneg hq0.le
  rw [hn]
  refine ⟨by omega, ?_, ?_⟩ <;> nlinarith

theorem stepsDue_timer_nonneg {timer frequency : Int} (hf : 0 < frequency) :
    0 ≤ timer + stepsDue timer frequency * frequency := by
  rcases lt_or_ge timer 0 with h | h
  · exact (stepsDue_spec h hf).2.1
  · simpa [stepsDue_of_nonneg h] using h

variable {α : Type} (advance : α → α) (level : α → Int) (frequency : Int)

@[simp] theorem boxWalk_timer (n : Nat) (x : α) (timer sum : Int) :
    (boxWalk advance level frequency n x timer sum).2.1 = timer + n * frequency := by
  induction n generalizing x timer sum with
  | zero => simp [boxWalk]
  | succ n ih => simp only [boxWalk, ih]; push_cast; ring

@[simp] theorem boxWalk_position (n : Nat) (x : α) (timer sum : Int) :
    (boxWalk advance level frequency n x timer sum).1 = advance^[n] x := by
  induction n generalizing x timer sum with
  | zero => rfl
  | succ n ih => simp only [boxWalk, ih, Function.iterate_succ_apply]

/-- The sum after the loop, as one sum over the steps: step `k + 1` weighs what is then left of the time, at most one
step length. -/
theorem boxWalk_sum (n : Nat) (x : α) (timer sum : Int) :
    (boxWalk advance level frequency n x timer sum).2.2 =
      sum + ∑ k ∈ Finset.range n, min (-timer - k * frequency) frequency * level (advance^[k + 1] x) := by
  induction n generalizing x timer sum with
  | zero => simp [boxWalk]
  | succ n ih =>
    simp only [boxWalk, ih, Finset.sum_range_succ' _ n, Function.iterate_succ_apply]
    have : ∀ k : Nat, -(timer + frequency) - (k : Int) * frequency = -timer - ((k + 1 : Nat) : Int) * frequency := by
      intro k; push_cast; ring
    simp only [this]
    push_cast
    simp only [zero_mul, sub_zero, Function.iterate_zero, id_eq]
    ring

/-- The weights of the steps that are due add up to the time the timer was short (41_square.md R158 (b)). -/
theorem boxWalk_weights {timer frequency : Int} (ht : timer < 0) (hf : 0 < frequency) :
    ∑ k ∈ Finset.range (stepsDue timer frequency), min (-timer - k * frequency) frequency = -timer := by
  obtain ⟨h0, h1, h2⟩ := stepsDue_spec ht hf
  generalize stepsDue timer frequency = n at h0 h1 h2
  obtain ⟨m, rfl⟩ : ∃ m, n = m + 1 := ⟨n - 1, by omega⟩
  rw [Finset.sum_range_succ]
  push_cast at h1 h2
  have hlast : min (-timer - (m : Int) * frequency) frequency = -timer - m * frequency := min_eq_left (by linarith)
  have hfull : ∀ k ∈ Finset.range m, min (-timer - (k : Int) * frequency) frequency = frequency := by
    intro k hk
    have hk' : (k : Int) + 1 ≤ m := by exact_mod_cast Finset.mem_range.mp hk
    exact min_eq_right (by nlinarith)
  rw [Finset.sum_congr rfl hfull, hlast]
  simp

/-- Each weight of the loop is not negative and the weights add up to the time the timer was short, so the sum grows
by at most the largest level times that time. -/
theorem boxWalk_sum_bounds {L : Int} (hl : ∀ x, 0 ≤ level x ∧ level x ≤ L) (hf : 0 < frequency) (n : Nat) (x : α)
    (timer sum : Int) (ht : timer < 0) (hlast : timer + (n - 1) * frequency < 0)
    (hend : 0 ≤ timer + n * frequency) :
    sum ≤ (boxWalk advance level frequency n x timer sum).2.2 ∧
      (boxWalk advance level frequency n x timer sum).2.2 ≤ sum + L * -timer := by
  induction n generalizing x timer sum with
  | zero => simp at hend; omega
  | succ n ih =>
    obtain ⟨h0, hL⟩ := hl (advance x)
    simp only [boxWalk]
    push_cast at hlast hend
    rcases Nat.eq_zero_or_pos n with rfl | hn
    · have hm : min (-timer) frequency = -timer := by apply min_eq_left; simp at hend; omega
      simp only [boxWalk, hm]
      constructor <;> nlinarith
    · have hneg : timer + frequency < 0 := by
        have : (1 : Int) ≤ n := by exact_mod_cast hn
        nlinarith
      have hm : min (-timer) frequency = frequency := by apply min_eq_right; omega
      have := ih (advance x) (timer + frequency) (sum + min (-timer) frequency * level (advance x)) hneg
        (by linarith) (by linarith)
      rw [hm] at this ⊢
      constructor <;> nlinarith

/-- The same with the number of steps that are due. -/
theorem boxWalk_due_bounds {L : Int} (hl : ∀ x, 0 ≤ level x ∧ level x ≤ L) (hf : 0 < frequency) (x : α)
    (timer sum : Int) (ht : timer < 0) :
    sum ≤ (boxWalk advance level frequency (stepsDue timer frequency) x timer sum).2.2 ∧
      (boxWalk advance level frequency (stepsDue timer frequency) x timer sum).2.2 ≤ sum + L * -timer := by
  obtain ⟨_, h1, h2⟩ := stepsDue_spec ht hf
  exact boxWalk_sum_bounds advance level frequency hl hf _ x timer sum ht (by linarith) h1

/-- The mean of a sum between 0 and `L * rate` lies between 0 and `L * v`. -/
theorem boxMean_bounds {sum v rate L : Int} (hr : 0 < rate) (hv : 0 ≤ v) (h0 : 0 ≤ sum) (hL : sum ≤ L * rate) :
    0 ≤ boxMean sum v rate ∧ boxMean sum v rate ≤ L * v := by
  unfold boxMean
  have hh : 0 ≤ rate / 2 := Int.ediv_nonneg hr.le (by norm_num)
  have hh2 : rate / 2 < rate := by omega
  have hm : 0 ≤ sum * v := mul_nonneg h0 hv
  refine ⟨Int.ediv_nonneg (by omega) hr.le, ?_⟩
  have : (sum * v + rate / 2) / rate < L * v + 1 := Int.ediv_lt_of_lt_mul hr (by nlinarith)
  omega

/-- A sum that is exactly `L * rate` has the mean `L * v` (41_square.md R156 (a)). -/
theorem boxMean_exact {v rate L : Int} (hr : 0 < rate) : boxMean (L * rate) v rate = L * v := by
  unfold boxMean
  have hh : 0 ≤ rate / 2 := Int.ediv_nonneg hr.le (by norm_num)
  have hh2 : rate / 2 < rate := by omega
  rw [show L * rate * v + rate / 2 = rate / 2 + L * v * rate by ring, Int.add_mul_ediv_right _ _ hr.ne',
    Int.ediv_eq_zero_of_lt hh hh2, zero_add]

theorem decayed_nonneg (P : Params) {amp : Int} : 0 ≤ decayed P amp := by
  unfold decayed
  split_ifs <;> omega

theorem decayed_le (P : Params) {amp : Int} (h : 0 ≤ amp) : decayed P amp ≤ amp := by
  unfold decayed
  split_ifs <;> omega

theorem clampInt_bounds {v lo hi : Int} (h : lo ≤ hi) : lo ≤ clampInt v lo hi ∧ clampInt v lo hi ≤ hi := by
  unfold clampInt; omega

end Sys2Proof.Machine
end

