-- ==== Sys2Proof/Laws/Cells.lean ====
section
/-!
SUPPORT. Sparse arrays and memory: a read after a write, the places a write leaves alone, and that every operation
keeps the canonical form.
-/

namespace Sys2Proof.Machine

variable {α : Type}

@[simp] theorem cellAt_putCell_same (k : Nat) (v : α) (m : List (Nat × α)) : cellAt k (putCell k v m) = some v := by
  induction m with
  | nil => simp [putCell, cellAt]
  | cons c m ih =>
    obtain ⟨j, w⟩ := c
    simp only [putCell]
    split_ifs with h1 h2
    · simp [cellAt]
    · simp [cellAt]
    · simp [cellAt, Ne.symm h2, ih]

theorem cellAt_putCell_other {k i : Nat} (h : i ≠ k) (v : α) (m : List (Nat × α)) :
    cellAt i (putCell k v m) = cellAt i m := by
  induction m with
  | nil => simp [putCell, cellAt, Ne.symm h]
  | cons c m ih =>
    obtain ⟨j, w⟩ := c
    simp only [putCell]
    split_ifs with h1 h2
    · simp [cellAt, Ne.symm h]
    · subst h2; simp [cellAt, Ne.symm h]
    · simp [cellAt, ih]

/-- Every entry after a write is the written one or an old one. -/
theorem mem_putCell {k : Nat} {v : α} {m : List (Nat × α)} {c : Nat × α} (h : c ∈ putCell k v m) :
    c = (k, v) ∨ c ∈ m := by
  induction m with
  | nil => simpa [putCell] using h
  | cons d m ih =>
    obtain ⟨j, w⟩ := d
    simp only [putCell] at h
    split_ifs at h with h1 h2
    · simpa using h
    · rcases List.mem_cons.mp h with h | h
      · exact .inl h
      · exact .inr (List.mem_cons_of_mem _ h)
    · rcases List.mem_cons.mp h with h | h
      · exact .inr (h ▸ List.mem_cons_self)
      · exact (ih h).imp id (List.mem_cons_of_mem _)

theorem rising_putCell {k : Nat} {v : α} {m : List (Nat × α)} (h : Rising m) : Rising (putCell k v m) := by
  induction m with
  | nil => simp [putCell]
  | cons d m ih =>
    obtain ⟨j, w⟩ := d
    obtain ⟨hj, hm⟩ := List.pairwise_cons.mp h
    simp only [putCell]
    split_ifs with h1 h2
    · refine List.pairwise_cons.mpr ⟨fun c hc => ?_, h⟩
      rcases List.mem_cons.mp hc with rfl | hc
      · exact h1
      · exact h1.trans (hj c hc)
    · subst h2
      exact List.pairwise_cons.mpr ⟨hj, hm⟩
    · refine List.pairwise_cons.mpr ⟨fun c hc => ?_, ih hm⟩
      rcases mem_putCell hc with rfl | hc
      · simp only; omega
      · exact hj c hc

/-- Every entry after a removal is an old one. -/
theorem mem_dropCell {k : Nat} {m : List (Nat × α)} {c : Nat × α} (h : c ∈ dropCell k m) : c ∈ m := by
  induction m with
  | nil => simp [dropCell] at h
  | cons d m ih =>
    obtain ⟨j, w⟩ := d
    simp only [dropCell] at h
    split_ifs at h with h1
    · exact List.mem_cons_of_mem _ h
    · rcases List.mem_cons.mp h with h | h
      · exact h ▸ List.mem_cons_self
      · exact List.mem_cons_of_mem _ (ih h)

theorem rising_dropCell {k : Nat} {m : List (Nat × α)} (h : Rising m) : Rising (dropCell k m) := by
  induction m with
  | nil => simp [dropCell]
  | cons d m ih =>
    obtain ⟨j, w⟩ := d
    obtain ⟨hj, hm⟩ := List.pairwise_cons.mp h
    simp only [dropCell]
    split_ifs with h1
    · exact hm
    · exact List.pairwise_cons.mpr ⟨fun c hc => hj c (mem_dropCell hc), ih hm⟩

/-- An index below every listed one is not listed. -/
theorem cellAt_none_of_lt {k : Nat} {m : List (Nat × α)} (h : ∀ c ∈ m, k < c.1) : cellAt k m = none := by
  induction m with
  | nil => rfl
  | cons d m ih =>
    obtain ⟨j, w⟩ := d
    have hj := h (j, w) List.mem_cons_self
    simp only at hj
    simp [cellAt, (Nat.ne_of_lt hj).symm, ih fun c hc => h c (List.mem_cons_of_mem _ hc)]

theorem cellAt_dropCell_same {k : Nat} {m : List (Nat × α)} (h : Rising m) : cellAt k (dropCell k m) = none := by
  induction m with
  | nil => rfl
  | cons d m ih =>
    obtain ⟨j, w⟩ := d
    obtain ⟨hj, hm⟩ := List.pairwise_cons.mp h
    simp only [dropCell]
    split_ifs with h1
    · subst h1; exact cellAt_none_of_lt hj
    · simp [cellAt, h1, ih hm]

theorem cellAt_dropCell_other {k i : Nat} (h : i ≠ k) (m : List (Nat × α)) :
    cellAt i (dropCell k m) = cellAt i m := by
  induction m with
  | nil => rfl
  | cons d m ih =>
    obtain ⟨j, w⟩ := d
    simp only [dropCell]
    split_ifs with h1
    · subst h1; simp [cellAt, Ne.symm h]
    · simp [cellAt, ih]

/-- What a lookup finds is listed. -/
theorem mem_of_cellAt {k : Nat} {v : α} {m : List (Nat × α)} (h : cellAt k m = some v) : (k, v) ∈ m := by
  induction m with
  | nil => simp [cellAt] at h
  | cons d m ih =>
    obtain ⟨j, w⟩ := d
    simp only [cellAt] at h
    split_ifs at h with h1
    · subst h1; simp only [Option.some.injEq] at h; subst h; exact List.mem_cons_self
    · exact List.mem_cons_of_mem _ (ih h)

/-! ### Sample arrays -/

@[simp] theorem sampleAt_putSample_same {m : List (Nat × Int)} (h : Rising m) (k : Nat) (v : Int) :
    sampleAt (putSample m k v) k = v := by
  unfold sampleAt putSample
  split_ifs with hv
  · simp [cellAt_dropCell_same h, hv]
  · simp

theorem sampleAt_putSample_other {k i : Nat} (h : i ≠ k) (m : List (Nat × Int)) (v : Int) :
    sampleAt (putSample m k v) i = sampleAt m i := by
  unfold sampleAt putSample
  split_ifs
  · rw [cellAt_dropCell_other h]
  · rw [cellAt_putCell_other h]

/-- Every entry after a sample write is the written one or an old one. -/
theorem mem_putSample {m : List (Nat × Int)} {k : Nat} {v : Int} {c : Nat × Int} (h : c ∈ putSample m k v) :
    c = (k, v) ∨ c ∈ m := by
  unfold putSample at h
  split_ifs at h
  · exact .inr (mem_dropCell h)
  · exact mem_putCell h

/-- Writing a sample keeps the indices rising. -/
theorem rising_putSample {m : List (Nat × Int)} (h : Rising m) (k : Nat) (v : Int) : Rising (putSample m k v) := by
  unfold putSample
  split_ifs
  · exact rising_dropCell h
  · exact rising_putCell h

theorem samplesWf_putSample {m : List (Nat × Int)} (h : SamplesWf m) (k : Nat) (v : Int) :
    SamplesWf (putSample m k v) := by
  unfold putSample
  split_ifs with hv
  · exact ⟨rising_dropCell h.1, fun c hc => h.2 c (mem_dropCell hc)⟩
  · refine ⟨rising_putCell h.1, fun c hc => ?_⟩
    rcases mem_putCell hc with rfl | hc
    · exact hv
    · exact h.2 c hc

/-- A bound that 0 meets and every listed sample meets is met by every sample. -/
theorem sampleAt_of_forall {p : Int → Prop} {m : List (Nat × Int)} (h0 : p 0) (h : ∀ c ∈ m, p c.2) (k : Nat) :
    p (sampleAt m k) := by
  unfold sampleAt
  cases hc : cellAt k m with
  | none => exact h0
  | some v => exact h _ (mem_of_cellAt hc)

/-! ### Memory -/

@[simp] theorem Memory.read_write_same (m : List Host.Cell) (a : Addr) (b : Byte) :
    Memory.read (Memory.write m a b) a = some b := cellAt_putCell_same _ _ _

theorem Memory.read_write_other {a a' : Addr} (h : a' ≠ a) (m : List Host.Cell) (b : Byte) :
    Memory.read (Memory.write m a b) a' = Memory.read m a' :=
  cellAt_putCell_other (fun e => h (BitVec.eq_of_toNat_eq e)) _ _

theorem Memory.wf_write {m : List Host.Cell} (h : Memory.wf m) (a : Addr) (b : Byte) :
    Memory.wf (Memory.write m a b) := by
  refine ⟨rising_putCell h.1, fun c hc => ?_⟩
  rcases mem_putCell hc with rfl | hc
  · exact a.isLt
  · exact h.2 c hc

/-- Peeking changes nothing but the count of free answers. -/
theorem State.peek_state (s : State) (a : Addr) : ∃ n, (s.peek a).2 = { s with peeks := n } := by
  unfold State.peek
  split
  · exact ⟨s.peeks, rfl⟩
  · exact ⟨s.peeks + 1, rfl⟩

@[simp] theorem State.peek_mem (s : State) (a : Addr) : (s.peek a).2.mem = s.mem := by
  obtain ⟨n, h⟩ := s.peek_state a; rw [h]
@[simp] theorem State.peek_dev (s : State) (a : Addr) : (s.peek a).2.dev = s.dev := by
  obtain ⟨n, h⟩ := s.peek_state a; rw [h]
@[simp] theorem State.peek_inp (s : State) (a : Addr) : (s.peek a).2.inp = s.inp := by
  obtain ⟨n, h⟩ := s.peek_state a; rw [h]
@[simp] theorem State.peek_host (s : State) (a : Addr) : (s.peek a).2.host = s.host := by
  obtain ⟨n, h⟩ := s.peek_state a; rw [h]
@[simp] theorem State.peek_outcome (s : State) (a : Addr) : (s.peek a).2.outcome = s.outcome := by
  obtain ⟨n, h⟩ := s.peek_state a; rw [h]
@[simp] theorem State.peek_todo (s : State) (a : Addr) : (s.peek a).2.todo = s.todo := by
  obtain ⟨n, h⟩ := s.peek_state a; rw [h]

/-- A listed byte is what a peek answers. -/
theorem State.peek_listed {s : State} {a : Addr} {b : Byte} (h : Memory.read s.mem a = some b) :
    s.peek a = (b, s) := by
  unfold State.peek; rw [h]

end Sys2Proof.Machine
end

