-- ==== Sys2Proof/Laws/State.lean ====
section
/-!
SUPPORT. One lemma per field per update of the state, each true by unfolding, so that no later proof unfolds a record
update.
-/

namespace Sys2Proof.Machine

/-! ### The whole state -/

@[simp] theorem State.mapDev_dev (f : Dev → Dev) (s : State) : (s.mapDev f).dev = f s.dev := rfl
@[simp] theorem State.mapDev_mem (f : Dev → Dev) (s : State) : (s.mapDev f).mem = s.mem := rfl
@[simp] theorem State.mapDev_peeks (f : Dev → Dev) (s : State) : (s.mapDev f).peeks = s.peeks := rfl
@[simp] theorem State.mapDev_inp (f : Dev → Dev) (s : State) : (s.mapDev f).inp = s.inp := rfl
@[simp] theorem State.mapDev_outcome (f : Dev → Dev) (s : State) : (s.mapDev f).outcome = s.outcome := rfl
@[simp] theorem State.mapDev_host (f : Dev → Dev) (s : State) : (s.mapDev f).host = s.host := rfl
@[simp] theorem State.mapDev_todo (f : Dev → Dev) (s : State) : (s.mapDev f).todo = s.todo := rfl
@[simp] theorem State.done_dev (s : State) (d : Dev) : (s.done d).dev = d := rfl
@[simp] theorem State.done_mem (s : State) (d : Dev) : (s.done d).mem = s.mem := rfl
@[simp] theorem State.done_peeks (s : State) (d : Dev) : (s.done d).peeks = s.peeks := rfl
@[simp] theorem State.done_inp (s : State) (d : Dev) : (s.done d).inp = s.inp := rfl
@[simp] theorem State.done_outcome (s : State) (d : Dev) : (s.done d).outcome = .ok := rfl
@[simp] theorem State.done_host (s : State) (d : Dev) : (s.done d).host = s.host := rfl
@[simp] theorem State.done_todo (s : State) (d : Dev) : (s.done d).todo = s.todo := rfl
@[simp] theorem State.mapDev_nowU_of_clk (f : Dev → Dev) (s : State) (h : (f s.dev).clk.fixed = s.dev.clk.fixed) : (s.mapDev f).nowU = s.nowU := by simp [State.nowU, h]

/-! ### The device -/

@[simp] theorem Dev.mapSq0_clk (f : Square → Square) (d : Dev) : (d.mapSq0 f).clk = d.clk := rfl
@[simp] theorem Dev.mapSq0_ctrl (f : Square → Square) (d : Dev) : (d.mapSq0 f).ctrl = d.ctrl := rfl
@[simp] theorem Dev.mapSq0_sq0 (f : Square → Square) (d : Dev) : (d.mapSq0 f).sq0 = f d.sq0 := rfl
@[simp] theorem Dev.mapSq0_sq1 (f : Square → Square) (d : Dev) : (d.mapSq0 f).sq1 = d.sq1 := rfl
@[simp] theorem Dev.mapSq0_tri (f : Square → Square) (d : Dev) : (d.mapSq0 f).tri = d.tri := rfl
@[simp] theorem Dev.mapSq0_noise (f : Square → Square) (d : Dev) : (d.mapSq0 f).noise = d.noise := rfl
@[simp] theorem Dev.mapSq0_dmc (f : Square → Square) (d : Dev) : (d.mapSq0 f).dmc = d.dmc := rfl
@[simp] theorem Dev.mapSq0_dc (f : Square → Square) (d : Dev) : (d.mapSq0 f).dc = d.dc := rfl
@[simp] theorem Dev.mapSq0_ring (f : Square → Square) (d : Dev) : (d.mapSq0 f).ring = d.ring := rfl
@[simp] theorem Dev.mapSq0_cfg (f : Square → Square) (d : Dev) : (d.mapSq0 f).cfg = d.cfg := rfl
@[simp] theorem Dev.mapSq0_irq (f : Square → Square) (d : Dev) : (d.mapSq0 f).irq = d.irq := rfl
@[simp] theorem Dev.mapSq0_stolen (f : Square → Square) (d : Dev) : (d.mapSq0 f).stolen = d.stolen := rfl
@[simp] theorem Dev.mapSq1_clk (f : Square → Square) (d : Dev) : (d.mapSq1 f).clk = d.clk := rfl
@[simp] theorem Dev.mapSq1_ctrl (f : Square → Square) (d : Dev) : (d.mapSq1 f).ctrl = d.ctrl := rfl
@[simp] theorem Dev.mapSq1_sq0 (f : Square → Square) (d : Dev) : (d.mapSq1 f).sq0 = d.sq0 := rfl
@[simp] theorem Dev.mapSq1_sq1 (f : Square → Square) (d : Dev) : (d.mapSq1 f).sq1 = f d.sq1 := rfl
@[simp] theorem Dev.mapSq1_tri (f : Square → Square) (d : Dev) : (d.mapSq1 f).tri = d.tri := rfl
@[simp] theorem Dev.mapSq1_noise (f : Square → Square) (d : Dev) : (d.mapSq1 f).noise = d.noise := rfl
@[simp] theorem Dev.mapSq1_dmc (f : Square → Square) (d : Dev) : (d.mapSq1 f).dmc = d.dmc := rfl
@[simp] theorem Dev.mapSq1_dc (f : Square → Square) (d : Dev) : (d.mapSq1 f).dc = d.dc := rfl
@[simp] theorem Dev.mapSq1_ring (f : Square → Square) (d : Dev) : (d.mapSq1 f).ring = d.ring := rfl
@[simp] theorem Dev.mapSq1_cfg (f : Square → Square) (d : Dev) : (d.mapSq1 f).cfg = d.cfg := rfl
@[simp] theorem Dev.mapSq1_irq (f : Square → Square) (d : Dev) : (d.mapSq1 f).irq = d.irq := rfl
@[simp] theorem Dev.mapSq1_stolen (f : Square → Square) (d : Dev) : (d.mapSq1 f).stolen = d.stolen := rfl
@[simp] theorem Dev.mapTri_clk (f : Triangle → Triangle) (d : Dev) : (d.mapTri f).clk = d.clk := rfl
@[simp] theorem Dev.mapTri_ctrl (f : Triangle → Triangle) (d : Dev) : (d.mapTri f).ctrl = d.ctrl := rfl
@[simp] theorem Dev.mapTri_sq0 (f : Triangle → Triangle) (d : Dev) : (d.mapTri f).sq0 = d.sq0 := rfl
@[simp] theorem Dev.mapTri_sq1 (f : Triangle → Triangle) (d : Dev) : (d.mapTri f).sq1 = d.sq1 := rfl
@[simp] theorem Dev.mapTri_tri (f : Triangle → Triangle) (d : Dev) : (d.mapTri f).tri = f d.tri := rfl
@[simp] theorem Dev.mapTri_noise (f : Triangle → Triangle) (d : Dev) : (d.mapTri f).noise = d.noise := rfl
@[simp] theorem Dev.mapTri_dmc (f : Triangle → Triangle) (d : Dev) : (d.mapTri f).dmc = d.dmc := rfl
@[simp] theorem Dev.mapTri_dc (f : Triangle → Triangle) (d : Dev) : (d.mapTri f).dc = d.dc := rfl
@[simp] theorem Dev.mapTri_ring (f : Triangle → Triangle) (d : Dev) : (d.mapTri f).ring = d.ring := rfl
@[simp] theorem Dev.mapTri_cfg (f : Triangle → Triangle) (d : Dev) : (d.mapTri f).cfg = d.cfg := rfl
@[simp] theorem Dev.mapTri_irq (f : Triangle → Triangle) (d : Dev) : (d.mapTri f).irq = d.irq := rfl
@[simp] theorem Dev.mapTri_stolen (f : Triangle → Triangle) (d : Dev) : (d.mapTri f).stolen = d.stolen := rfl
@[simp] theorem Dev.mapNoise_clk (f : Noise → Noise) (d : Dev) : (d.mapNoise f).clk = d.clk := rfl
@[simp] theorem Dev.mapNoise_ctrl (f : Noise → Noise) (d : Dev) : (d.mapNoise f).ctrl = d.ctrl := rfl
@[simp] theorem Dev.mapNoise_sq0 (f : Noise → Noise) (d : Dev) : (d.mapNoise f).sq0 = d.sq0 := rfl
@[simp] theorem Dev.mapNoise_sq1 (f : Noise → Noise) (d : Dev) : (d.mapNoise f).sq1 = d.sq1 := rfl
@[simp] theorem Dev.mapNoise_tri (f : Noise → Noise) (d : Dev) : (d.mapNoise f).tri = d.tri := rfl
@[simp] theorem Dev.mapNoise_noise (f : Noise → Noise) (d : Dev) : (d.mapNoise f).noise = f d.noise := rfl
@[simp] theorem Dev.mapNoise_dmc (f : Noise → Noise) (d : Dev) : (d.mapNoise f).dmc = d.dmc := rfl
@[simp] theorem Dev.mapNoise_dc (f : Noise → Noise) (d : Dev) : (d.mapNoise f).dc = d.dc := rfl
@[simp] theorem Dev.mapNoise_ring (f : Noise → Noise) (d : Dev) : (d.mapNoise f).ring = d.ring := rfl
@[simp] theorem Dev.mapNoise_cfg (f : Noise → Noise) (d : Dev) : (d.mapNoise f).cfg = d.cfg := rfl
@[simp] theorem Dev.mapNoise_irq (f : Noise → Noise) (d : Dev) : (d.mapNoise f).irq = d.irq := rfl
@[simp] theorem Dev.mapNoise_stolen (f : Noise → Noise) (d : Dev) : (d.mapNoise f).stolen = d.stolen := rfl
@[simp] theorem Dev.mapDmc_clk (f : Dmc → Dmc) (d : Dev) : (d.mapDmc f).clk = d.clk := rfl
@[simp] theorem Dev.mapDmc_ctrl (f : Dmc → Dmc) (d : Dev) : (d.mapDmc f).ctrl = d.ctrl := rfl
@[simp] theorem Dev.mapDmc_sq0 (f : Dmc → Dmc) (d : Dev) : (d.mapDmc f).sq0 = d.sq0 := rfl
@[simp] theorem Dev.mapDmc_sq1 (f : Dmc → Dmc) (d : Dev) : (d.mapDmc f).sq1 = d.sq1 := rfl
@[simp] theorem Dev.mapDmc_tri (f : Dmc → Dmc) (d : Dev) : (d.mapDmc f).tri = d.tri := rfl
@[simp] theorem Dev.mapDmc_noise (f : Dmc → Dmc) (d : Dev) : (d.mapDmc f).noise = d.noise := rfl
@[simp] theorem Dev.mapDmc_dmc (f : Dmc → Dmc) (d : Dev) : (d.mapDmc f).dmc = f d.dmc := rfl
@[simp] theorem Dev.mapDmc_dc (f : Dmc → Dmc) (d : Dev) : (d.mapDmc f).dc = d.dc := rfl
@[simp] theorem Dev.mapDmc_ring (f : Dmc → Dmc) (d : Dev) : (d.mapDmc f).ring = d.ring := rfl
@[simp] theorem Dev.mapDmc_cfg (f : Dmc → Dmc) (d : Dev) : (d.mapDmc f).cfg = d.cfg := rfl
@[simp] theorem Dev.mapDmc_irq (f : Dmc → Dmc) (d : Dev) : (d.mapDmc f).irq = d.irq := rfl
@[simp] theorem Dev.mapDmc_stolen (f : Dmc → Dmc) (d : Dev) : (d.mapDmc f).stolen = d.stolen := rfl
@[simp] theorem raiseIrq_clk (src : IrqSource) (d : Dev) : (raiseIrq src d).clk = d.clk := by cases src <;> rfl
@[simp] theorem raiseIrq_ctrl (src : IrqSource) (d : Dev) : (raiseIrq src d).ctrl = d.ctrl := by cases src <;> rfl
@[simp] theorem raiseIrq_sq0 (src : IrqSource) (d : Dev) : (raiseIrq src d).sq0 = d.sq0 := by cases src <;> rfl
@[simp] theorem raiseIrq_sq1 (src : IrqSource) (d : Dev) : (raiseIrq src d).sq1 = d.sq1 := by cases src <;> rfl
@[simp] theorem raiseIrq_tri (src : IrqSource) (d : Dev) : (raiseIrq src d).tri = d.tri := by cases src <;> rfl
@[simp] theorem raiseIrq_noise (src : IrqSource) (d : Dev) : (raiseIrq src d).noise = d.noise := by cases src <;> rfl
@[simp] theorem raiseIrq_dmc (src : IrqSource) (d : Dev) : (raiseIrq src d).dmc = d.dmc := by cases src <;> rfl
@[simp] theorem raiseIrq_dc (src : IrqSource) (d : Dev) : (raiseIrq src d).dc = d.dc := by cases src <;> rfl
@[simp] theorem raiseIrq_ring (src : IrqSource) (d : Dev) : (raiseIrq src d).ring = d.ring := by cases src <;> rfl
@[simp] theorem raiseIrq_cfg (src : IrqSource) (d : Dev) : (raiseIrq src d).cfg = d.cfg := by cases src <;> rfl
@[simp] theorem raiseIrq_stolen (src : IrqSource) (d : Dev) : (raiseIrq src d).stolen = d.stolen := by cases src <;> rfl
@[simp] theorem clearIrq_clk (src : IrqSource) (d : Dev) : (clearIrq src d).clk = d.clk := by cases src <;> rfl
@[simp] theorem clearIrq_ctrl (src : IrqSource) (d : Dev) : (clearIrq src d).ctrl = d.ctrl := by cases src <;> rfl
@[simp] theorem clearIrq_sq0 (src : IrqSource) (d : Dev) : (clearIrq src d).sq0 = d.sq0 := by cases src <;> rfl
@[simp] theorem clearIrq_sq1 (src : IrqSource) (d : Dev) : (clearIrq src d).sq1 = d.sq1 := by cases src <;> rfl
@[simp] theorem clearIrq_tri (src : IrqSource) (d : Dev) : (clearIrq src d).tri = d.tri := by cases src <;> rfl
@[simp] theorem clearIrq_noise (src : IrqSource) (d : Dev) : (clearIrq src d).noise = d.noise := by cases src <;> rfl
@[simp] theorem clearIrq_dmc (src : IrqSource) (d : Dev) : (clearIrq src d).dmc = d.dmc := by cases src <;> rfl
@[simp] theorem clearIrq_dc (src : IrqSource) (d : Dev) : (clearIrq src d).dc = d.dc := by cases src <;> rfl
@[simp] theorem clearIrq_ring (src : IrqSource) (d : Dev) : (clearIrq src d).ring = d.ring := by cases src <;> rfl
@[simp] theorem clearIrq_cfg (src : IrqSource) (d : Dev) : (clearIrq src d).cfg = d.cfg := by cases src <;> rfl
@[simp] theorem clearIrq_stolen (src : IrqSource) (d : Dev) : (clearIrq src d).stolen = d.stolen := by cases src <;> rfl
@[simp] theorem raiseIrq_frame_irq (d : Dev) : (raiseIrq .frame d).irq = { d.irq with frame := true } := rfl
@[simp] theorem raiseIrq_dmc_irq (d : Dev) : (raiseIrq .dmc d).irq = { d.irq with dmc := true } := rfl
@[simp] theorem clearIrq_frame_irq (d : Dev) : (clearIrq .frame d).irq = { d.irq with frame := false } := rfl
@[simp] theorem clearIrq_dmc_irq (d : Dev) : (clearIrq .dmc d).irq = { d.irq with dmc := false } := rfl
@[simp] theorem stealCycles_clk (n : Nat) (d : Dev) : (stealCycles n d).clk = d.clk := rfl
@[simp] theorem stealCycles_ctrl (n : Nat) (d : Dev) : (stealCycles n d).ctrl = d.ctrl := rfl
@[simp] theorem stealCycles_sq0 (n : Nat) (d : Dev) : (stealCycles n d).sq0 = d.sq0 := rfl
@[simp] theorem stealCycles_sq1 (n : Nat) (d : Dev) : (stealCycles n d).sq1 = d.sq1 := rfl
@[simp] theorem stealCycles_tri (n : Nat) (d : Dev) : (stealCycles n d).tri = d.tri := rfl
@[simp] theorem stealCycles_noise (n : Nat) (d : Dev) : (stealCycles n d).noise = d.noise := rfl
@[simp] theorem stealCycles_dmc (n : Nat) (d : Dev) : (stealCycles n d).dmc = d.dmc := rfl
@[simp] theorem stealCycles_dc (n : Nat) (d : Dev) : (stealCycles n d).dc = d.dc := rfl
@[simp] theorem stealCycles_ring (n : Nat) (d : Dev) : (stealCycles n d).ring = d.ring := rfl
@[simp] theorem stealCycles_cfg (n : Nat) (d : Dev) : (stealCycles n d).cfg = d.cfg := rfl
@[simp] theorem stealCycles_irq (n : Nat) (d : Dev) : (stealCycles n d).irq = d.irq := rfl
@[simp] theorem stealCycles_stolen (n : Nat) (d : Dev) : (stealCycles n d).stolen = d.stolen + n := rfl
@[simp] theorem extSetContext_clk (r x : Int) (d : Dev) : (extSetContext r x d).clk = d.clk := rfl
@[simp] theorem extSetContext_ctrl (r x : Int) (d : Dev) : (extSetContext r x d).ctrl = d.ctrl := rfl
@[simp] theorem extSetContext_sq0 (r x : Int) (d : Dev) : (extSetContext r x d).sq0 = d.sq0 := rfl
@[simp] theorem extSetContext_sq1 (r x : Int) (d : Dev) : (extSetContext r x d).sq1 = d.sq1 := rfl
@[simp] theorem extSetContext_tri (r x : Int) (d : Dev) : (extSetContext r x d).tri = d.tri := rfl
@[simp] theorem extSetContext_noise (r x : Int) (d : Dev) : (extSetContext r x d).noise = d.noise := rfl
@[simp] theorem extSetContext_dmc (r x : Int) (d : Dev) : (extSetContext r x d).dmc = d.dmc := rfl
@[simp] theorem extSetContext_dc (r x : Int) (d : Dev) : (extSetContext r x d).dc = d.dc := rfl
@[simp] theorem extSetContext_ring (r x : Int) (d : Dev) : (extSetContext r x d).ring = d.ring := rfl
@[simp] theorem extSetContext_cfg (r x : Int) (d : Dev) : (extSetContext r x d).cfg = d.cfg := rfl
@[simp] theorem extSetContext_irq (r x : Int) (d : Dev) : (extSetContext r x d).irq = d.irq := rfl
@[simp] theorem extSetContext_stolen (r x : Int) (d : Dev) : (extSetContext r x d).stolen = d.stolen := rfl

/-! ### The channels: `active <- CanOutput()` changes `active` alone -/

@[simp] theorem Square.refresh_duty (q : Square) : (q.refresh).duty = q.duty := rfl
@[simp] theorem Square.refresh_step (q : Square) : (q.refresh).step = q.step := rfl
@[simp] theorem Square.refresh_sweep (q : Square) : (q.refresh).sweep = q.sweep := rfl
@[simp] theorem Square.refresh_waveLength (q : Square) : (q.refresh).waveLength = q.waveLength := rfl
@[simp] theorem Square.refresh_validFrequency (q : Square) : (q.refresh).validFrequency = q.validFrequency := rfl
@[simp] theorem Square.refresh_env (q : Square) : (q.refresh).env = q.env := rfl
@[simp] theorem Square.refresh_len (q : Square) : (q.refresh).len = q.len := rfl
@[simp] theorem Square.refresh_active (q : Square) : (q.refresh).osc.active = q.canOutput := rfl
@[simp] theorem Square.refresh_timer (q : Square) : (q.refresh).osc.timer = q.osc.timer := rfl
@[simp] theorem Square.refresh_frequency (q : Square) : (q.refresh).osc.frequency = q.osc.frequency := rfl
@[simp] theorem Square.refresh_rate (q : Square) : (q.refresh).osc.rate = q.osc.rate := rfl
@[simp] theorem Square.refresh_fixed (q : Square) : (q.refresh).osc.fixed = q.osc.fixed := rfl
@[simp] theorem Square.refresh_amp (q : Square) : (q.refresh).osc.amp = q.osc.amp := rfl
@[simp] theorem Square.refresh_canOutput (q : Square) : (q.refresh).canOutput = q.canOutput := rfl
@[simp] theorem Triangle.refresh_step (P : Params) (q : Triangle) : (q.refresh P).step = q.step := rfl
@[simp] theorem Triangle.refresh_linearCounter (P : Params) (q : Triangle) : (q.refresh P).linearCounter = q.linearCounter := rfl
@[simp] theorem Triangle.refresh_linearCtrl (P : Params) (q : Triangle) : (q.refresh P).linearCtrl = q.linearCtrl := rfl
@[simp] theorem Triangle.refresh_status (P : Params) (q : Triangle) : (q.refresh P).status = q.status := rfl
@[simp] theorem Triangle.refresh_waveLength (P : Params) (q : Triangle) : (q.refresh P).waveLength = q.waveLength := rfl
@[simp] theorem Triangle.refresh_len (P : Params) (q : Triangle) : (q.refresh P).len = q.len := rfl
@[simp] theorem Triangle.refresh_active (P : Params) (q : Triangle) : (q.refresh P).osc.active = q.canOutput P := rfl
@[simp] theorem Triangle.refresh_timer (P : Params) (q : Triangle) : (q.refresh P).osc.timer = q.osc.timer := rfl
@[simp] theorem Triangle.refresh_frequency (P : Params) (q : Triangle) : (q.refresh P).osc.frequency = q.osc.frequency := rfl
@[simp] theorem Triangle.refresh_rate (P : Params) (q : Triangle) : (q.refresh P).osc.rate = q.osc.rate := rfl
@[simp] theorem Triangle.refresh_fixed (P : Params) (q : Triangle) : (q.refresh P).osc.fixed = q.osc.fixed := rfl
@[simp] theorem Triangle.refresh_amp (P : Params) (q : Triangle) : (q.refresh P).osc.amp = q.osc.amp := rfl
@[simp] theorem Triangle.refresh_canOutput (P : Params) (q : Triangle) : (q.refresh P).canOutput P = q.canOutput P := rfl
@[simp] theorem Noise.refresh_bits (q : Noise) : (q.refresh).bits = q.bits := rfl
@[simp] theorem Noise.refresh_shifter (q : Noise) : (q.refresh).shifter = q.shifter := rfl
@[simp] theorem Noise.refresh_periodIndex (q : Noise) : (q.refresh).periodIndex = q.periodIndex := rfl
@[simp] theorem Noise.refresh_env (q : Noise) : (q.refresh).env = q.env := rfl
@[simp] theorem Noise.refresh_len (q : Noise) : (q.refresh).len = q.len := rfl
@[simp] theorem Noise.refresh_active (q : Noise) : (q.refresh).osc.active = q.canOutput := rfl
@[simp] theorem Noise.refresh_timer (q : Noise) : (q.refresh).osc.timer = q.osc.timer := rfl
@[simp] theorem Noise.refresh_frequency (q : Noise) : (q.refresh).osc.frequency = q.osc.frequency := rfl
@[simp] theorem Noise.refresh_rate (q : Noise) : (q.refresh).osc.rate = q.osc.rate := rfl
@[simp] theorem Noise.refresh_fixed (q : Noise) : (q.refresh).osc.fixed = q.osc.fixed := rfl
@[simp] theorem Noise.refresh_amp (q : Noise) : (q.refresh).osc.amp = q.osc.amp := rfl
@[simp] theorem Noise.refresh_canOutput (q : Noise) : (q.refresh).canOutput = q.canOutput := rfl

end Sys2Proof.Machine
end

