-- ==== Sys2Proof/Laws/Params.lean ====
section
/-!
SUPPORT. The default parameters meet the constraints of 00_scope.md R10, and what a table lookup can give.
-/

namespace Sys2Proof.Machine

theorem params_valid : params.Valid where
  mMax_pos := by decide
  sqMinPeriod_eq := rfl
  sqMaxPeriod_eq := rfl
  dacMax_eq := rfl
  lengthMax_eq := rfl
  clockBase_pos := by intro tv; cases tv <;> decide
  baseDivider_pos := by intro tv; cases tv <;> decide
  cpuDiv_pos := by intro tv; cases tv <;> decide
  lengthTable_size := by decide
  lengthTable_le := by decide
  dutyTable_le := by decide
  triangleTable_le := by decide
  noisePeriod_size := by intro tv; cases tv <;> decide
  noisePeriod_pos := by intro tv; cases tv <;> decide
  dmcPeriod_size := by intro tv; cases tv <;> decide
  dmcPeriod_pos := by intro tv; cases tv <;> decide
  frameStep_size := by intro tv m; cases tv <;> cases m <;> decide
  frameStep_pos := by intro tv m; cases tv <;> cases m <;> decide
  frameIrqClocks_size := by intro tv; cases tv <;> decide
  frameIrqClocks_pos := by intro tv; cases tv <;> decide
  noiseSeed_ne := by decide
  dmcLinStep_pos := by decide
  sampleMin_le := by decide
  sampleMax_ge := by decide
  ringSize_pow := ⟨14, rfl⟩
  historySize_pow := ⟨6, rfl⟩

/-- A lookup meets what every entry and the default meet. -/
theorem getD_of_forall {α : Type} {p : α → Prop} {l : List α} {d : α} (hd : p d) (h : ∀ x ∈ l, p x) (i : Nat) :
    p (l.getD i d) := by
  rw [List.getD_eq_getElem?_getD]
  cases hx : l[i]? with
  | none => exact hd
  | some x => exact h x (List.mem_of_getElem? hx)

/-- A lookup inside the table meets what every entry meets. -/
theorem getD_of_lt {α : Type} {p : α → Prop} {l : List α} {d : α} (h : ∀ x ∈ l, p x) {i : Nat} (hi : i < l.length) :
    p (l.getD i d) := by
  rw [List.getD_eq_getElem?_getD, List.getElem?_eq_getElem hi]
  exact h _ (List.getElem_mem hi)

end Sys2Proof.Machine

namespace Sys2Proof.Params.Valid

open Sys2Proof.Machine

variable {P : Params} (hP : P.Valid)
include hP

theorem ringSize_pos : 0 < P.ringSize := by obtain ⟨k, h⟩ := hP.ringSize_pow; rw [h]; positivity
theorem historySize_pos : 0 < P.historySize := by obtain ⟨k, h⟩ := hP.historySize_pow; rw [h]; positivity

theorem cpuCycle_pos (tv : TvMode) {fixed : Int} (h : 0 < fixed) : 0 < (P.cpuDiv tv : Int) * fixed := by
  have := hP.cpuDiv_pos tv
  positivity

theorem noisePeriod_getD_pos (tv : TvMode) (i : BitVec 4) : 0 < (P.noisePeriod tv).getD i.toNat 0 :=
  getD_of_lt (hP.noisePeriod_pos tv) (by rw [hP.noisePeriod_size]; exact i.isLt)

theorem dmcPeriod_getD_pos (tv : TvMode) (i : BitVec 4) : 0 < (P.dmcPeriod tv).getD i.toNat 0 :=
  getD_of_lt (hP.dmcPeriod_pos tv) (by rw [hP.dmcPeriod_size]; exact i.isLt)

theorem frameStep_getD_pos (tv : TvMode) (m : Bool) (k : BitVec 2) : 0 < (P.frameStep tv m).getD k.toNat 0 :=
  getD_of_lt (hP.frameStep_pos tv m) (by rw [hP.frameStep_size]; exact k.isLt)

theorem frameIrqClocks_getD_pos (tv : TvMode) {k : Nat} (hk : k < 4) : 0 < (P.frameIrqClocks tv).getD k 0 :=
  getD_of_lt (hP.frameIrqClocks_pos tv) (by rw [hP.frameIrqClocks_size]; exact hk)

theorem lengthTable_getD_le (i : BitVec 5) : P.lengthTable.getD i.toNat 0 ≤ P.lengthMax :=
  getD_of_forall (p := (· ≤ P.lengthMax)) (Nat.zero_le _) hP.lengthTable_le _

theorem dutyTable_getD_le (i j : Nat) : (P.dutyTable.getD i []).getD j 0 ≤ 1 :=
  getD_of_forall (p := (· ≤ 1)) (Nat.zero_le _)
    (getD_of_forall (p := fun row => ∀ x ∈ row, x ≤ 1) (by simp) hP.dutyTable_le i) j

theorem triangleTable_getD_le (i : Nat) : P.triangleTable.getD i 0 ≤ 15 :=
  getD_of_forall (p := (· ≤ 15)) (Nat.zero_le _) hP.triangleTable_le i

end Sys2Proof.Params.Valid
end

