-- ==== Sys2Proof/Laws/Units.lean ====
section
/-!
SUPPORT. What the channels' own operations can do: each keeps the channel's invariant (60_exceptions.md R382).
-/

namespace Sys2Proof.Machine

variable {P : Params}

/-! ### Envelope and LengthCounter -/

theorem Envelope.updateOutput_inv {e : Envelope} (h : e.outputVolume = P.outputMul) : e.updateOutput.Inv P :=
  ⟨rfl, h⟩

theorem Envelope.Inv.write {e : Envelope} (h : e.Inv P) (d : Byte) : (e.write d).Inv P :=
  Envelope.updateOutput_inv h.unit

theorem Envelope.Inv.restart {e : Envelope} (h : e.Inv P) : e.restart.Inv P := ⟨h.output, h.unit⟩

theorem Envelope.Inv.clock {e : Envelope} (h : e.Inv P) : e.clock.Inv P := by
  unfold Envelope.clock
  split_ifs
  · exact Envelope.updateOutput_inv h.unit
  · exact ⟨h.output, h.unit⟩
  · exact Envelope.updateOutput_inv h.unit
  · exact Envelope.updateOutput_inv h.unit

theorem LengthCounter.Inv.enable {l : LengthCounter} (h : l.Inv P) (e : Bool) : (l.enable e).Inv P := by
  cases e
  · exact ⟨Nat.zero_le _, fun _ => rfl⟩
  · exact ⟨h.count_le, fun he => by simp [LengthCounter.enable] at he⟩

theorem LengthCounter.Inv.load (hP : P.Valid) {l : LengthCounter} (h : l.Inv P) (i : BitVec 5) :
    (l.load P i).Inv P := by
  unfold LengthCounter.load
  split_ifs with he
  · exact ⟨hP.lengthTable_getD_le i, fun hd => by simp [he] at hd⟩
  · exact h

theorem LengthCounter.Inv.clock {l : LengthCounter} (h : l.Inv P) (halt : Bool) : (l.clock halt).Inv P := by
  unfold LengthCounter.clock
  split_ifs
  · exact ⟨(Nat.sub_le _ _).trans h.count_le, fun hd => by have := h.disabled hd; simp [this]⟩
  · exact h

/-! ### Oscillator -/

theorem Osc.Inv.withActive {rate fixed : Int} {o : Osc} (h : o.Inv rate fixed) (a : Bool) :
    ({ o with active := a } : Osc).Inv rate fixed := ⟨h.timer, h.rate_eq, h.fixed_eq, h.frequency, h.amp⟩

theorem Osc.Inv.withFrequency {rate fixed f : Int} {o : Osc} (h : o.Inv rate fixed) (hf : 0 < f) :
    ({ o with frequency := f } : Osc).Inv rate fixed := ⟨h.timer, h.rate_eq, h.fixed_eq, hf, h.amp⟩

theorem squarePeriod_pos {cc : Int} (hcc : 0 < cc) (w : BitVec 11) : 0 < squarePeriod w cc := by
  unfold squarePeriod; positivity

theorem trianglePeriod_pos {cc : Int} (hcc : 0 < cc) (w : BitVec 11) : 0 < trianglePeriod w cc := by
  unfold trianglePeriod; positivity

theorem noiseStepLength_pos (hP : P.Valid) {cc : Int} (hcc : 0 < cc) (tv : TvMode) (i : BitVec 4) :
    0 < noiseStepLength P tv i cc := by
  have := hP.noisePeriod_getD_pos tv i
  unfold noiseStepLength; positivity

theorem dmcBitLength_pos (hP : P.Valid) {cc : Int} (hcc : 0 < cc) (tv : TvMode) (i : BitVec 4) :
    0 < dmcBitLength P tv i cc := by
  have := hP.dmcPeriod_getD_pos tv i
  unfold dmcBitLength; positivity

theorem dvd_squarePeriod (w : BitVec 11) (cc : Int) : cc ∣ squarePeriod w cc := Dvd.intro_left _ rfl

/-! ### Square -/

section Square

variable {rate fixed cc : Int} {q : Square}

/-- A channel whose parts are sound is sound once `active` is recomputed, if its period fields are. -/
theorem Square.refresh_inv (ho : q.osc.Inv rate fixed) (he : q.env.Inv P) (hl : q.len.Inv P) (hs : q.sweep.Inv)
    (hv : q.validFrequency = q.periodValid P)
    (hp : q.validFrequency = true → q.osc.frequency = squarePeriod q.waveLength cc) (hw : cc ∣ q.osc.frequency) :
    q.refresh.Inv P rate fixed cc :=
  ⟨rfl, ho.withActive _, he, hl, hs, hv, hp, hw⟩

/-- After `UpdateFrequency` the channel is sound if its other parts are (41_square.md R154). -/
theorem Square.updateFrequency_inv (hcc : 0 < cc) (ho : q.osc.Inv rate fixed) (he : q.env.Inv P) (hl : q.len.Inv P)
    (hs : q.sweep.Inv) (hw : cc ∣ q.osc.frequency) : (q.updateFrequency P cc).Inv P rate fixed cc := by
  unfold Square.updateFrequency
  split_ifs with h
  · exact Square.refresh_inv (ho.withFrequency (squarePeriod_pos hcc _)) he hl hs h.symm (fun _ => rfl)
      (dvd_squarePeriod _ _)
  · exact Square.refresh_inv ho he hl hs (Bool.eq_false_iff.mpr h).symm (fun h => by simp at h) hw

variable (h : q.Inv P rate fixed cc)
include h

theorem Square.Inv.writeR0 (f : FEnv) : (q.writeR0 f).Inv P rate fixed cc :=
  Square.refresh_inv h.osc (h.env.write _) h.len h.sweep h.valid h.period h.whole

theorem Square.Inv.writeR1 (hcc : 0 < cc) (f : FSweep) : (q.writeR1 P cc f).Inv P rate fixed cc := by
  refine Square.updateFrequency_inv hcc h.osc h.env h.len ?_ h.whole
  have hr : f.rate.toNat < 8 := f.rate.isLt
  cases hc : f.enable && decide (f.shift ≠ 0)
  · exact ⟨by simp, h.sweep.count_le, by simp, by simp⟩
  · refine ⟨?_, h.sweep.count_le, fun _ => ?_, by simp⟩
    · simp only [if_true]; omega
    · simp only [Bool.and_eq_true, decide_eq_true_eq] at hc; exact hc.2

theorem Square.Inv.writeR2 (hcc : 0 < cc) (f : FPlo) : (q.writeR2 P cc f).Inv P rate fixed cc :=
  Square.updateFrequency_inv hcc h.osc h.env h.len h.sweep h.whole

theorem Square.Inv.writeR3 (hP : P.Valid) (hcc : 0 < cc) (f : FPhi) : (q.writeR3 P cc f).Inv P rate fixed cc :=
  Square.updateFrequency_inv hcc h.osc h.env.restart (h.len.load hP _) h.sweep h.whole

theorem Square.Inv.enable (e : Bool) : (q.enable e).Inv P rate fixed cc :=
  Square.refresh_inv h.osc h.env (h.len.enable _) h.sweep h.valid h.period h.whole

theorem Square.Inv.clockEnvelope : q.clockEnvelope.Inv P rate fixed cc :=
  Square.refresh_inv h.osc h.env.clock h.len h.sweep h.valid h.period h.whole

theorem Square.Inv.clockLength : q.clockLength.Inv P rate fixed cc :=
  Square.refresh_inv h.osc h.env (h.len.clock _) h.sweep h.valid h.period h.whole

/-- A sound channel with another sound sweep unit of the same shift and direction is sound. -/
theorem Square.Inv.withSweep (w : Sweep) (hw : w.Inv) (hs : w.shift = q.sweep.shift)
    (hi : w.increase = q.sweep.increase) : ({ q with sweep := w } : Square).Inv P rate fixed cc := by
  obtain ⟨r, s, c, l, i⟩ := w
  simp only at hs hi
  subst hs hi
  exact ⟨h.active, h.osc, h.env, h.len, hw, h.valid, h.period, h.whole⟩

theorem Square.Inv.sweepPeriod (hcc : 0 < cc) (i : SquareId) : (q.sweepPeriod P i cc).Inv P rate fixed cc := by
  unfold Square.sweepPeriod
  split_ifs
  · exact Square.updateFrequency_inv hcc h.osc h.env h.len h.sweep h.whole
  · exact Square.updateFrequency_inv hcc h.osc h.env h.len h.sweep h.whole
  · exact h
  · exact h

theorem Square.Inv.sweepDivider (hcc : 0 < cc) (i : SquareId) : (q.sweepDivider P i cc).Inv P rate fixed cc := by
  unfold Square.sweepDivider
  have hs := h.sweep
  split_ifs with h1 h2
  · exact Square.Inv.sweepPeriod
      (h.withSweep { q.sweep with count := q.sweep.rate } ⟨hs.rate_le, hs.rate_le, hs.shift_ne, fun hr h0 => absurd h0 hr⟩ rfl rfl) hcc i
  · refine Square.Inv.withSweep h _ ⟨hs.rate_le, (Nat.sub_le _ _).trans hs.count_le, hs.shift_ne, fun hr h0 => ?_⟩ rfl rfl
    simp only at h0; omega
  · exact h

theorem Square.Inv.clockSweep (hcc : 0 < cc) (i : SquareId) : (q.clockSweep P i cc).Inv P rate fixed cc := by
  have hd := Square.Inv.sweepDivider h hcc i
  have hs := hd.sweep
  unfold Square.clockSweep
  simp only
  split_ifs
  · exact hd.withSweep { (q.sweepDivider P i cc).sweep with reload := false, count := (q.sweepDivider P i cc).sweep.rate }
      ⟨hs.rate_le, hs.rate_le, hs.shift_ne, fun hr h0 => absurd h0 hr⟩ rfl rfl
  · exact hd

omit h in
theorem dutyLevel_bounds (hP : P.Valid) (duty : BitVec 2) (step : BitVec 3) :
    0 ≤ dutyLevel P duty step ∧ dutyLevel P duty step ≤ 1 := by
  have := hP.dutyTable_getD_le duty.toNat step.toNat
  unfold dutyLevel; omega

omit h in
/-- What `GetSample` of a Square returns and leaves (41_square.md R156, R158): the timer is never below 0, an active
channel's amplitude lies between 0 and its level, an inactive one's never grows, and only the position, the timer
and the amplitude change. -/
theorem Square.getSample_spec (hP : P.Valid) (hr : 0 < q.osc.rate) (hf : 0 < q.osc.frequency)
    (ht : 0 ≤ q.osc.timer) :
    0 ≤ (q.getSample P).2.osc.timer ∧ (q.getSample P).1 = (q.getSample P).2.osc.amp ∧
      (q.osc.active = true → 0 ≤ (q.getSample P).1 ∧ (q.getSample P).1 ≤ q.env.output) ∧
      (q.osc.active = false → (q.getSample P).1 = decayed P q.osc.amp) ∧
      (q.getSample P).2 = { q with
        step := (q.getSample P).2.step,
        osc := { q.osc with timer := (q.getSample P).2.osc.timer, amp := (q.getSample P).2.osc.amp } } := by
  have hd := dutyLevel_bounds hP q.duty q.step
  have hv : (0 : Int) ≤ q.env.output := Int.natCast_nonneg _
  cases ha : q.osc.active
  · refine ⟨?_, ?_, by simp, fun _ => ?_, ?_⟩ <;> simp only [Square.getSample, ha, Bool.false_eq_true, if_false]
    exact stepsDue_timer_nonneg hf
  · rcases lt_or_ge (q.osc.timer - q.osc.rate) 0 with hn | hn
    · have hb := boxWalk_due_bounds (· + 1) (dutyLevel P q.duty) q.osc.frequency
        (fun x => dutyLevel_bounds hP q.duty x) hf q.step (q.osc.timer - q.osc.rate)
        (q.osc.timer * dutyLevel P q.duty q.step) hn
      have h0 : 0 ≤ q.osc.timer * dutyLevel P q.duty q.step := mul_nonneg ht hd.1
      have h1 : q.osc.timer * dutyLevel P q.duty q.step ≤ q.osc.timer := by nlinarith
      have hm := boxMean_bounds (v := q.env.output) (L := 1) hr hv (h0.trans hb.1) (by linarith [hb.2])
      refine ⟨?_, ?_, fun _ => ?_, by simp, ?_⟩ <;>
        simp only [Square.getSample, ha, if_true, if_neg (Int.not_le.mpr hn)]
      · rw [boxWalk_timer]; exact stepsDue_timer_nonneg hf
      · exact ⟨hm.1, by linarith [hm.2]⟩
    · refine ⟨?_, ?_, fun _ => ?_, by simp, ?_⟩ <;> simp only [Square.getSample, ha, if_true, if_pos hn]
      · exact hn
      · exact ⟨mul_nonneg hv hd.1, by nlinarith⟩

theorem Square.Inv.getSample (hP : P.Valid) (hr : 0 < rate) : (q.getSample P).2.Inv P rate fixed cc := by
  obtain ⟨h1, h2, h3, h4, h5⟩ := Square.getSample_spec (q := q) hP (by rw [h.osc.rate_eq]; exact hr)
    h.osc.frequency h.osc.timer
  have ha : 0 ≤ (q.getSample P).2.osc.amp := by
    rw [← h2]
    cases hc : q.osc.active
    · rw [h4 hc]; exact decayed_nonneg P
    · exact (h3 hc).1
  rw [h5]
  exact ⟨h.active, ⟨h1, h.osc.rate_eq, h.osc.fixed_eq, h.osc.frequency, ha⟩, h.env, h.len, h.sweep, h.valid,
    h.period, h.whole⟩

end Square

/-! ### Triangle -/

section Triangle

variable {rate fixed cc : Int} {r : Triangle}

theorem Triangle.refresh_inv (ho : r.osc.Inv rate fixed) (hl : r.len.Inv P)
    (hp : r.osc.frequency = trianglePeriod r.waveLength cc) : (r.refresh P).Inv P rate fixed cc :=
  ⟨rfl, ho.withActive _, hl, hp⟩

variable (h : r.Inv P rate fixed cc)
include h

theorem Triangle.Inv.writeR0 (f : FLin) : (r.writeR0 f).Inv P rate fixed cc :=
  ⟨h.active, h.osc, h.len, h.period⟩

theorem Triangle.Inv.writeR2 (hcc : 0 < cc) (f : FPlo) : (r.writeR2 P cc f).Inv P rate fixed cc :=
  Triangle.refresh_inv (h.osc.withFrequency (trianglePeriod_pos hcc _)) h.len rfl

theorem Triangle.Inv.writeR3 (hP : P.Valid) (hcc : 0 < cc) (f : FPhi) : (r.writeR3 P cc f).Inv P rate fixed cc :=
  Triangle.refresh_inv (h.osc.withFrequency (trianglePeriod_pos hcc _)) (h.len.load hP _) rfl

theorem Triangle.Inv.enable (e : Bool) : (r.enable P e).Inv P rate fixed cc :=
  Triangle.refresh_inv h.osc (h.len.enable _) h.period

theorem Triangle.Inv.clockLinear : (r.clockLinear P).Inv P rate fixed cc := by
  unfold Triangle.clockLinear
  split
  · split_ifs <;> exact Triangle.refresh_inv h.osc h.len h.period
  · exact Triangle.refresh_inv h.osc h.len h.period

theorem Triangle.Inv.clockLength : (r.clockLength P).Inv P rate fixed cc :=
  Triangle.refresh_inv h.osc (h.len.clock _) h.period

omit h in
theorem triangleLevel_bounds (hP : P.Valid) (step : BitVec 5) :
    0 ≤ triangleLevel P step ∧ triangleLevel P step ≤ 15 := by
  have := hP.triangleTable_getD_le step.toNat
  unfold triangleLevel; omega

omit h in
/-- What `GetSample` of the Triangle returns and leaves (42_triangle.md R187). -/
theorem Triangle.getSample_spec (hP : P.Valid) (hr : 0 < r.osc.rate) (hf : 0 < r.osc.frequency)
    (ht : 0 ≤ r.osc.timer) :
    0 ≤ (r.getSample P).2.osc.timer ∧ (r.getSample P).1 = (r.getSample P).2.osc.amp ∧
      (r.osc.active = true →
        0 ≤ (r.getSample P).1 ∧ (r.getSample P).1 ≤ 15 * ((P.outputMul : Int) * P.triWeight)) ∧
      (r.osc.active = false → (r.getSample P).1 = decayed P r.osc.amp ∧
        (r.getSample P).2.osc.timer = r.osc.timer ∧ (r.getSample P).2.step = r.step) ∧
      (r.getSample P).2 = { r with
        step := (r.getSample P).2.step,
        osc := { r.osc with timer := (r.getSample P).2.osc.timer, amp := (r.getSample P).2.osc.amp } } := by
  have hd := triangleLevel_bounds hP r.step
  have hv : (0 : Int) ≤ P.outputMul := Int.natCast_nonneg _
  have hw : (0 : Int) ≤ P.triWeight := Int.natCast_nonneg _
  have hvw : (0 : Int) ≤ (P.outputMul : Int) * P.triWeight := mul_nonneg hv hw
  cases ha : r.osc.active
  · refine ⟨?_, ?_, by simp, fun _ => ?_, ?_⟩ <;> simp only [Triangle.getSample, ha, Bool.false_eq_true, if_false]
    · exact ht
    · simp
  · rcases lt_or_ge (r.osc.timer - r.osc.rate) 0 with hn | hn
    · have hb := boxWalk_due_bounds (· + 1) (triangleLevel P) r.osc.frequency
        (fun x => triangleLevel_bounds hP x) hf r.step (r.osc.timer - r.osc.rate)
        (r.osc.timer * triangleLevel P r.step) hn
      have h0 : 0 ≤ r.osc.timer * triangleLevel P r.step := mul_nonneg ht hd.1
      have h1 : r.osc.timer * triangleLevel P r.step ≤ 15 * r.osc.timer := by nlinarith
      have hm := boxMean_bounds (v := P.outputMul) (L := 15) hr hv (h0.trans hb.1) (by linarith [hb.2])
      refine ⟨?_, ?_, fun _ => ?_, by simp, ?_⟩ <;>
        simp only [Triangle.getSample, ha, if_true, if_neg (Int.not_le.mpr hn)]
      · rw [boxWalk_timer]; exact stepsDue_timer_nonneg hf
      · refine ⟨mul_nonneg hm.1 hw, ?_⟩
        rw [← mul_assoc]
        exact mul_le_mul_of_nonneg_right hm.2 hw
    · refine ⟨?_, ?_, fun _ => ?_, by simp, ?_⟩ <;> simp only [Triangle.getSample, ha, if_true, if_pos hn]
      · exact hn
      · exact ⟨mul_nonneg hd.1 hvw, mul_le_mul_of_nonneg_right hd.2 hvw⟩

theorem Triangle.Inv.getSample (hP : P.Valid) (hr : 0 < rate) : (r.getSample P).2.Inv P rate fixed cc := by
  obtain ⟨h1, h2, h3, h4, h5⟩ := Triangle.getSample_spec (r := r) hP (by rw [h.osc.rate_eq]; exact hr)
    h.osc.frequency h.osc.timer
  have ha : 0 ≤ (r.getSample P).2.osc.amp := by
    rw [← h2]
    cases hc : r.osc.active
    · rw [(h4 hc).1]; exact decayed_nonneg P
    · exact (h3 hc).1
  rw [h5]
  exact ⟨h.active, ⟨h1, h.osc.rate_eq, h.osc.fixed_eq, h.osc.frequency, ha⟩, h.len, h.period⟩

end Triangle

/-! ### Noise -/

section Noise

variable {tv : TvMode} {rate fixed cc : Int} {c : Noise}

theorem Noise.refresh_inv (ho : c.osc.Inv rate fixed) (he : c.env.Inv P) (hl : c.len.Inv P)
    (hp : c.osc.frequency = noiseStepLength P tv c.periodIndex cc) (hb : c.bits ≠ 0) :
    c.refresh.Inv P tv rate fixed cc :=
  ⟨rfl, ho.withActive _, he, hl, hp, hb⟩

/-- A step of the LFSR shifts left and puts the feedback into bit 0 (43_noise.md R203). -/
theorem lfsrStep_getLsbD_succ (tap : Tap) (bits : BitVec 15) {i : Nat} (hi : i < 14) :
    (lfsrStep tap bits).getLsbD (i + 1) = bits.getLsbD i := by
  unfold lfsrStep
  simp only [BitVec.getLsbD_or, BitVec.getLsbD_shiftLeft, BitVec.getLsbD_setWidth]
  have h1 : i + 1 < 15 := by omega
  have h2 : ¬ i + 1 < 1 := by omega
  simp [h1]

theorem lfsrStep_getLsbD_zero (tap : Tap) (bits : BitVec 15) :
    (lfsrStep tap bits).getLsbD 0 = (bits.getLsbD 14 ^^ bits.getLsbD tap.position) := by
  unfold lfsrStep
  simp only [BitVec.getLsbD_or, BitVec.getLsbD_shiftLeft, BitVec.getLsbD_setWidth]
  simp

/-- `bits` never reaches 0 (43_noise.md R203). -/
theorem lfsrStep_ne_zero (tap : Tap) {bits : BitVec 15} (hb : bits ≠ 0) : lfsrStep tap bits ≠ 0 := by
  intro h0
  have low : ∀ i, i < 14 → bits.getLsbD i = false := fun i hi => by
    rw [← lfsrStep_getLsbD_succ tap bits hi, h0]; simp
  have top : bits.getLsbD 14 = false := by
    have h1 := lfsrStep_getLsbD_zero tap bits
    rw [h0, low tap.position (by cases tap <;> decide)] at h1
    simpa using h1.symm
  refine hb (BitVec.eq_of_getLsbD_eq fun i hi => ?_)
  rcases Nat.lt_or_ge i 14 with h | h
  · simp [low i h]
  · obtain rfl : i = 14 := by omega
    rw [top]; rfl

theorem lfsrSteps_ne_zero (tap : Tap) (n : Nat) {bits : BitVec 15} (hb : bits ≠ 0) : lfsrSteps tap n bits ≠ 0 := by
  induction n generalizing bits with
  | zero => exact hb
  | succ n ih => exact ih (lfsrStep_ne_zero tap hb)

theorem lfsrSteps_eq_iterate (tap : Tap) (n : Nat) (bits : BitVec 15) :
    lfsrSteps tap n bits = (lfsrStep tap)^[n] bits := by
  induction n generalizing bits with
  | zero => rfl
  | succ n ih => simp only [lfsrSteps, ih, Function.iterate_succ_apply]

theorem noiseOn_bounds (bits : BitVec 15) : 0 ≤ noiseOn bits ∧ noiseOn bits ≤ 1 := by
  unfold noiseOn; split_ifs <;> simp

/-- What `GetSample` of Noise returns and leaves (43_noise.md R206): the LFSR runs whether or not the channel is
active, by the steps that are due. -/
theorem Noise.getSample_spec (hr : 0 < c.osc.rate) (hf : 0 < c.osc.frequency) (ht : 0 ≤ c.osc.timer) :
    0 ≤ (c.getSample P).2.osc.timer ∧ (c.getSample P).1 = (c.getSample P).2.osc.amp ∧
      (c.osc.active = true →
        0 ≤ (c.getSample P).1 ∧ (c.getSample P).1 ≤ (c.env.output : Int) * P.noiseWeight) ∧
      (c.osc.active = false → (c.getSample P).1 = decayed P c.osc.amp) ∧
      (c.getSample P).2.bits =
        lfsrSteps c.shifter (stepsDue (c.osc.timer - c.osc.rate) c.osc.frequency) c.bits ∧
      (c.getSample P).2 = { c with
        bits := (c.getSample P).2.bits,
        osc := { c.osc with timer := (c.getSample P).2.osc.timer, amp := (c.getSample P).2.osc.amp } } := by
  have hd := noiseOn_bounds c.bits
  have hv : (0 : Int) ≤ c.env.output := Int.natCast_nonneg _
  have hw : (0 : Int) ≤ P.noiseWeight := Int.natCast_nonneg _
  cases ha : c.osc.active
  · refine ⟨?_, ?_, by simp, fun _ => ?_, ?_, ?_⟩ <;> simp only [Noise.getSample, ha, Bool.false_eq_true, if_false]
    exact stepsDue_timer_nonneg hf
  · rcases lt_or_ge (c.osc.timer - c.osc.rate) 0 with hn | hn
    · have hb := boxWalk_due_bounds (lfsrStep c.shifter) noiseOn c.osc.frequency noiseOn_bounds hf c.bits
        (c.osc.timer - c.osc.rate) (c.osc.timer * noiseOn c.bits) hn
      have h0 : 0 ≤ c.osc.timer * noiseOn c.bits := mul_nonneg ht hd.1
      have h1 : c.osc.timer * noiseOn c.bits ≤ c.osc.timer := by nlinarith
      have hm := boxMean_bounds (v := c.env.output) (L := 1) hr hv (h0.trans hb.1) (by linarith [hb.2])
      refine ⟨?_, ?_, fun _ => ?_, by simp, ?_, ?_⟩ <;>
        simp only [Noise.getSample, ha, if_true, if_neg (Int.not_le.mpr hn)]
      · rw [boxWalk_timer]; exact stepsDue_timer_nonneg hf
      · exact ⟨mul_nonneg hm.1 hw, mul_le_mul_of_nonneg_right (by linarith [hm.2]) hw⟩
      · rw [boxWalk_position, lfsrSteps_eq_iterate]
    · refine ⟨?_, ?_, fun _ => ?_, by simp, ?_, ?_⟩ <;> simp only [Noise.getSample, ha, if_true, if_pos hn]
      · exact hn
      · exact ⟨mul_nonneg (mul_nonneg hv hd.1) hw, mul_le_mul_of_nonneg_right (by nlinarith) hw⟩
      · rw [stepsDue_of_nonneg hn]; rfl

variable (h : c.Inv P tv rate fixed cc)
include h

theorem Noise.Inv.getSample (hr : 0 < rate) : (c.getSample P).2.Inv P tv rate fixed cc := by
  obtain ⟨h1, h2, h3, h4, h5, h6⟩ := Noise.getSample_spec (P := P) (c := c) (by rw [h.osc.rate_eq]; exact hr)
    h.osc.frequency h.osc.timer
  have ha : 0 ≤ (c.getSample P).2.osc.amp := by
    rw [← h2]
    cases hc : c.osc.active
    · rw [h4 hc]; exact decayed_nonneg P
    · exact (h3 hc).1
  have hb : (c.getSample P).2.bits ≠ 0 := h5 ▸ lfsrSteps_ne_zero _ _ h.bits
  rw [h6]
  exact ⟨h.active, ⟨h1, h.osc.rate_eq, h.osc.fixed_eq, h.osc.frequency, ha⟩, h.env, h.len, h.period, hb⟩

theorem Noise.Inv.writeR0 (f : FEnv) : (c.writeR0 f).Inv P tv rate fixed cc :=
  Noise.refresh_inv h.osc (h.env.write _) h.len h.period h.bits

theorem Noise.Inv.writeR2 (hP : P.Valid) (hcc : 0 < cc) (f : FNper) : (c.writeR2 P tv cc f).Inv P tv rate fixed cc :=
  ⟨h.active, h.osc.withFrequency (noiseStepLength_pos hP hcc _ _), h.env, h.len, rfl, h.bits⟩

theorem Noise.Inv.writeR3 (hP : P.Valid) (f : FPhi) : (c.writeR3 P f).Inv P tv rate fixed cc :=
  Noise.refresh_inv h.osc h.env.restart (h.len.load hP _) h.period h.bits

theorem Noise.Inv.enable (e : Bool) : (c.enable e).Inv P tv rate fixed cc :=
  Noise.refresh_inv h.osc h.env (h.len.enable _) h.period h.bits

theorem Noise.Inv.clockEnvelope : c.clockEnvelope.Inv P tv rate fixed cc :=
  Noise.refresh_inv h.osc h.env.clock h.len h.period h.bits

theorem Noise.Inv.clockLength : c.clockLength.Inv P tv rate fixed cc :=
  Noise.refresh_inv h.osc h.env (h.len.clock _) h.period h.bits

end Noise

/-! ### Dmc -/

section Dmc

variable {tv : TvMode} {cc : Int} {m : Dmc}

/-- `linSample` approaches `curSample`: the distance shrinks by the step, or to 0 (44_dmc.md R237). -/
theorem linStep_distance (P : Params) (cur lin : Int) :
    (cur - linStep P cur lin).natAbs = (cur - lin).natAbs - P.dmcLinStep := by
  unfold linStep
  split_ifs <;> omega

theorem linStep_nonneg {cur lin : Int} (hc : 0 ≤ cur) (hl : 0 ≤ lin) : 0 ≤ linStep P cur lin := by
  unfold linStep
  split_ifs <;> omega

/-- An address that has just been fetched from moves on inside `0x8000` to `0xFFFF` (44_dmc.md R229). -/
theorem Dma.fetched_address (b : Byte) (a : Dma) : 0x8000 ≤ (a.fetched b).address.toNat := by
  have h : ((a.fetched b).address).getLsbD 15 = true := by simp [Dma.fetched]
  have := BitVec.getLsbD_eq_getElem (x := (a.fetched b).address) (i := 15) (by decide)
  rw [h] at this
  have := BitVec.two_pow_le_toNat_of_getElem_eq_true (x := (a.fetched b).address) (i := 15) (by decide) this.symm
  simpa using this

end Dmc

end Sys2Proof.Machine
end

