-- ==== Sys2Proof/Laws/Synthesis.lean ====
section
/-!
SUPPORT. What the synthesis can do: the mixer, the sequencer's steps, the host-sample loop and `Update`
(49_output_and_synthesis.md R333).  Each part has a lemma for what it leaves alone, one for the invariant, and, for a
loop, one that says it runs until its condition fails.
-/

namespace Sys2Proof.Machine

variable {P : Params} {d : Dev}

/-- What no part of the synthesis touches: the settings, the control latch, the interrupts, the stolen cycles, the
scale, the Dmc's and the frame IRQ's clocks, and of the Dmc everything but `linSample`. -/
structure Dev.Untouched (d e : Dev) : Prop where
  cfg : e.cfg = d.cfg
  ctrl : e.ctrl = d.ctrl
  irq : e.irq = d.irq
  stolen : e.stolen = d.stolen
  fixed : e.clk.fixed = d.clk.fixed
  rate : e.clk.rate = d.clk.rate
  dmcClock : e.clk.dmcClock = d.clk.dmcClock
  frameIrqClock : e.clk.frameIrqClock = d.clk.frameIrqClock
  frameIrqRepeat : e.clk.frameIrqRepeat = d.clk.frameIrqRepeat
  dmc : e.dmc = { d.dmc with linSample := e.dmc.linSample }

theorem Dev.Untouched.refl (d : Dev) : d.Untouched d := ⟨rfl, rfl, rfl, rfl, rfl, rfl, rfl, rfl, rfl, rfl⟩

theorem Dev.Untouched.trans {d e f : Dev} (h : d.Untouched e) (g : e.Untouched f) : d.Untouched f where
  cfg := g.cfg.trans h.cfg
  ctrl := g.ctrl.trans h.ctrl
  irq := g.irq.trans h.irq
  stolen := g.stolen.trans h.stolen
  fixed := g.fixed.trans h.fixed
  rate := g.rate.trans h.rate
  dmcClock := g.dmcClock.trans h.dmcClock
  frameIrqClock := g.frameIrqClock.trans h.frameIrqClock
  frameIrqRepeat := g.frameIrqRepeat.trans h.frameIrqRepeat
  dmc := by rw [g.dmc, h.dmc]

theorem Dev.Untouched.cc {d e : Dev} (h : d.Untouched e) : e.cc P = d.cc P := by
  unfold Dev.cc; rw [h.cfg, h.fixed]

/-! ### The invariant's positive numbers -/

theorem cpuCycle_pos (hP : P.Valid) (tv : TvMode) {fixed : Int} (h : 0 < fixed) : 0 < cpuCycle P tv fixed :=
  hP.cpuCycle_pos tv h

theorem frameGap_pos (hP : P.Valid) (tv : TvMode) (m : Bool) (k : BitVec 2) {fixed : Int} (h : 0 < fixed) :
    0 < frameGap P tv m k fixed :=
  mul_pos (by exact_mod_cast hP.frameStep_getD_pos tv m k) (cpuCycle_pos hP tv h)

theorem irqGap_pos (hP : P.Valid) (tv : TvMode) {k : Nat} (hk : k < 4) {fixed : Int} (h : 0 < fixed) :
    0 < irqGap P tv k fixed :=
  mul_pos (by exact_mod_cast hP.frameIrqClocks_getD_pos tv hk) (cpuCycle_pos hP tv h)

theorem dvd_cpuCycle (P : Params) (tv : TvMode) (fixed : Int) : fixed ∣ cpuCycle P tv fixed := Dvd.intro_left _ rfl

theorem dvd_frameGap (P : Params) (tv : TvMode) (m : Bool) (k : BitVec 2) (fixed : Int) :
    fixed ∣ frameGap P tv m k fixed := Dvd.dvd.mul_left (dvd_cpuCycle P tv fixed) _

theorem dvd_irqGap (P : Params) (tv : TvMode) (k : Nat) (fixed : Int) : fixed ∣ irqGap P tv k fixed :=
  Dvd.dvd.mul_left (dvd_cpuCycle P tv fixed) _

theorem dvd_dmcBitLength (P : Params) (tv tv' : TvMode) (i : BitVec 4) (fixed : Int) :
    fixed ∣ dmcBitLength P tv i (cpuCycle P tv' fixed) := Dvd.dvd.mul_left (dvd_cpuCycle P tv' fixed) _

theorem Dev.Inv.cc_pos (hP : P.Valid) (h : d.Inv P) : 0 < d.cc P := cpuCycle_pos hP _ h.clk.fixed_pos

/-! ### The ring -/

theorem Ring.Inv.push (hP : P.Valid) {r : Ring} (h : r.Inv P) {s : Int} (hs : P.sampleMin ≤ s ∧ s ≤ P.sampleMax) :
    (r.push P s).Inv P where
  pos := Nat.mod_lt _ hP.ringSize_pos
  start := by
    simp only [Ring.push]
    split_ifs
    · exact Nat.mod_lt _ hP.ringSize_pos
    · exact h.start
  output_wf := samplesWf_putSample h.output_wf _ _
  output_index := fun c hc => by
    rcases mem_putSample hc with rfl | hc
    · exact h.pos
    · exact h.output_index c hc
  output_range := fun c hc => by
    rcases mem_putSample hc with rfl | hc
    · exact hs
    · exact h.output_range c hc
  history_wf := h.history_wf
  history_index := h.history_index
  history_range := h.history_range

/-! ### The mixer -/

theorem mixSample_range (hP : P.Valid) (d : Dev) :
    P.sampleMin ≤ (mixSample P d).1 ∧ (mixSample P d).1 ≤ P.sampleMax :=
  clampInt_bounds (hP.sampleMin_le.trans hP.sampleMax_ge)

theorem mixSample_untouched (P : Params) (d : Dev) : d.Untouched (mixSample P d).2 :=
  ⟨rfl, rfl, rfl, rfl, rfl, rfl, rfl, rfl, rfl, rfl⟩

@[simp] theorem mixSample_clk (P : Params) (d : Dev) : (mixSample P d).2.clk = d.clk := rfl
@[simp] theorem mixSample_ring (P : Params) (d : Dev) : (mixSample P d).2.ring = d.ring := rfl

theorem mixSample_inv (hP : P.Valid) (h : d.Inv P) : (mixSample P d).2.Inv P :=
  ⟨h.cfg, h.clk, h.sq0.getSample hP h.clk.rate_pos, h.sq1.getSample hP h.clk.rate_pos,
    h.tri.getSample hP h.clk.rate_pos, h.noise.getSample h.clk.rate_pos,
    ⟨h.dmc.dac, h.dmc.address, h.dmc.remaining, h.dmc.regAddress, h.dmc.regLength_pos, h.dmc.regLength_le,
      h.dmc.period, h.dmc.level, linStep_nonneg (by rw [h.dmc.level]; positivity) h.dmc.smooth⟩, h.ring⟩

/-! ### The sequencer -/

theorem clockOscillators_inv (hP : P.Valid) (h : d.Inv P) (odd : Bool) : (clockOscillators P odd d).Inv P := by
  have he : (clockEnvelopes P d).Inv P :=
    ⟨h.cfg, h.clk, h.sq0.clockEnvelope, h.sq1.clockEnvelope, h.tri.clockLinear, h.noise.clockEnvelope, h.dmc, h.ring⟩
  unfold clockOscillators
  split_ifs
  · have hcc := he.cc_pos hP
    exact ⟨he.cfg, he.clk, he.sq0.clockLength.clockSweep hcc _, he.sq1.clockLength.clockSweep hcc _,
      he.tri.clockLength, he.noise.clockLength, he.dmc, he.ring⟩
  · exact he

/-- `ClockOscillators` changes the four oscillator channels only (45_frame_sequencer.md R254). -/
theorem clockOscillators_rest (P : Params) (odd : Bool) (d : Dev) :
    clockOscillators P odd d = { d with
      sq0 := (clockOscillators P odd d).sq0
      sq1 := (clockOscillators P odd d).sq1
      tri := (clockOscillators P odd d).tri
      noise := (clockOscillators P odd d).noise } := by
  cases odd <;> rfl

theorem clockFrameSequencer_clk (P : Params) (d : Dev) :
    (clockFrameSequencer P d).clk = { d.clk with
      frameDivider := d.clk.frameDivider + 1
      frameCounter := d.clk.frameCounter +
        frameGap P d.cfg.tv d.ctrl.mode5 (d.clk.frameDivider + 1) d.clk.fixed } := rfl

theorem clockFrameSequencer_untouched (P : Params) (d : Dev) : d.Untouched (clockFrameSequencer P d) := by
  unfold clockFrameSequencer clockOscillators
  split_ifs <;> exact ⟨rfl, rfl, rfl, rfl, rfl, rfl, rfl, rfl, rfl, rfl⟩

@[simp] theorem clockFrameSequencer_ring (P : Params) (d : Dev) : (clockFrameSequencer P d).ring = d.ring := by
  unfold clockFrameSequencer clockOscillators; split_ifs <;> rfl
@[simp] theorem clockFrameSequencer_dc (P : Params) (d : Dev) : (clockFrameSequencer P d).dc = d.dc := by
  unfold clockFrameSequencer clockOscillators; split_ifs <;> rfl
@[simp] theorem clockFrameSequencer_dmc (P : Params) (d : Dev) : (clockFrameSequencer P d).dmc = d.dmc := by
  unfold clockFrameSequencer clockOscillators; split_ifs <;> rfl

/-- A device with another sound clock of the same scale is sound. -/
theorem Dev.Inv.withClk (h : d.Inv P) {c : ClockModel} (hc : c.Inv P d.cfg d.ctrl) (hf : c.fixed = d.clk.fixed)
    (hr : c.rate = d.clk.rate) : ({ d with clk := c } : Dev).Inv P := by
  have hcc : ({ d with clk := c } : Dev).cc P = d.cc P := by simp [Dev.cc, hf]
  refine ⟨h.cfg, hc, ?_, ?_, ?_, ?_, ?_, h.ring⟩
  · rw [hcc]; show Square.Inv P c.rate c.fixed _ _; rw [hf, hr]; exact h.sq0
  · rw [hcc]; show Square.Inv P c.rate c.fixed _ _; rw [hf, hr]; exact h.sq1
  · rw [hcc]; show Triangle.Inv P c.rate c.fixed _ _; rw [hf, hr]; exact h.tri
  · rw [hcc]; show Noise.Inv P _ c.rate c.fixed _ _; rw [hf, hr]; exact h.noise
  · rw [hcc]; exact h.dmc

theorem clockFrameSequencer_inv (hP : P.Valid) (h : d.Inv P) : (clockFrameSequencer P d).Inv P := by
  have ho := clockOscillators_inv hP h (d.clk.frameDivider.getLsbD 0)
  have hrest := clockOscillators_rest P (d.clk.frameDivider.getLsbD 0) d
  have hk := h.clk
  have hg := frameGap_pos hP d.cfg.tv d.ctrl.mode5 (d.clk.frameDivider + 1) hk.fixed_pos
  unfold clockFrameSequencer
  rw [hrest] at ho ⊢
  refine ho.withClk ?_ rfl rfl
  exact ⟨hk.fixed_pos, hk.rate_pos, hk.fixed_eq, hk.rate_eq, dvd_add hk.frame_whole (dvd_frameGap _ _ _ _ _),
    hk.dmc_whole, hk.irq_whole, hk.irq_finite, hk.rateCounter, add_nonneg hk.frameCounter hg.le, hk.dmcClock, hk.ext⟩

theorem drainSteps_untouched (P : Params) (limit : Int) (fuel : Nat) (d : Dev) :
    d.Untouched (drainSteps P limit fuel d) := by
  induction fuel generalizing d with
  | zero => exact .refl d
  | succ n ih =>
    unfold drainSteps
    split_ifs
    · exact (clockFrameSequencer_untouched P d).trans (ih _)
    · exact .refl d

theorem runSequencer_untouched (P : Params) (limit : Int) (d : Dev) : d.Untouched (runSequencer P limit d) :=
  drainSteps_untouched _ _ _ _

/-- A run of sequencer steps is a number of steps, each due when it is taken. -/
theorem drainSteps_iterate (P : Params) (limit : Int) (fuel : Nat) (d : Dev) :
    ∃ j, drainSteps P limit fuel d = (clockFrameSequencer P)^[j] d ∧
      ∀ k < j, ((clockFrameSequencer P)^[k] d).clk.frameCounter < limit := by
  induction fuel generalizing d with
  | zero => exact ⟨0, rfl, by simp⟩
  | succ n ih =>
    unfold drainSteps
    split_ifs with hlt
    · obtain ⟨j, h1, h2⟩ := ih (clockFrameSequencer P d)
      refine ⟨j + 1, h1, fun k hk => ?_⟩
      cases k with
      | zero => exact hlt
      | succ k => exact h2 k (by omega)
    · exact ⟨0, rfl, by simp⟩

/-- Everything a run of sequencer steps can do. -/
theorem drainSteps_spec (hP : P.Valid) (limit : Int) (fuel : Nat) (h : d.Inv P) :
    (drainSteps P limit fuel d).Inv P ∧ d.Untouched (drainSteps P limit fuel d) ∧
      (drainSteps P limit fuel d).ring = d.ring ∧
      (drainSteps P limit fuel d).clk.rateCounter = d.clk.rateCounter ∧
      d.clk.frameCounter ≤ (drainSteps P limit fuel d).clk.frameCounter ∧
      ((limit - d.clk.frameCounter).toNat ≤ fuel → limit ≤ (drainSteps P limit fuel d).clk.frameCounter) := by
  induction fuel generalizing d with
  | zero => exact ⟨h, .refl d, rfl, rfl, le_rfl, fun hf => by simp only [drainSteps]; omega⟩
  | succ n ih =>
    unfold drainSteps
    split_ifs with hlt
    · have hg := frameGap_pos hP d.cfg.tv d.ctrl.mode5 (d.clk.frameDivider + 1) h.clk.fixed_pos
      have hc : (clockFrameSequencer P d).clk.frameCounter =
          d.clk.frameCounter + frameGap P d.cfg.tv d.ctrl.mode5 (d.clk.frameDivider + 1) d.clk.fixed := rfl
      obtain ⟨h1, h2, h3, h4, h5, h6⟩ := ih (clockFrameSequencer_inv hP h)
      refine ⟨h1, (clockFrameSequencer_untouched P d).trans h2, h3.trans (by simp), h4, by omega, fun hf => h6 ?_⟩
      omega
    · exact ⟨h, .refl d, rfl, rfl, le_rfl, fun _ => by omega⟩

/-- Everything `while clk.frameCounter < limit do ClockFrameSequencer()` can do: it ends with no step due. -/
theorem runSequencer_spec (hP : P.Valid) (limit : Int) (h : d.Inv P) :
    (runSequencer P limit d).Inv P ∧ d.Untouched (runSequencer P limit d) ∧
      (runSequencer P limit d).ring = d.ring ∧
      (runSequencer P limit d).clk.rateCounter = d.clk.rateCounter ∧
      d.clk.frameCounter ≤ (runSequencer P limit d).clk.frameCounter ∧
      limit ≤ (runSequencer P limit d).clk.frameCounter := by
  obtain ⟨h1, h2, h3, h4, h5, h6⟩ := drainSteps_spec hP limit (limit - d.clk.frameCounter).toNat h
  exact ⟨h1, h2, h3, h4, h5, h6 le_rfl⟩

/-- With no step due nothing happens. -/
theorem runSequencer_idle {limit : Int} (h : limit ≤ d.clk.frameCounter) : runSequencer P limit d = d := by
  unfold runSequencer
  rw [show (limit - d.clk.frameCounter).toNat = 0 by omega]
  rfl

/-! ### The host-sample loop -/

/-- With the external channel at `INF` its clock does nothing. -/
theorem clockExt_inf {t : Int} (h : d.clk.extCounter = none) : clockExt t d = d := by
  unfold clockExt; rw [h]

theorem clockExt_untouched (t : Int) (d : Dev) : d.Untouched (clockExt t d) := by
  unfold clockExt
  split
  · split_ifs <;> exact ⟨rfl, rfl, rfl, rfl, rfl, rfl, rfl, rfl, rfl, rfl⟩
  · exact .refl d

theorem hostSample_untouched (P : Params) (d : Dev) : d.Untouched (hostSample P d) := by
  have h1 : d.Untouched ({ (mixSample P d).2 with ring := (mixSample P d).2.ring.push P (mixSample P d).1 } : Dev) :=
    ⟨rfl, rfl, rfl, rfl, rfl, rfl, rfl, rfl, rfl, rfl⟩
  have hk := (h1.trans (runSequencer_untouched P (d.clk.rateCounter + 1) _)).trans
    (clockExt_untouched d.clk.rateCounter _)
  exact ⟨hk.cfg, hk.ctrl, hk.irq, hk.stolen, hk.fixed, hk.rate, hk.dmcClock, hk.frameIrqClock, hk.frameIrqRepeat,
    hk.dmc⟩

theorem synthLoop_untouched (P : Params) (t : Int) (fuel : Nat) (d : Dev) : d.Untouched (synthLoop P t fuel d) := by
  induction fuel generalizing d with
  | zero => exact .refl d
  | succ n ih =>
    unfold synthLoop
    split_ifs
    · exact (hostSample_untouched P d).trans (ih _)
    · exact .refl d

/-- `Update` leaves the fields of `Dev.Untouched` alone in every state. -/
theorem update_untouched (P : Params) (t : Int) (d : Dev) : d.Untouched (update P t d) := by
  unfold update
  refine Dev.Untouched.trans ?_ (runSequencer_untouched P t _)
  cases d.cfg.synth
  · exact synthLoop_untouched P t _ d
  · have h1 : d.Untouched ({ d with clk := { d.clk with rateCounter := max d.clk.rateCounter t } } : Dev) :=
      ⟨rfl, rfl, rfl, rfl, rfl, rfl, rfl, rfl, rfl, rfl⟩
    exact h1.trans (clockExt_untouched t _)

/-- The loop is a number of passes, each begun before `t`. -/
theorem synthLoop_iterate (P : Params) (t : Int) (fuel : Nat) (d : Dev) :
    ∃ n, synthLoop P t fuel d = (hostSample P)^[n] d ∧ ∀ k < n, ((hostSample P)^[k] d).clk.rateCounter < t := by
  induction fuel generalizing d with
  | zero => exact ⟨0, rfl, by simp⟩
  | succ m ih =>
    unfold synthLoop
    split_ifs with hlt
    · obtain ⟨n, h1, h2⟩ := ih (hostSample P d)
      refine ⟨n + 1, h1, fun k hk => ?_⟩
      cases k with
      | zero => exact hlt
      | succ k => exact h2 k (by omega)
    · exact ⟨0, rfl, by simp⟩

/-- Everything one pass of the loop can do: one sample pushed, one sample time on. -/
theorem hostSample_spec (hP : P.Valid) (h : d.Inv P) :
    (hostSample P d).Inv P ∧ d.Untouched (hostSample P d) ∧
      (hostSample P d).ring = d.ring.push P (mixSample P d).1 ∧
      (hostSample P d).clk.rateCounter = d.clk.rateCounter + d.clk.rate ∧
      d.clk.frameCounter ≤ (hostSample P d).clk.frameCounter := by
  have hm := mixSample_inv hP h
  have h1 : ({ (mixSample P d).2 with ring := d.ring.push P (mixSample P d).1 } : Dev).Inv P :=
    ⟨hm.cfg, hm.clk, hm.sq0, hm.sq1, hm.tri, hm.noise, hm.dmc, h.ring.push hP (mixSample_range hP d)⟩
  obtain ⟨g1, g2, g3, g4, g5, g6⟩ := runSequencer_spec hP (d.clk.rateCounter + 1) h1
  have hu : d.Untouched ({ (mixSample P d).2 with ring := d.ring.push P (mixSample P d).1 } : Dev) :=
    ⟨rfl, rfl, rfl, rfl, rfl, rfl, rfl, rfl, rfl, rfl⟩
  have hk := hu.trans g2
  unfold hostSample
  simp only [mixSample_ring]
  rw [clockExt_inf g1.clk.ext]
  clear hm h1 hu
  generalize runSequencer P (d.clk.rateCounter + 1)
    ({ (mixSample P d).2 with ring := d.ring.push P (mixSample P d).1 } : Dev) = e at *
  refine ⟨g1.withClk ?_ rfl rfl, ⟨hk.cfg, hk.ctrl, hk.irq, hk.stolen, hk.fixed, hk.rate, hk.dmcClock,
    hk.frameIrqClock, hk.frameIrqRepeat, hk.dmc⟩, g3, trivial, g5⟩
  have hc := g1.clk
  exact ⟨hc.fixed_pos, hc.rate_pos, hc.fixed_eq, hc.rate_eq, hc.frame_whole, hc.dmc_whole, hc.irq_whole,
    hc.irq_finite, add_nonneg h.clk.rateCounter h.clk.rate_pos.le, hc.frameCounter, hc.dmcClock, hc.ext⟩

/-- Everything the loop can do: with enough passes it ends at or after `t`. -/
theorem synthLoop_spec (hP : P.Valid) (t : Int) (fuel : Nat) (h : d.Inv P) :
    (synthLoop P t fuel d).Inv P ∧ d.Untouched (synthLoop P t fuel d) ∧
      d.clk.frameCounter ≤ (synthLoop P t fuel d).clk.frameCounter ∧
      d.clk.rateCounter ≤ (synthLoop P t fuel d).clk.rateCounter ∧
      ((t - d.clk.rateCounter).toNat ≤ fuel → t ≤ (synthLoop P t fuel d).clk.rateCounter) := by
  induction fuel generalizing d with
  | zero => exact ⟨h, .refl d, le_rfl, le_rfl, fun hf => by simp only [synthLoop]; omega⟩
  | succ n ih =>
    unfold synthLoop
    split_ifs with hlt
    · obtain ⟨g1, g2, g3, g4, g5⟩ := hostSample_spec hP h
      have hr := h.clk.rate_pos
      obtain ⟨h1, h2, h3, h4, h5⟩ := ih g1
      exact ⟨h1, g2.trans h2, g5.trans h3, by omega, fun hf => h5 (by omega)⟩
    · exact ⟨h, .refl d, le_rfl, le_rfl, fun _ => by omega⟩

/-- Everything `Update(t)` can do (49_output_and_synthesis.md R333): it keeps the invariant, touches none of the
fields of `Dev.Untouched`, and ends with no sample and no sequencer step before `t` still to come. -/
theorem update_spec (hP : P.Valid) (t : Int) (h : d.Inv P) :
    (update P t d).Inv P ∧ d.Untouched (update P t d) ∧
      t ≤ (update P t d).clk.rateCounter ∧ t ≤ (update P t d).clk.frameCounter ∧
      d.clk.rateCounter ≤ (update P t d).clk.rateCounter ∧
      d.clk.frameCounter ≤ (update P t d).clk.frameCounter := by
  unfold update
  cases d.cfg.synth
  · obtain ⟨g1, g2, g3, g4, g5⟩ := synthLoop_spec hP t (t - d.clk.rateCounter).toNat h
    obtain ⟨h1, h2, h3, h4, h5, h6⟩ := runSequencer_spec hP t g1
    have g5 := g5 le_rfl
    simp only [synthPath]
    exact ⟨h1, g2.trans h2, by omega, h6, by omega, by omega⟩
  · have hk := h.clk
    have he : advancePath t d = { d with clk := { d.clk with rateCounter := max d.clk.rateCounter t } } := by
      unfold advancePath; exact clockExt_inf hk.ext
    have hi : (advancePath t d).Inv P := by
      rw [he]
      refine h.withClk ?_ rfl rfl
      exact ⟨hk.fixed_pos, hk.rate_pos, hk.fixed_eq, hk.rate_eq, hk.frame_whole, hk.dmc_whole, hk.irq_whole,
        hk.irq_finite, hk.rateCounter.trans (le_max_left _ _), hk.frameCounter, hk.dmcClock, hk.ext⟩
    have hu : d.Untouched (advancePath t d) := by
      rw [he]; exact ⟨rfl, rfl, rfl, rfl, rfl, rfl, rfl, rfl, rfl, rfl⟩
    have hr : (advancePath t d).clk.rateCounter = max d.clk.rateCounter t := by rw [he]
    have hf : (advancePath t d).clk.frameCounter = d.clk.frameCounter := by rw [he]
    obtain ⟨h1, h2, h3, h4, h5, h6⟩ := runSequencer_spec hP t hi
    simp only
    exact ⟨h1, hu.trans h2, by omega, h6, by omega, by omega⟩

/-! ### The sample grid (60_exceptions.md R382, I15) -/

@[simp] theorem drainSteps_rateCounter (P : Params) (limit : Int) (fuel : Nat) (d : Dev) :
    (drainSteps P limit fuel d).clk.rateCounter = d.clk.rateCounter := by
  induction fuel generalizing d with
  | zero => rfl
  | succ n ih =>
    unfold drainSteps
    split_ifs
    · rw [ih, clockFrameSequencer_clk]
    · rfl

@[simp] theorem clockExt_rateCounter (t : Int) (d : Dev) : (clockExt t d).clk.rateCounter = d.clk.rateCounter := by
  unfold clockExt
  split
  · split_ifs <;> rfl
  · rfl

theorem hostSample_onSampleGrid (h : d.clk.OnSampleGrid) : (hostSample P d).clk.OnSampleGrid := by
  unfold ClockModel.OnSampleGrid at *
  rw [(hostSample_untouched P d).rate]
  exact dvd_add h dvd_rfl

theorem synthLoop_onSampleGrid (t : Int) (fuel : Nat) (h : d.clk.OnSampleGrid) :
    (synthLoop P t fuel d).clk.OnSampleGrid := by
  induction fuel generalizing d with
  | zero => exact h
  | succ n ih =>
    unfold synthLoop
    split_ifs
    · exact ih (hostSample_onSampleGrid h)
    · exact h

/-- On the `SYNTH` path `Update` moves the sample time by whole samples. -/
theorem update_onSampleGrid (t : Int) (hs : d.cfg.synth = .synth) (h : d.clk.OnSampleGrid) :
    (update P t d).clk.OnSampleGrid := by
  unfold update
  rw [hs]
  have hg := synthLoop_onSampleGrid (P := P) t (t - d.clk.rateCounter).toNat h
  unfold ClockModel.OnSampleGrid at *
  rw [(runSequencer_untouched P t _).rate]
  unfold runSequencer
  rw [drainSteps_rateCounter]
  exact hg

/-- `Update(t)` with nothing due before `t` changes nothing (49_output_and_synthesis.md R333 (a)), the external channel
being at `INF`. -/
theorem update_idle {t : Int} (hr : t ≤ d.clk.rateCounter) (hf : t ≤ d.clk.frameCounter)
    (he : d.clk.extCounter = none) : update P t d = d := by
  unfold update
  cases d.cfg.synth
  · have : synthPath P t d = d := by
      unfold synthPath; rw [show (t - d.clk.rateCounter).toNat = 0 by omega]; rfl
    simp only [this]
    exact runSequencer_idle hf
  · have : advancePath t d = d := by
      unfold advancePath
      rw [max_eq_left hr]
      exact clockExt_inf he
    simp only [this]
    exact runSequencer_idle hf

end Sys2Proof.Machine
end

