-- ==== Sys2Proof/Laws/Dmc.lean ====
section
/-!
SUPPORT. What the Dmc's DMA controller, its output unit and its clock can do (44_dmc.md R228 to R236): what each
leaves alone, that it keeps the invariant, and that a run of clocks ends with none due.
-/

namespace Sys2Proof.Machine

variable {P : Params} {d : Dev} {s : State}

/-! ### The invariant under changes outside the clock and the channels -/

theorem Dev.Inv.withDmc (h : d.Inv P) {m : Dmc} (hm : m.Inv P d.cfg.tv (d.cc P)) : ({ d with dmc := m } : Dev).Inv P :=
  ⟨h.cfg, h.clk, h.sq0, h.sq1, h.tri, h.noise, hm, h.ring⟩

theorem Dev.Inv.withIrq (h : d.Inv P) (i : IrqView) : ({ d with irq := i } : Dev).Inv P :=
  ⟨h.cfg, h.clk, h.sq0, h.sq1, h.tri, h.noise, h.dmc, h.ring⟩

theorem Dev.Inv.withRing (h : d.Inv P) {r : Ring} (hr : r.Inv P) : ({ d with ring := r } : Dev).Inv P :=
  ⟨h.cfg, h.clk, h.sq0, h.sq1, h.tri, h.noise, h.dmc, hr⟩

theorem raiseIrq_inv (h : d.Inv P) (src : IrqSource) : (raiseIrq src d).Inv P := by
  cases src <;> exact h.withIrq _

theorem clearIrq_inv (h : d.Inv P) (src : IrqSource) : (clearIrq src d).Inv P := by
  cases src <;> exact h.withIrq _

/-- A change of the bounded part of the DMA half keeps the Dmc's invariant. -/
theorem Dmc.Inv.withDma {tv : TvMode} {cc : Int} {m : Dmc} (h : m.Inv P tv cc) {a : Dma} (ha : 0x8000 ≤ a.address.toNat)
    (hl : a.lengthCounter ≤ 4081) : ({ m with dma := a } : Dmc).Inv P tv cc :=
  ⟨h.dac, ha, hl, h.regAddress, h.regLength_pos, h.regLength_le, h.period, h.level, h.smooth⟩

/-! ### The fetch -/

/-- The device after a fetch of byte `b` (44_dmc.md R229). -/
def Dev.fetched (P : Params) (b : Byte) (d : Dev) : Dev :=
  let e := { d with
    stolen := d.stolen + P.dmaStealCycles
    dmc := { d.dmc with dma := d.dmc.dma.fetched b } }
  if d.dmc.dma.lengthCounter - 1 = 0 then endOfSample e else e

/-- Everything a fetch can do: the byte is the one peeked at the fetch address (44_dmc.md R229). -/
theorem doDma_eq (P : Params) (s : State) :
    doDma P s = { s with
      dev := s.dev.fetched P (s.peek s.dev.dmc.dma.address).1
      peeks := (s.peek s.dev.dmc.dma.address).2.peeks } := by
  have hp : (s.mapDev (stealCycles P.dmaStealCycles)).peek s.dev.dmc.dma.address =
      ((s.peek s.dev.dmc.dma.address).1,
        (s.peek s.dev.dmc.dma.address).2.mapDev (stealCycles P.dmaStealCycles)) := by
    unfold State.peek
    rw [State.mapDev_mem]
    cases Memory.read s.mem s.dev.dmc.dma.address <;> rfl
  obtain ⟨n, hn⟩ := s.peek_state s.dev.dmc.dma.address
  unfold doDma
  simp only
  rw [show (s.mapDev (stealCycles P.dmaStealCycles)).dev.dmc = s.dev.dmc from rfl, hp, hn]
  rfl

/-- A fetch of a listed byte. -/
theorem doDma_listed {b : Byte} (h : Memory.read s.mem s.dev.dmc.dma.address = some b) :
    doDma P s = { s with dev := s.dev.fetched P b } := by
  rw [doDma_eq, State.peek_listed h]

/-- `t` differs from `s` in the Dmc's DMA half, the Dmc's interrupt, the stolen cycles and the count of free answers
at most: what a fetch may change (44_dmc.md R229). -/
def State.FetchOnly (s t : State) : Prop :=
  t = { s with
    dev := { s.dev with
      dmc := { s.dev.dmc with dma := t.dev.dmc.dma }
      irq := { s.dev.irq with dmc := t.dev.irq.dmc }
      stolen := t.dev.stolen }
    peeks := t.peeks }

/-- What a fetch may change of the device. -/
theorem Dev.fetched_rest (P : Params) (b : Byte) (d : Dev) :
    d.fetched P b = { d with
      dmc := { d.dmc with dma := (d.fetched P b).dmc.dma }
      irq := { d.irq with dmc := (d.fetched P b).irq.dmc }
      stolen := d.stolen + P.dmaStealCycles } := by
  unfold Dev.fetched endOfSample
  simp only
  split_ifs <;> rfl

@[simp] theorem Dev.fetched_stolen (P : Params) (b : Byte) (d : Dev) :
    (d.fetched P b).stolen = d.stolen + P.dmaStealCycles := by rw [Dev.fetched_rest]

theorem doDma_fetchOnly (P : Params) (s : State) : s.FetchOnly (doDma P s) := by
  unfold State.FetchOnly
  rw [doDma_eq]
  simp only
  rw [Dev.fetched_rest]

theorem doDma_stolen (P : Params) (s : State) : (doDma P s).dev.stolen = s.dev.stolen + P.dmaStealCycles := by
  rw [doDma_eq]; simp

theorem endOfSample_inv (h : d.Inv P) : (endOfSample d).Inv P := by
  have hm := h.dmc
  have ha := hm.regAddress
  unfold endOfSample
  split_ifs
  · exact h.withDmc (hm.withDma (by simp only; omega) hm.regLength_le)
  · exact raiseIrq_inv h .dmc
  · exact h

theorem Dev.Inv.fetched (h : d.Inv P) (b : Byte) : (d.fetched P b).Inv P := by
  have h1 : ({ d with
      stolen := d.stolen + P.dmaStealCycles, dmc := { d.dmc with dma := d.dmc.dma.fetched b } } : Dev).Inv P :=
    ⟨h.cfg, h.clk, h.sq0, h.sq1, h.tri, h.noise,
      h.dmc.withDma (Dma.fetched_address _ _) ((Nat.sub_le _ _).trans h.dmc.remaining), h.ring⟩
  unfold Dev.fetched
  simp only
  split_ifs
  · exact endOfSample_inv h1
  · exact h1

theorem doDma_inv (h : s.dev.Inv P) : (doDma P s).dev.Inv P := by
  rw [doDma_eq]; exact h.fetched _

theorem doDma_mem (P : Params) (s : State) : (doDma P s).mem = s.mem := by rw [doDma_fetchOnly P s]

/-! ### `SetEnabled` -/

theorem dmcSetEnabled_fetchOnly (P : Params) (e : Bool) (s : State) : s.FetchOnly (dmcSetEnabled P e s) := by
  unfold dmcSetEnabled
  simp only
  split_ifs
  · rfl
  · rfl
  · unfold State.FetchOnly
    rw [doDma_eq]
    simp only
    rw [Dev.fetched_rest]
    rfl
  · rfl

theorem dmcSetEnabled_inv (h : s.dev.Inv P) (e : Bool) : (dmcSetEnabled P e s).dev.Inv P := by
  have h0 : ((s.mapDev (clearIrq .dmc)).dev).Inv P := clearIrq_inv h .dmc
  have hm := h0.dmc
  have ha := hm.regAddress
  unfold dmcSetEnabled
  simp only
  split_ifs
  · exact h0.withDmc (hm.withDma hm.address (Nat.zero_le _))
  · exact h0.withDmc (hm.withDma (by simp only; omega) hm.regLength_le)
  · exact doDma_inv (h0.withDmc (hm.withDma (by simp only; omega) hm.regLength_le))
  · exact h0

/-- I11's last part for `SetEnabled`: its fetch is entered at the restarted sample, which has bytes remaining. -/
theorem dmcSetEnabled_entersReady (h : s.dev.Inv P) (e : Bool) :
    EntersDmaReady P s
      ((s.mapDev (clearIrq .dmc)).mapDev fun d => d.mapDmc fun m =>
        { m with dma := { m.dma with lengthCounter := m.regLength, address := m.regAddress } })
      (dmcSetEnabled P e s) := by
  unfold EntersDmaReady dmcSetEnabled
  simp only
  split_ifs
  · exact fun hn => absurd rfl hn
  · exact fun hn => absurd rfl hn
  · exact fun _ => ⟨rfl, h.dmc.regLength_pos⟩
  · exact fun hn => absurd rfl hn

/-! ### The output unit -/

/-- `t` differs from `s` in the Dmc, its interrupt, the stolen cycles and the count of free answers at most, and the
Dmc's registers, level and bit length stand: what a clock of the output unit may change (44_dmc.md R233). -/
def State.OutputOnly (s t : State) : Prop :=
  t = { s with
    dev := { s.dev with
      dmc := { s.dev.dmc with
        active := t.dev.dmc.active
        dma := t.dev.dmc.dma
        out := { s.dev.dmc.out with shifter := t.dev.dmc.out.shifter, buffer := t.dev.dmc.out.buffer } }
      irq := { s.dev.irq with dmc := t.dev.irq.dmc }
      stolen := t.dev.stolen }
    peeks := t.peeks }

theorem clockOutputUnit_outputOnly (P : Params) (s : State) : s.OutputOnly (clockOutputUnit P s) := by
  unfold clockOutputUnit
  simp only
  split_ifs
  · rfl
  · unfold State.OutputOnly
    rw [doDma_eq]
    simp only
    rw [Dev.fetched_rest]
    rfl
  · rfl
  · rfl

/-- I11's last part for `ClockOutputUnit`: its fetch is entered after the hand-over, with bytes remaining. -/
theorem clockOutputUnit_entersReady (P : Params) (s : State) :
    EntersDmaReady P s (s.mapDev fun d => d.mapDmc Dmc.takeByte) (clockOutputUnit P s) := by
  unfold EntersDmaReady clockOutputUnit
  simp only
  split_ifs with _ _ hn
  · exact fun hn => absurd rfl hn
  · exact fun _ => ⟨rfl, Nat.pos_of_ne_zero hn⟩
  · exact fun hn => absurd rfl hn
  · exact fun hn => absurd rfl hn

/-- A change of the output unit's own fields keeps the Dmc's invariant. -/
theorem Dmc.Inv.withOutput {tv : TvMode} {cc : Int} {m : Dmc} (h : m.Inv P tv cc) (a b : Bool) (k : BitVec 3)
    (x : Byte) :
    ({ m with active := a, dma := { m.dma with buffered := b }, out := { m.out with shifter := k, buffer := x } } :
      Dmc).Inv P tv cc :=
  ⟨h.dac, h.address, h.remaining, h.regAddress, h.regLength_pos, h.regLength_le, h.period, h.level, h.smooth⟩

theorem clockOutputUnit_inv (h : s.dev.Inv P) : (clockOutputUnit P s).dev.Inv P := by
  have ht : (s.mapDev fun d => d.mapDmc Dmc.takeByte).dev.Inv P := h.withDmc (h.dmc.withOutput true false 7 _)
  unfold clockOutputUnit
  simp only
  split_ifs
  · exact h.withDmc (h.dmc.withOutput _ s.dev.dmc.dma.buffered _ _)
  · exact doDma_inv ht
  · exact ht
  · exact h.withDmc (h.dmc.withOutput false s.dev.dmc.dma.buffered 7 _)

/-! ### The delta step -/

/-- A device with another output half of its Dmc. -/
def Dev.setOut (o : DmcOut) (d : Dev) : Dev := { d with dmc := { d.dmc with out := o } }

/-- Nothing of the synthesis reads the output half of the Dmc: the mixer hears `linSample` (44_dmc.md R237). -/
theorem clockFrameSequencer_setOut (P : Params) (o : DmcOut) (d : Dev) :
    clockFrameSequencer P (d.setOut o) = (clockFrameSequencer P d).setOut o := by
  have h : ∀ odd, clockOscillators P odd (d.setOut o) = (clockOscillators P odd d).setOut o := by
    intro odd; cases odd <;> rfl
  unfold clockFrameSequencer
  rw [show (d.setOut o).clk = d.clk from rfl, h]
  rfl

theorem drainSteps_setOut (P : Params) (o : DmcOut) (limit : Int) (fuel : Nat) (d : Dev) :
    drainSteps P limit fuel (d.setOut o) = (drainSteps P limit fuel d).setOut o := by
  induction fuel generalizing d with
  | zero => rfl
  | succ n ih =>
    unfold drainSteps
    rw [show (d.setOut o).clk = d.clk from rfl]
    split_ifs
    · rw [clockFrameSequencer_setOut, ih]
    · rfl

theorem runSequencer_setOut (P : Params) (o : DmcOut) (limit : Int) (d : Dev) :
    runSequencer P limit (d.setOut o) = (runSequencer P limit d).setOut o := drainSteps_setOut _ _ _ _ _

theorem clockExt_setOut (o : DmcOut) (t : Int) (d : Dev) : clockExt t (d.setOut o) = (clockExt t d).setOut o := by
  unfold clockExt
  rw [show (d.setOut o).clk = d.clk from rfl]
  split
  · split_ifs <;> rfl
  · rfl

theorem hostSample_setOut (P : Params) (o : DmcOut) (d : Dev) :
    hostSample P (d.setOut o) = (hostSample P d).setOut o := by
  have hm : mixSample P (d.setOut o) = ((mixSample P d).1, (mixSample P d).2.setOut o) := rfl
  unfold hostSample
  simp only [hm]
  have h1 : ({ (mixSample P d).2.setOut o with ring := ((mixSample P d).2.setOut o).ring.push P (mixSample P d).1 } : Dev)
      = Dev.setOut o { (mixSample P d).2 with ring := (mixSample P d).2.ring.push P (mixSample P d).1 } := rfl
  rw [h1, runSequencer_setOut, show (d.setOut o).clk = d.clk from rfl, clockExt_setOut]
  rfl

theorem synthLoop_setOut (P : Params) (o : DmcOut) (t : Int) (fuel : Nat) (d : Dev) :
    synthLoop P t fuel (d.setOut o) = (synthLoop P t fuel d).setOut o := by
  induction fuel generalizing d with
  | zero => rfl
  | succ n ih =>
    unfold synthLoop
    rw [show (d.setOut o).clk = d.clk from rfl]
    split_ifs
    · rw [hostSample_setOut, ih]
    · rfl

/-- `Update` neither reads nor writes the Dmc's output half. -/
theorem update_setOut (P : Params) (o : DmcOut) (t : Int) (d : Dev) :
    update P t (d.setOut o) = (update P t d).setOut o := by
  have h : advancePath t (d.setOut o) = (advancePath t d).setOut o := clockExt_setOut o t
    { d with clk := { d.clk with rateCounter := max d.clk.rateCounter t } }
  unfold update synthPath
  rw [show (d.setOut o).cfg = d.cfg from rfl, show (d.setOut o).clk = d.clk from rfl, h]
  cases d.cfg.synth <;> simp only [synthLoop_setOut, runSequencer_setOut]

/-- `ClockDAC` changes the output half only. -/
theorem clockDac_out (P : Params) (m : Dmc) : clockDac P m = { m with out := (clockDac P m).out } := by
  unfold clockDac
  split_ifs <;> rfl

/-- Without a move the level stands. -/
theorem clockDac_dac_of_not_moves {m : Dmc} (h : dacMoves P m = false) : (clockDac P m).out.dac = m.out.dac := by
  unfold clockDac
  cases m.active <;> simp [h]

theorem clockDac_dac_le {m : Dmc} (h : m.out.dac ≤ P.dacMax) : (clockDac P m).out.dac ≤ P.dacMax := by
  cases hm : dacMoves P m
  · rw [clockDac_dac_of_not_moves hm]; exact h
  · have ht := hm
    simp only [dacMoves, Bool.and_eq_true, decide_eq_true_eq] at ht
    unfold clockDac
    rw [if_pos ht.1.1]
    simp only [hm, if_true]
    omega

theorem mapDmc_clockDac (P : Params) (d : Dev) : d.mapDmc (clockDac P) = d.setOut (clockDac P d.dmc).out := by
  unfold Dev.mapDmc Dev.setOut
  rw [← clockDac_out]

/-- The half of a Dmc clock before the output unit, written out (44_dmc.md R234): when the level moves, the other
channels are caught up first at the old one. -/
theorem dmcDeltaStep_eq (P : Params) (d : Dev) :
    dmcDeltaStep P d =
      let o := (clockDac P d.dmc).out
      let e := if dacMoves P d.dmc then update P d.clk.dmcClock d else d
      { e with
        clk := { e.clk with dmcClock := e.clk.dmcClock + e.dmc.frequency }
        dmc := { e.dmc with
          out := o
          curSample := if dacMoves P d.dmc then (o.dac : Int) * P.outputMul else e.dmc.curSample } } := by
  unfold dmcDeltaStep levelUpdate
  simp only [mapDmc_clockDac]
  cases dacMoves P d.dmc
  · rfl
  · simp only [if_true]
    rw [show (d.setOut (clockDac P d.dmc).out).clk = d.clk from rfl, update_setOut]
    rfl

/-- The untouched fields after a delta step, and the clock's advance. -/
theorem dmcDeltaStep_spec (hP : P.Valid) (h : d.Inv P) :
    (dmcDeltaStep P d).Inv P ∧
      (dmcDeltaStep P d).clk.dmcClock = d.clk.dmcClock + d.dmc.frequency ∧
      (dmcDeltaStep P d).clk.fixed = d.clk.fixed ∧ (dmcDeltaStep P d).clk.rate = d.clk.rate ∧
      (dmcDeltaStep P d).clk.frameIrqClock = d.clk.frameIrqClock ∧
      (dmcDeltaStep P d).clk.frameIrqRepeat = d.clk.frameIrqRepeat ∧
      (dmcDeltaStep P d).cfg = d.cfg ∧ (dmcDeltaStep P d).ctrl = d.ctrl ∧
      (dmcDeltaStep P d).irq = d.irq ∧ (dmcDeltaStep P d).stolen = d.stolen ∧
      (dmcDeltaStep P d).dmc.frequency = d.dmc.frequency ∧
      (dmcDeltaStep P d).dmc.dma = d.dmc.dma := by
  have hpos : 0 < d.dmc.frequency := by
    rw [h.dmc.period]; exact dmcBitLength_pos hP (h.cc_pos hP) _ _
  have hdac := clockDac_dac_le h.dmc.dac
  rw [dmcDeltaStep_eq]
  have core : ∀ e : Dev, e.Inv P → d.Untouched e →
      (dacMoves P d.dmc = false → e = d) →
      let f : Dev := { e with
        clk := { e.clk with dmcClock := e.clk.dmcClock + e.dmc.frequency }
        dmc := { e.dmc with
          out := (clockDac P d.dmc).out
          curSample := if dacMoves P d.dmc then ((clockDac P d.dmc).out.dac : Int) * P.outputMul
            else e.dmc.curSample } }
      f.Inv P ∧ f.clk.dmcClock = d.clk.dmcClock + d.dmc.frequency ∧ f.clk.fixed = d.clk.fixed ∧
        f.clk.rate = d.clk.rate ∧ f.clk.frameIrqClock = d.clk.frameIrqClock ∧
        f.clk.frameIrqRepeat = d.clk.frameIrqRepeat ∧ f.cfg = d.cfg ∧ f.ctrl = d.ctrl ∧ f.irq = d.irq ∧
        f.stolen = d.stolen ∧ f.dmc.frequency = d.dmc.frequency ∧ f.dmc.dma = d.dmc.dma := by
    intro e he hu hd
    have hfreq : e.dmc.frequency = d.dmc.frequency := by rw [hu.dmc]
    have hdma : e.dmc.dma = d.dmc.dma := by rw [hu.dmc]
    have hcc := hu.cc (P := P)
    refine ⟨?_, by simp only [hu.dmcClock, hfreq], hu.fixed, hu.rate, hu.frameIrqClock, hu.frameIrqRepeat, hu.cfg,
      hu.ctrl, hu.irq, hu.stolen, hfreq, hdma⟩
    have hm := he.dmc
    refine Dev.Inv.withClk (d := { e with dmc := { e.dmc with
        out := (clockDac P d.dmc).out
        curSample := if dacMoves P d.dmc then ((clockDac P d.dmc).out.dac : Int) * P.outputMul
          else e.dmc.curSample } }) (he.withDmc ?_) ?_ rfl rfl
    · refine ⟨hdac, hm.address, hm.remaining, hm.regAddress, hm.regLength_pos, hm.regLength_le, hm.period, ?_,
        hm.smooth⟩
      cases hmv : dacMoves P d.dmc
      · simp only [Bool.false_eq_true, if_false, clockDac_dac_of_not_moves hmv]
        rw [hd hmv]; exact h.dmc.level
      · simp only [if_true]
    · have hc := he.clk
      refine ⟨hc.fixed_pos, hc.rate_pos, hc.fixed_eq, hc.rate_eq, hc.frame_whole,
        dvd_add hc.dmc_whole ?_, hc.irq_whole, hc.irq_finite, hc.rateCounter, hc.frameCounter,
        add_nonneg hc.dmcClock ?_, hc.ext⟩
      · rw [hm.period]; exact dvd_dmcBitLength P _ _ _ _
      · rw [hfreq]; exact hpos.le
  cases hmv : dacMoves P d.dmc
  · have := core d h (.refl d) (fun _ => rfl)
    rw [hmv] at this
    exact this
  · obtain ⟨h1, h2, -⟩ := update_spec hP d.clk.dmcClock h
    have := core _ h1 h2 (by rw [hmv]; simp)
    rw [hmv] at this
    exact this

/-! ### The clock and a run of clocks -/

/-- What no Dmc clock touches, in any state: outside the device the memory, the inputs, the host's side and the lines
to run; of the device the settings, the control latch, the frame IRQ and the scale. -/
structure State.OutsideDmc (s t : State) : Prop where
  mem : t.mem = s.mem
  inp : t.inp = s.inp
  host : t.host = s.host
  todo : t.todo = s.todo
  outcome : t.outcome = s.outcome
  cfg : t.dev.cfg = s.dev.cfg
  ctrl : t.dev.ctrl = s.dev.ctrl
  frame : t.dev.irq.frame = s.dev.irq.frame
  fixed : t.dev.clk.fixed = s.dev.clk.fixed
  rate : t.dev.clk.rate = s.dev.clk.rate
  frameIrqClock : t.dev.clk.frameIrqClock = s.dev.clk.frameIrqClock
  frameIrqRepeat : t.dev.clk.frameIrqRepeat = s.dev.clk.frameIrqRepeat

theorem State.OutsideDmc.refl (s : State) : s.OutsideDmc s :=
  ⟨rfl, rfl, rfl, rfl, rfl, rfl, rfl, rfl, rfl, rfl, rfl, rfl⟩

theorem State.OutsideDmc.trans {s t u : State} (h : s.OutsideDmc t) (g : t.OutsideDmc u) : s.OutsideDmc u :=
  ⟨g.mem.trans h.mem, g.inp.trans h.inp, g.host.trans h.host, g.todo.trans h.todo, g.outcome.trans h.outcome,
    g.cfg.trans h.cfg, g.ctrl.trans h.ctrl, g.frame.trans h.frame, g.fixed.trans h.fixed, g.rate.trans h.rate,
    g.frameIrqClock.trans h.frameIrqClock, g.frameIrqRepeat.trans h.frameIrqRepeat⟩

theorem dmcClock_outside (P : Params) (s : State) : s.OutsideDmc (dmcClock P s) := by
  have hd : s.OutsideDmc (s.mapDev (dmcDeltaStep P)) := by
    have hu : s.dev.Untouched (if dacMoves P s.dev.dmc then update P s.dev.clk.dmcClock s.dev else s.dev) := by
      split_ifs
      · exact update_untouched _ _ _
      · exact .refl _
    refine ⟨rfl, rfl, rfl, rfl, rfl, ?_, ?_, ?_, ?_, ?_, ?_, ?_⟩ <;> rw [State.mapDev_dev, dmcDeltaStep_eq]
    · exact hu.cfg
    · exact hu.ctrl
    · exact congrArg IrqView.frame hu.irq
    · exact hu.fixed
    · exact hu.rate
    · exact hu.frameIrqClock
    · exact hu.frameIrqRepeat
  refine hd.trans ?_
  have ho := clockOutputUnit_outputOnly P (s.mapDev (dmcDeltaStep P))
  unfold State.OutputOnly at ho
  unfold dmcClock
  rw [ho]
  exact ⟨rfl, rfl, rfl, rfl, rfl, rfl, rfl, rfl, rfl, rfl, rfl, rfl⟩

theorem dmcClocks_outside (P : Params) (limit : Int) (fuel : Nat) (s : State) :
    s.OutsideDmc (dmcClocks P limit fuel s) := by
  induction fuel generalizing s with
  | zero => exact .refl s
  | succ n ih =>
    unfold dmcClocks
    split_ifs
    · exact (dmcClock_outside P s).trans (ih _)
    · exact .refl s

theorem dmcClock_onSampleGrid (hs : s.dev.cfg.synth = .synth) (h : s.dev.clk.OnSampleGrid) :
    (dmcClock P s).dev.clk.OnSampleGrid := by
  have ho := clockOutputUnit_outputOnly P (s.mapDev (dmcDeltaStep P))
  unfold State.OutputOnly at ho
  unfold dmcClock
  rw [ho, State.mapDev_dev, dmcDeltaStep_eq]
  cases dacMoves P s.dev.dmc
  · exact h
  · exact update_onSampleGrid s.dev.clk.dmcClock hs h

theorem dmcClocks_onSampleGrid (limit : Int) (fuel : Nat) (hs : s.dev.cfg.synth = .synth)
    (h : s.dev.clk.OnSampleGrid) : (dmcClocks P limit fuel s).dev.clk.OnSampleGrid := by
  induction fuel generalizing s with
  | zero => exact h
  | succ n ih =>
    unfold dmcClocks
    split_ifs
    · exact ih (by rw [(dmcClock_outside P s).cfg]; exact hs) (dmcClock_onSampleGrid hs h)
    · exact h

/-- A run of Dmc clocks is a number of clocks, each due when it is performed. -/
theorem dmcClocks_iterate (P : Params) (limit : Int) (fuel : Nat) (s : State) :
    ∃ n, dmcClocks P limit fuel s = (dmcClock P)^[n] s ∧
      ∀ k < n, ((dmcClock P)^[k] s).dev.clk.dmcClock ≤ limit := by
  induction fuel generalizing s with
  | zero => exact ⟨0, rfl, by simp⟩
  | succ m ih =>
    unfold dmcClocks
    split_ifs with hlt
    · obtain ⟨n, h1, h2⟩ := ih (dmcClock P s)
      refine ⟨n + 1, h1, fun k hk => ?_⟩
      cases k with
      | zero => exact hlt
      | succ k => exact h2 k (by omega)
    · exact ⟨0, rfl, by simp⟩

/-- Everything one Dmc clock can do outside the channel's own fields and the other channels' catch-up. -/
theorem dmcClock_spec (hP : P.Valid) (h : s.dev.Inv P) :
    (dmcClock P s).dev.Inv P ∧
      (dmcClock P s).dev.clk.dmcClock = s.dev.clk.dmcClock + s.dev.dmc.frequency ∧
      (dmcClock P s).dev.dmc.frequency = s.dev.dmc.frequency ∧
      (dmcClock P s).dev.clk.fixed = s.dev.clk.fixed ∧
      (dmcClock P s).dev.clk.frameIrqClock = s.dev.clk.frameIrqClock ∧
      (dmcClock P s).dev.cfg = s.dev.cfg ∧ (dmcClock P s).dev.ctrl = s.dev.ctrl ∧
      (dmcClock P s).dev.irq.frame = s.dev.irq.frame ∧
      (dmcClock P s).mem = s.mem ∧ (dmcClock P s).inp = s.inp ∧ (dmcClock P s).host = s.host ∧
      (dmcClock P s).todo = s.todo ∧ (dmcClock P s).outcome = s.outcome := by
  obtain ⟨g1, g2, g3, -, g5, -, g7, g8, g9, -, g11, -⟩ := dmcDeltaStep_spec hP h
  have hi := clockOutputUnit_inv (s := s.mapDev (dmcDeltaStep P)) g1
  have hu := clockOutputUnit_outputOnly P (s.mapDev (dmcDeltaStep P))
  unfold State.OutputOnly at hu
  refine ⟨hi, ?_⟩
  unfold dmcClock
  rw [hu]
  exact ⟨g2, g11, g3, g5, g7, g8, by rw [← g9]; rfl, rfl, rfl, rfl, rfl, rfl⟩

/-- Everything a run of Dmc clocks can do; with enough of them none is left due. -/
theorem dmcClocks_spec (hP : P.Valid) (limit : Int) (fuel : Nat) (h : s.dev.Inv P) :
    (dmcClocks P limit fuel s).dev.Inv P ∧
      s.dev.clk.dmcClock ≤ (dmcClocks P limit fuel s).dev.clk.dmcClock ∧
      ((limit - s.dev.clk.dmcClock + 1).toNat ≤ fuel → limit < (dmcClocks P limit fuel s).dev.clk.dmcClock) ∧
      (dmcClocks P limit fuel s).dev.clk.fixed = s.dev.clk.fixed ∧
      (dmcClocks P limit fuel s).dev.clk.frameIrqClock = s.dev.clk.frameIrqClock ∧
      (dmcClocks P limit fuel s).dev.cfg = s.dev.cfg ∧ (dmcClocks P limit fuel s).dev.ctrl = s.dev.ctrl ∧
      (dmcClocks P limit fuel s).dev.irq.frame = s.dev.irq.frame ∧
      (dmcClocks P limit fuel s).mem = s.mem ∧ (dmcClocks P limit fuel s).inp = s.inp ∧
      (dmcClocks P limit fuel s).host = s.host ∧ (dmcClocks P limit fuel s).todo = s.todo := by
  induction fuel generalizing s with
  | zero => exact ⟨h, le_rfl, fun hf => by simp only [dmcClocks]; omega, rfl, rfl, rfl, rfl, rfl, rfl, rfl, rfl, rfl⟩
  | succ n ih =>
    unfold dmcClocks
    split_ifs with hlt
    · obtain ⟨g1, g2, -, g4, g5, g6, g7, g8, g9, g10, g11, g12, -⟩ := dmcClock_spec hP h
      have hpos : 0 < s.dev.dmc.frequency := by
        rw [h.dmc.period]; exact dmcBitLength_pos hP (h.cc_pos hP) _ _
      obtain ⟨h1, h2, h3, h4, h5, h6, h7, h8, h9, h10, h11, h12⟩ := ih g1
      exact ⟨h1, by omega, fun hf => h3 (by omega), h4.trans g4, h5.trans g5, h6.trans g6, h7.trans g7, h8.trans g8,
        h9.trans g9, h10.trans g10, h11.trans g11, h12.trans g12⟩
    · exact ⟨h, le_rfl, fun _ => by omega, rfl, rfl, rfl, rfl, rfl, rfl, rfl, rfl, rfl⟩

/-- With no Dmc clock due `DmcTick` does nothing. -/
theorem dmcTick_idle {limit : Int} (h : limit < s.dev.clk.dmcClock) : dmcTick P limit s = s := by
  unfold dmcTick
  rw [show (limit - s.dev.clk.dmcClock + 1).toNat = 0 by omega]
  rfl

end Sys2Proof.Machine
end

