-- ==== Sys2Proof/Laws/ClockConverter.lean ====
section
/-!
SUPPORT. The ClockConverter: the multiplier search, the derivation, the reset procedure and `Configure`
(47_clock_converter.md R291 to R296, 70_reset_and_hazards.md R400).
-/

namespace Sys2Proof.Machine

variable {P : Params} {d : Dev}

/-! ### The multiplier -/

/-- The search finds the least multiplier from `k` on that divides, if any of the next `fuel` does. -/
theorem searchMultiplier_spec (base r fuel k : Nat) :
    (∀ m, searchMultiplier base r fuel k = some m →
      k ≤ m ∧ m < k + fuel ∧ base * m % r = 0 ∧ ∀ j, k ≤ j → j < m → base * j % r ≠ 0) ∧
      (searchMultiplier base r fuel k = none → ∀ j, k ≤ j → j < k + fuel → base * j % r ≠ 0) := by
  induction fuel generalizing k with
  | zero => exact ⟨fun m h => by simp [searchMultiplier] at h, fun _ j h1 h2 => by omega⟩
  | succ n ih =>
    obtain ⟨h1, h2⟩ := ih (k + 1)
    unfold searchMultiplier
    split_ifs with h0
    · refine ⟨fun m hm => ?_, fun h => by simp at h⟩
      simp only [Option.some.injEq] at hm
      subst hm
      exact ⟨le_rfl, by omega, h0, fun j a b => by omega⟩
    · refine ⟨fun m hm => ?_, fun h j a b => ?_⟩
      · obtain ⟨a, b, c, e⟩ := h1 m hm
        refine ⟨by omega, by omega, c, fun j ha hb => ?_⟩
        rcases eq_or_ne j k with rfl | hne
        · exact h0
        · exact e j (by omega) hb
      · rcases eq_or_ne j k with rfl | hne
        · exact h0
        · exact h2 h j (by omega) (by omega)

theorem multiplier_pos (hP : P.Valid) (tv : TvMode) (r : Nat) : 0 < multiplier P tv r := by
  unfold multiplier
  cases h : searchMultiplier (P.clockBase tv) r P.mMax 1 with
  | none => exact hP.mMax_pos
  | some m => exact ((searchMultiplier_spec _ _ _ _).1 m h).1

theorem multiplier_le (P : Params) (tv : TvMode) (r : Nat) : multiplier P tv r ≤ P.mMax := by
  unfold multiplier
  cases h : searchMultiplier (P.clockBase tv) r P.mMax 1 with
  | none => exact le_rfl
  | some m =>
    have := ((searchMultiplier_spec _ _ _ _).1 m h).2.1
    simp only [Option.getD_some]; omega

theorem deriveFor_fixed_pos (hP : P.Valid) (c : Settings) : 0 < (deriveFor P c).fixed :=
  Nat.mul_pos (hP.baseDivider_pos _) (multiplier_pos hP _ _)

/-! ### Reset -/

theorem freshDev_inv (hP : P.Valid) {cfg : Settings} (h : SettingsInv P cfg) (ctrl : FrameCtrl) :
    (freshDev P cfg ctrl).Inv P := by
  have hf : (0 : Int) < (deriveFor P cfg).fixed := by exact_mod_cast deriveFor_fixed_pos hP cfg
  have hr : (0 : Int) < (deriveFor P cfg).rate := by exact_mod_cast Nat.pos_of_ne_zero h.derived
  have hcc := cpuCycle_pos hP cfg.tv hf
  have henv : (freshEnvelope P).Inv P := ⟨by simp [freshEnvelope], rfl⟩
  have hlen : freshLength.Inv P := ⟨Nat.zero_le _, fun _ => rfl⟩
  have hosc : ∀ {q : Int}, 0 < q → (freshOsc (deriveFor P cfg).rate (deriveFor P cfg).fixed q).Inv
      (deriveFor P cfg).rate (deriveFor P cfg).fixed := fun hq => ⟨le_rfl, rfl, rfl, hq, le_rfl⟩
  have hsq : (freshSquare P (deriveFor P cfg).rate (deriveFor P cfg).fixed
      (cpuCycle P cfg.tv (deriveFor P cfg).fixed)).Inv P (deriveFor P cfg).rate (deriveFor P cfg).fixed
      (cpuCycle P cfg.tv (deriveFor P cfg).fixed) := by
    refine ⟨by simp [freshSquare, freshOsc, Square.canOutput], hosc (by omega), henv, hlen,
      ⟨by simp [freshSquare], by simp [freshSquare], by simp [freshSquare], by simp [freshSquare]⟩, ?_,
      by simp [freshSquare], ?_⟩
    · simp [freshSquare, Square.periodValid, hP.sqMinPeriod_eq]
    · simp [freshSquare, freshOsc]
  refine ⟨h, ?_, hsq, hsq, ?_, ?_, ?_, ?_⟩
  · refine ⟨hf, hr, rfl, rfl, dvd_frameGap _ _ _ _ _, dvd_dmcBitLength _ _ _ _ _, ?_, ?_, le_rfl,
      (frameGap_pos hP _ _ _ hf).le, (dmcBitLength_pos hP hcc _ _).le, rfl⟩
    · intro x hx
      simp only [freshDev, freshClock] at hx
      split_ifs at hx
      simp only [Option.some.injEq] at hx
      subst hx
      exact dvd_irqGap _ _ _ _
    · simp only [freshDev, freshClock]
      cases ctrl.mode5 <;> cases ctrl.irqInhibit <;> simp
  · exact ⟨by simp [freshDev, freshOsc, freshLength, Triangle.canOutput], hosc hcc, hlen,
      by simp [freshDev, freshOsc, trianglePeriod]; rfl⟩
  · exact ⟨by simp [freshDev, freshOsc, freshLength, Noise.canOutput], hosc (noiseStepLength_pos hP hcc _ _), henv,
      hlen, rfl, hP.noiseSeed_ne⟩
  · refine ⟨Nat.zero_le _, by simp [freshDev], by simp [freshDev], by simp [freshDev], by simp [freshDev],
      by simp [freshDev], rfl, by simp [freshDev], by simp [freshDev]⟩
  · exact ⟨hP.ringSize_pos, hP.ringSize_pos, by simp [freshDev, SamplesWf], by simp [freshDev], by simp [freshDev],
      by simp [freshDev, SamplesWf], by simp [freshDev], by simp [freshDev]⟩

theorem resetDevice_inv (hP : P.Valid) (h : SettingsInv P d.cfg) (hard : Bool) : (resetDevice P hard d).Inv P :=
  freshDev_inv hP h _

/-! ### Configure -/

/-- What a call that takes the settings up has checked (60_exceptions.md R385). -/
theorem settingsInv_of_taken {new cfg : Settings} (h : configureRefuses P new cfg = none) :
    SettingsInv P new ∧ new ≠ cfg := by
  unfold configureRefuses at h
  split_ifs at h with h1 h2 h3 h4 h5
  exact ⟨⟨by tauto, h1, h3, h4⟩, h5⟩

theorem rescaled_nonneg {newFixed old c : Int} (hn : 0 ≤ newFixed) (ho : 0 < old) (hc : 0 ≤ c) :
    0 ≤ rescaled newFixed old c := Int.ediv_nonneg (mul_nonneg hc hn) ho.le

/-- A whole number of MC stays that number of MC (60_exceptions.md R382 I17). -/
theorem rescaled_mul {newFixed old : Int} (ho : 0 < old) (k : Int) : rescaled newFixed old (k * old) = k * newFixed := by
  unfold rescaled
  rw [show k * old * newFixed = k * newFixed * old by ring]
  exact Int.mul_ediv_cancel _ ho.ne'

theorem rescaled_dvd {newFixed old c : Int} (ho : 0 < old) (h : old ∣ c) : newFixed ∣ rescaled newFixed old c := by
  obtain ⟨k, rfl⟩ := h
  rw [mul_comm old k, rescaled_mul ho]
  exact Dvd.intro_left _ rfl

theorem Square.newSettings_inv {rate fixed rate' fixed' cc cc' oldFixed : Int} {q : Square} (n : Nat)
    (h : q.Inv P rate fixed cc) (hcc : cc = n * oldFixed) (hcc' : cc' = n * fixed') (ho : 0 < oldFixed)
    (hf : 0 < fixed') (hn : 0 < n) :
    Square.Inv P rate' fixed' cc'
      (Square.newSettings rate' fixed' oldFixed cc' { q with osc := q.osc.rescale fixed' oldFixed }) := by
  have ht : 0 ≤ rescaled fixed' oldFixed q.osc.timer := rescaled_nonneg hf.le ho h.osc.timer
  have hp : 0 < cc' := by rw [hcc']; positivity
  obtain ⟨k, hk⟩ := h.whole
  have hpos := h.osc.frequency
  have hk0 : 0 < k := by
    rw [hk, hcc] at hpos
    by_contra hneg
    have : (n : Int) * oldFixed * k ≤ 0 := mul_nonpos_of_nonneg_of_nonpos (by positivity) (by omega)
    omega
  have hquot : q.osc.frequency * fixed' / oldFixed = cc' * k := by
    rw [hk, hcc, hcc', show (n : Int) * oldFixed * k * fixed' = n * fixed' * k * oldFixed by ring]
    exact Int.mul_ediv_cancel _ ho.ne'
  refine ⟨h.active, ⟨ht, rfl, rfl, ?_, h.osc.amp⟩, h.env, h.len, h.sweep, h.valid, fun hv => ?_, ?_⟩
  · simp only [Square.newSettings, Osc.rescale]
    split_ifs
    · exact squarePeriod_pos hp _
    · rw [hquot]; positivity
  · simp only [Square.newSettings] at hv ⊢
    rw [if_pos hv]
  · simp only [Square.newSettings, Osc.rescale]
    split_ifs
    · exact dvd_squarePeriod _ _
    · rw [hquot]; exact Dvd.intro _ rfl

/-- Taking new settings of the same TV mode up keeps the invariant (47_clock_converter.md R291). -/
theorem takeSettings_inv (hP : P.Valid) (h : d.Inv P) {new : Settings} (hn : SettingsInv P new)
    (htv : new.tv = d.cfg.tv) : (takeSettings P new d).Inv P := by
  have ho := h.clk.fixed_pos
  have hf : (0 : Int) < (deriveFor P new).fixed := by exact_mod_cast deriveFor_fixed_pos hP new
  have hr : (0 : Int) < (deriveFor P new).rate := by exact_mod_cast Nat.pos_of_ne_zero hn.derived
  have hcc := cpuCycle_pos hP new.tv hf
  have hc := h.clk
  have hdiv := hP.cpuDiv_pos new.tv
  have htim : ∀ {x : Int}, 0 ≤ x → 0 ≤ rescaled (deriveFor P new).fixed d.clk.fixed x :=
    rescaled_nonneg hf.le ho
  have hsq : ∀ q : Square, q.Inv P d.clk.rate d.clk.fixed (d.cc P) →
      Square.Inv P (deriveFor P new).rate (deriveFor P new).fixed (cpuCycle P new.tv (deriveFor P new).fixed)
        (Square.newSettings (deriveFor P new).rate (deriveFor P new).fixed d.clk.fixed
          (cpuCycle P new.tv (deriveFor P new).fixed)
          { q with osc := q.osc.rescale (deriveFor P new).fixed d.clk.fixed }) := fun q hq =>
    Square.newSettings_inv (P.cpuDiv new.tv) hq (by rw [htv]; rfl) rfl ho hf hdiv
  refine ⟨hn, ?_, hsq _ h.sq0, hsq _ h.sq1, ?_, ?_, ?_, h.ring⟩
  · refine ⟨hf, hr, rfl, rfl, rescaled_dvd ho hc.frame_whole, rescaled_dvd ho hc.dmc_whole, ?_, ?_,
      htim hc.rateCounter, htim hc.frameCounter, htim hc.dmcClock, ?_⟩
    · intro x hx
      simp only [takeSettings, updateChannelSettings, extSetContext, rescaleDevice, Option.map_eq_some_iff] at hx
      obtain ⟨y, hy, rfl⟩ := hx
      exact rescaled_dvd ho (hc.irq_whole y hy)
    · have := hc.irq_finite
      simp only [takeSettings, updateChannelSettings, extSetContext, rescaleDevice, Option.isSome_map]
      exact this
    · simp only [takeSettings, updateChannelSettings, extSetContext, rescaleDevice, hc.ext, Option.map_none]
  · exact ⟨h.tri.active, ⟨htim h.tri.osc.timer, rfl, rfl, trianglePeriod_pos hcc _, h.tri.osc.amp⟩, h.tri.len, rfl⟩
  · exact ⟨h.noise.active, ⟨htim h.noise.osc.timer, rfl, rfl, noiseStepLength_pos hP hcc _ _, h.noise.osc.amp⟩,
      h.noise.env, h.noise.len, rfl, h.noise.bits⟩
  · have hm := h.dmc
    exact ⟨hm.dac, hm.address, hm.remaining, hm.regAddress, hm.regLength_pos, hm.regLength_le, rfl, hm.level,
      hm.smooth⟩

theorem configure_inv (hP : P.Valid) (h : d.Inv P) (new : Settings) : (configure P new d).2.Inv P := by
  unfold configure
  split
  · exact h
  · rename_i hc
    obtain ⟨hn, -⟩ := settingsInv_of_taken hc
    simp only
    split_ifs with htv
    · exact resetDevice_inv (d := takeSettings P new d) hP hn true
    · exact takeSettings_inv hP h hn (not_not.mp htv)

end Sys2Proof.Machine
end

