-- ==== Sys2Proof/Laws/Decode.lean ====
section
/-!
SUPPORT. The field formats lose no bit: reading the fields of a byte and laying them out again gives the byte, and
the other way round (30_encoding.md R105 to R118); the parts of an encoded word.
-/

namespace Sys2Proof

/-! ### A byte's fields make the byte again -/

@[simp] theorem FEnv.toByte_ofByte (d : Byte) : (FEnv.ofByte d).toByte = d := by
  revert d; decide +kernel
@[simp] theorem FSweep.toByte_ofByte (d : Byte) : (FSweep.ofByte d).toByte = d := by
  revert d; decide +kernel
@[simp] theorem FPlo.toByte_ofByte (d : Byte) : (FPlo.ofByte d).toByte = d := by
  rfl
@[simp] theorem FPhi.toByte_ofByte (d : Byte) : (FPhi.ofByte d).toByte = d := by
  revert d; decide +kernel
@[simp] theorem FByte.toByte_ofByte (d : Byte) : (FByte.ofByte d).toByte = d := by
  rfl
@[simp] theorem FLin.toByte_ofByte (d : Byte) : (FLin.ofByte d).toByte = d := by
  revert d; decide +kernel
@[simp] theorem FNper.toByte_ofByte (d : Byte) : (FNper.ofByte d).toByte = d := by
  revert d; decide +kernel
@[simp] theorem FDctl.toByte_ofByte (d : Byte) : (FDctl.ofByte d).toByte = d := by
  revert d; decide +kernel
@[simp] theorem FDdac.toByte_ofByte (d : Byte) : (FDdac.ofByte d).toByte = d := by
  revert d; decide +kernel
@[simp] theorem FStw.toByte_ofByte (d : Byte) : (FStw.ofByte d).toByte = d := by
  revert d; decide +kernel
@[simp] theorem FFrm.toByte_ofByte (d : Byte) : (FFrm.ofByte d).toByte = d := by
  revert d; decide +kernel

/-! ### A byte made of fields has those fields -/

@[simp] theorem FEnv.ofByte_toByte (f : FEnv) : FEnv.ofByte f.toByte = f := by
  obtain ⟨a, b, c, d⟩ := f
  revert a b c d
  decide +kernel
@[simp] theorem FSweep.ofByte_toByte (f : FSweep) : FSweep.ofByte f.toByte = f := by
  obtain ⟨a, b, c, d⟩ := f
  revert a b c d
  decide +kernel
@[simp] theorem FPlo.ofByte_toByte (f : FPlo) : FPlo.ofByte f.toByte = f := rfl
@[simp] theorem FPhi.ofByte_toByte (f : FPhi) : FPhi.ofByte f.toByte = f := by
  obtain ⟨a, b⟩ := f
  revert a b
  decide +kernel
@[simp] theorem FByte.ofByte_toByte (f : FByte) : FByte.ofByte f.toByte = f := rfl
@[simp] theorem FLin.ofByte_toByte (f : FLin) : FLin.ofByte f.toByte = f := by
  obtain ⟨a, b⟩ := f
  revert a b
  decide +kernel
@[simp] theorem FNper.ofByte_toByte (f : FNper) : FNper.ofByte f.toByte = f := by
  obtain ⟨a, b, c⟩ := f
  revert a b c
  decide +kernel
@[simp] theorem FDctl.ofByte_toByte (f : FDctl) : FDctl.ofByte f.toByte = f := by
  obtain ⟨a, b, c, d⟩ := f
  revert a b c d
  decide +kernel
@[simp] theorem FDdac.ofByte_toByte (f : FDdac) : FDdac.ofByte f.toByte = f := by
  obtain ⟨a, b⟩ := f
  revert a b
  decide +kernel
@[simp] theorem FStw.ofByte_toByte (f : FStw) : FStw.ofByte f.toByte = f := by
  obtain ⟨a, b, c, d, e, g⟩ := f
  revert a b c d e g
  decide +kernel
@[simp] theorem FFrm.ofByte_toByte (f : FFrm) : FFrm.ofByte f.toByte = f := by
  obtain ⟨a, b, c⟩ := f
  revert a b c
  decide +kernel

/-! ### The word -/

@[simp] theorem TWord.data_append (h : Head) (d : Byte) : TWord.data (h ++ d) = d := by
  unfold TWord.data
  apply BitVec.eq_of_getLsbD_eq
  intro i hi
  rw [BitVec.getLsbD_extractLsb', decide_eq_true hi, Bool.true_and]
  exact (BitVec.getLsbD_append (x := h) (y := d) (i := 0 + i)).trans (by simp [hi])

@[simp] theorem TWord.head_append (h : Head) (d : Byte) : TWord.head (h ++ d) = h := by
  unfold TWord.head
  apply BitVec.eq_of_getLsbD_eq
  intro i hi
  rw [BitVec.getLsbD_extractLsb', decide_eq_true hi, Bool.true_and]
  exact (BitVec.getLsbD_append (x := h) (y := d) (i := 8 + i)).trans (by simp)

/-- A word is its head and its data byte. -/
theorem TWord.head_append_data (t : TWord) : (t.head ++ t.data : TWord) = t := by
  apply BitVec.eq_of_getLsbD_eq
  intro i hi
  simp only [BitVec.getLsbD_append, TWord.head, TWord.data]
  rcases Nat.lt_or_ge i 8 with h | h
  · simp [h]
  · simp [Nat.not_lt.mpr h, show i - 8 < 17 by omega, show 8 + (i - 8) = i by omega]

@[simp] theorem encode_head (i : Instr) : (encode i).head = i.head := TWord.head_append _ _
@[simp] theorem encode_data (i : Instr) : (encode i).data = i.data := TWord.data_append _ _

/-! ### The register map -/

/-- No two rows of the register map share a head (30_encoding.md R101). -/
theorem rows_distinct : rows.Pairwise (fun a b => a.head ≠ b.head) := by
  simp only [rows]; decide

end Sys2Proof
end

