-- ==== Sys2Proof/Laws/FrameIrq.lean ====
section
/-!
SUPPORT. What the frame IRQ timer and the frame control write can do (45_frame_sequencer.md R258, R263).
-/

namespace Sys2Proof.Machine

variable {P : Params} {d : Dev}

/-- The assertion points from `p` on: whole numbers of units, never earlier, and with enough passes past `limit`. -/
theorem irqPoints_spec (hP : P.Valid) (tv : TvMode) {fixed : Int} (hf : 0 < fixed) (limit : Int) (fuel : Nat)
    (p : Int × Fin 3) :
    p.1 ≤ (irqPoints P tv fixed limit fuel p).1 ∧
      (fixed ∣ p.1 → fixed ∣ (irqPoints P tv fixed limit fuel p).1) ∧
      ((limit - p.1 + 1).toNat ≤ fuel → limit < (irqPoints P tv fixed limit fuel p).1) := by
  induction fuel generalizing p with
  | zero => exact ⟨le_rfl, id, fun h => by simp only [irqPoints]; omega⟩
  | succ n ih =>
    unfold irqPoints
    split_ifs with hle
    · have hg := irqGap_pos hP tv (k := 1 + p.2.val) (by omega) hf
      obtain ⟨h1, h2, h3⟩ := ih (nextIrqPoint P tv fixed p.1 p.2)
      simp only [nextIrqPoint] at h1 h2 h3 ⊢
      exact ⟨by omega, fun hd => h2 (dvd_add hd (dvd_irqGap _ _ _ _)), fun hf => h3 (by omega)⟩
    · exact ⟨le_rfl, id, fun _ => by omega⟩

/-- The points passed are a number of points, each due when it is passed. -/
theorem irqPoints_iterate (P : Params) (tv : TvMode) (fixed limit : Int) (fuel : Nat) (p : Int × Fin 3) :
    ∃ n, irqPoints P tv fixed limit fuel p = (fun q : Int × Fin 3 => nextIrqPoint P tv fixed q.1 q.2)^[n] p ∧
      ∀ k < n, ((fun q : Int × Fin 3 => nextIrqPoint P tv fixed q.1 q.2)^[k] p).1 ≤ limit := by
  induction fuel generalizing p with
  | zero => exact ⟨0, rfl, by simp⟩
  | succ m ih =>
    unfold irqPoints
    split_ifs with hle
    · obtain ⟨n, h1, h2⟩ := ih (nextIrqPoint P tv fixed p.1 p.2)
      refine ⟨n + 1, h1, fun k hk => ?_⟩
      cases k with
      | zero => exact hle
      | succ k => exact h2 k (by omega)
    · exact ⟨0, rfl, by simp⟩

/-- What `FrameIrqTick` may change: the timer, its repeat index and the frame flag. -/
theorem frameIrqTick_rest (P : Params) (limit : Int) (d : Dev) :
    frameIrqTick P limit d = { d with
      clk := { d.clk with
        frameIrqClock := (frameIrqTick P limit d).clk.frameIrqClock
        frameIrqRepeat := (frameIrqTick P limit d).clk.frameIrqRepeat }
      irq := { d.irq with frame := (frameIrqTick P limit d).irq.frame } } := by
  unfold frameIrqTick
  split
  · rfl
  · split_ifs <;> rfl

/-- With the timer off nothing happens (45_frame_sequencer.md R263). -/
theorem frameIrqTick_off {limit : Int} (h : d.clk.frameIrqClock = none) : frameIrqTick P limit d = d := by
  unfold frameIrqTick; rw [h]

/-- Nor before it is due. -/
theorem frameIrqTick_early {limit c : Int} (h : d.clk.frameIrqClock = some c) (hc : limit < c) :
    frameIrqTick P limit d = d := by
  unfold frameIrqTick; rw [h]; simp only; rw [if_neg (by omega)]

/-- When it is due the flag is set and the timer ends past `limit`. -/
theorem frameIrqTick_due (hP : P.Valid) (hf : 0 < d.clk.fixed) {limit c : Int} (h : d.clk.frameIrqClock = some c)
    (hc : c ≤ limit) :
    (frameIrqTick P limit d).irq.frame = true ∧
      ∃ x, (frameIrqTick P limit d).clk.frameIrqClock = some x ∧ limit < x ∧ c ≤ x ∧
        (d.clk.fixed ∣ c → d.clk.fixed ∣ x) := by
  obtain ⟨h1, h2, h3⟩ := irqPoints_spec hP d.cfg.tv hf limit (limit - c + 1).toNat (c, d.clk.frameIrqRepeat)
  unfold frameIrqTick
  rw [h]
  simp only
  rw [if_pos hc]
  exact ⟨rfl, _, rfl, h3 le_rfl, h1, h2⟩

theorem frameIrqTick_inv (hP : P.Valid) (h : d.Inv P) (limit : Int) : (frameIrqTick P limit d).Inv P := by
  have hc := h.clk
  cases hx : d.clk.frameIrqClock with
  | none => rw [frameIrqTick_off hx]; exact h
  | some c =>
    rcases lt_or_ge limit c with hlt | hge
    · rw [frameIrqTick_early hx hlt]; exact h
    · obtain ⟨-, x, hx', -, -, hd⟩ := frameIrqTick_due hP hc.fixed_pos hx hge
      rw [frameIrqTick_rest]
      refine (h.withClk (c := { d.clk with
        frameIrqClock := (frameIrqTick P limit d).clk.frameIrqClock
        frameIrqRepeat := (frameIrqTick P limit d).clk.frameIrqRepeat }) ?_ rfl rfl).withIrq _
      refine ⟨hc.fixed_pos, hc.rate_pos, hc.fixed_eq, hc.rate_eq, hc.frame_whole, hc.dmc_whole, ?_, ?_, hc.rateCounter,
        hc.frameCounter, hc.dmcClock, hc.ext⟩
      · intro y hy
        simp only [hx', Option.some.injEq] at hy
        subst hy
        exact hd (hc.irq_whole c hx)
      · have := hc.irq_finite
        simp only [hx', hx, Option.isSome_some] at this ⊢
        exact this

theorem frameRestart_inv (hP : P.Valid) (f : FFrm) (next : Nat) (h : d.Inv P) : (frameRestart P f next d).Inv P := by
  have hc := h.clk
  have hg := frameGap_pos hP d.cfg.tv f.mode5 0 hc.fixed_pos
  have hn : 0 ≤ (next : Int) * d.clk.fixed := mul_nonneg (Int.natCast_nonneg _) hc.fixed_pos.le
  refine ⟨h.cfg, ⟨hc.fixed_pos, hc.rate_pos, hc.fixed_eq, hc.rate_eq, ?_, hc.dmc_whole, ?_, ?_, hc.rateCounter, ?_,
    hc.dmcClock, hc.ext⟩, h.sq0, h.sq1, h.tri, h.noise, h.dmc, h.ring⟩
  · exact dvd_add (Dvd.intro_left _ rfl) (dvd_frameGap _ _ _ _ _)
  · intro x hx
    simp only [frameRestart] at hx
    split_ifs at hx
    simp only [Option.some.injEq] at hx
    subst hx
    exact dvd_add (Dvd.intro_left _ rfl) (dvd_irqGap _ _ _ _)
  · simp only [frameRestart]
    cases f.mode5 <;> cases f.irqInhibit <;> rfl
  · simp only [frameRestart]
    omega

theorem frameModeEffects_inv (hP : P.Valid) (f : FFrm) (h : d.Inv P) : (frameModeEffects P f d).Inv P := by
  have h1 : (if f.irqInhibit then clearIrq .frame d else d).Inv P := by
    split_ifs
    · exact clearIrq_inv h .frame
    · exact h
  unfold frameModeEffects
  simp only
  generalize (if f.irqInhibit = true then clearIrq .frame d else d) = e at h1 ⊢
  split_ifs
  · exact clockOscillators_inv hP h1 true
  · exact h1

theorem frameWrite_inv (hP : P.Valid) (f : FFrm) (now : Nat) (odd : Bool) (h : d.Inv P) :
    (frameWrite P f now odd d).Inv P := by
  unfold frameWrite
  exact frameModeEffects_inv hP f (frameRestart_inv hP f _ (frameIrqTick_inv hP (update_spec hP _ h).1 _))

/-- `FrameIrqTick` clears no flag. -/
theorem frameIrqTick_frame {limit : Int} (h : d.irq.frame = true) : (frameIrqTick P limit d).irq.frame = true := by
  unfold frameIrqTick
  split
  · exact h
  · split_ifs
    · rfl
    · exact h

/-- What `frameModeEffects` leaves alone, and what it makes of the flag. -/
theorem frameModeEffects_rest (P : Params) (f : FFrm) (d : Dev) :
    (frameModeEffects P f d).cfg = d.cfg ∧ (frameModeEffects P f d).clk = d.clk ∧
      (frameModeEffects P f d).stolen = d.stolen ∧ (frameModeEffects P f d).dmc = d.dmc ∧
      (frameModeEffects P f d).ctrl = d.ctrl ∧
      (frameModeEffects P f d).irq = { d.irq with frame := d.irq.frame && !f.irqInhibit } := by
  have h : ∀ e : Dev, frameModeEffects P f e =
      (if f.mode5 then clockOscillators P true else id)
        { e with irq := { e.irq with frame := e.irq.frame && !f.irqInhibit } } := by
    intro e
    unfold frameModeEffects clearIrq
    cases f.irqInhibit <;> cases f.mode5 <;> simp
  rw [h]
  cases f.mode5
  · exact ⟨rfl, rfl, rfl, rfl, rfl, rfl⟩
  · simp only [if_true]
    rw [clockOscillators_rest]
    exact ⟨rfl, rfl, rfl, rfl, rfl, rfl⟩

/-- What the whole write leaves alone, and when it clears a flag that is set (45_frame_sequencer.md R258, R264). -/
theorem frameWrite_rest (P : Params) (f : FFrm) (now : Nat) (odd : Bool) (d : Dev) :
    let t := frameWrite P f now odd d
    t.cfg = d.cfg ∧ t.clk.fixed = d.clk.fixed ∧ t.clk.rate = d.clk.rate ∧ t.clk.dmcClock = d.clk.dmcClock ∧
      t.stolen = d.stolen ∧ t.irq.dmc = d.irq.dmc ∧ t.dmc = { d.dmc with linSample := t.dmc.linSample } ∧
      (d.irq.frame = true → t.irq.frame = !f.irqInhibit) := by
  intro t
  have hu := update_untouched P ((frameWriteTime P d.cfg.tv now odd : Int) * d.clk.fixed) d
  have hr := frameIrqTick_rest P ((frameWriteTime P d.cfg.tv now odd : Int) * d.clk.fixed)
    (update P ((frameWriteTime P d.cfg.tv now odd : Int) * d.clk.fixed) d)
  have hf : d.irq.frame = true → (frameIrqTick P ((frameWriteTime P d.cfg.tv now odd : Int) * d.clk.fixed)
      (update P ((frameWriteTime P d.cfg.tv now odd : Int) * d.clk.fixed) d)).irq.frame = true :=
    fun h => frameIrqTick_frame (by rw [hu.irq]; exact h)
  have ht : t = frameModeEffects P f (frameRestart P f (frameResetTime P d.cfg.tv now odd)
      (frameIrqTick P ((frameWriteTime P d.cfg.tv now odd : Int) * d.clk.fixed)
        (update P ((frameWriteTime P d.cfg.tv now odd : Int) * d.clk.fixed) d))) := rfl
  rw [ht]
  generalize update P ((frameWriteTime P d.cfg.tv now odd : Int) * d.clk.fixed) d = u at hu hr hf
  generalize frameIrqTick P ((frameWriteTime P d.cfg.tv now odd : Int) * d.clk.fixed) u = e at hr hf
  obtain ⟨a1, a2, a3, a4, -, a6⟩ :=
    frameModeEffects_rest P f (frameRestart P f (frameResetTime P d.cfg.tv now odd) e)
  rw [a1, a2, a3, a4, a6]
  have hi : e.irq.dmc = d.irq.dmc := by rw [hr, ← hu.irq]
  refine ⟨?_, ?_, ?_, ?_, ?_, hi, ?_, fun h => ?_⟩
  · show e.cfg = _; rw [hr]; exact hu.cfg
  · show e.clk.fixed = _; rw [hr]; exact hu.fixed
  · show e.clk.rate = _; rw [hr]; exact hu.rate
  · show e.clk.dmcClock = _; rw [hr]; exact hu.dmcClock
  · show e.stolen = _; rw [hr]; exact hu.stolen
  · show e.dmc = { d.dmc with linSample := e.dmc.linSample }; rw [hr]; exact hu.dmc
  · show (e.irq.frame && !f.irqInhibit) = _; rw [hf h]; rfl

end Sys2Proof.Machine
end

