-- ==== Sys2Proof/Laws/Output.lean ====
section
/-!
SUPPORT. Delivery to the host: what the ring's reads and writes do, what a flush writes, and what rebasing keeps
(49_output_and_synthesis.md R338 to R347).
-/

namespace Sys2Proof.Machine

variable {P : Params} {d : Dev} {r : Ring}

theorem Ring.latency_lt (hP : P.Valid) (r : Ring) : r.latency P < P.ringSize := by
  have h : (0 : Int) < P.ringSize := by exact_mod_cast hP.ringSize_pos
  have := Int.emod_lt_of_pos ((r.pos : Int) - r.start) h
  have := Int.emod_nonneg ((r.pos : Int) - r.start) h.ne'
  unfold Ring.latency
  omega

@[simp] theorem Ring.block_length (P : Params) (n : Nat) (r : Ring) : (r.block P n).length = n := by
  simp [Ring.block]

/-- A flush has one sample for every frame of the stream (49_output_and_synthesis.md R344). -/
@[simp] theorem flushSamples_length (P : Params) (length : Nat) (r : Ring) :
    (flushSamples P length r).length = length := by
  simp [flushSamples]

/-- Every stored sample is in bounds, also the ones an empty slot reads as. -/
theorem Ring.Inv.sampleAt_range (hP : P.Valid) (h : r.Inv P) (k : Nat) :
    P.sampleMin ≤ sampleAt r.output k ∧ sampleAt r.output k ≤ P.sampleMax :=
  sampleAt_of_forall (p := fun v => P.sampleMin ≤ v ∧ v ≤ P.sampleMax) ⟨hP.sampleMin_le, hP.sampleMax_ge⟩
    h.output_range k

theorem Ring.Inv.historyAt_range (hP : P.Valid) (h : r.Inv P) (k : Nat) :
    P.sampleMin ≤ sampleAt r.history k ∧ sampleAt r.history k ≤ P.sampleMax :=
  sampleAt_of_forall (p := fun v => P.sampleMin ≤ v ∧ v ≤ P.sampleMax) ⟨hP.sampleMin_le, hP.sampleMax_ge⟩
    h.history_range k

theorem Ring.Inv.deliver (hP : P.Valid) (h : r.Inv P) (n : Nat) : (r.deliver P n).Inv P :=
  ⟨h.pos, Nat.mod_lt _ hP.ringSize_pos, h.output_wf, h.output_index, h.output_range, h.history_wf, h.history_index,
    h.history_range⟩

theorem Ring.hold_range (hP : P.Valid) (h : r.Inv P) : P.sampleMin ≤ r.hold P ∧ r.hold P ≤ P.sampleMax :=
  h.sampleAt_range hP _

theorem flushSamples_range (hP : P.Valid) (h : r.Inv P) (length : Nat) :
    ∀ s ∈ flushSamples P length r, P.sampleMin ≤ s ∧ s ≤ P.sampleMax := by
  intro s hs
  simp only [flushSamples, List.mem_append, Ring.block, List.mem_map, List.mem_replicate] at hs
  rcases hs with ⟨k, -, rfl⟩ | ⟨-, rfl⟩
  · exact h.sampleAt_range hP _
  · exact Ring.hold_range hP (h.deliver hP _)

theorem writeFrame_inv (hP : P.Valid) (cfg : Settings) (h : r.Inv P) {s : Int} (hs : P.sampleMin ≤ s ∧ s ≤ P.sampleMax) :
    (writeFrame P cfg s r).2.Inv P := by
  unfold writeFrame
  cases cfg.channels
  · exact h
  · refine ⟨h.pos, h.start, h.output_wf, h.output_index, h.output_range, samplesWf_putSample h.history_wf _ _,
      fun c hc => ?_, fun c hc => ?_⟩
    · rcases mem_putSample hc with rfl | hc
      · exact Nat.mod_lt _ hP.historySize_pos
      · exact h.history_index c hc
    · rcases mem_putSample hc with rfl | hc
      · exact hs
      · exact h.history_range c hc

theorem writeFrames_inv (hP : P.Valid) (cfg : Settings) (l : List Int) (h : r.Inv P)
    (hs : ∀ s ∈ l, P.sampleMin ≤ s ∧ s ≤ P.sampleMax) : (writeFrames P cfg l r).2.Inv P := by
  induction l generalizing r with
  | nil => exact h
  | cons s l ih =>
    exact ih (writeFrame_inv hP cfg h (hs s List.mem_cons_self)) fun s hm => hs s (List.mem_cons_of_mem _ hm)

theorem flushRing_inv (hP : P.Valid) (cfg : Settings) (length : Nat) (h : r.Inv P) :
    (flushRing P cfg length r).2.Inv P :=
  writeFrames_inv hP cfg _ (h.deliver hP _) (flushSamples_range hP h length)

/-- Writing a frame leaves the output ring and its two indices alone. -/
theorem writeFrames_rest (P : Params) (cfg : Settings) (l : List Int) (r : Ring) :
    (writeFrames P cfg l r).2 =
      { r with history := (writeFrames P cfg l r).2.history, hpos := (writeFrames P cfg l r).2.hpos } := by
  induction l generalizing r with
  | nil => rfl
  | cons s l ih =>
    have h : writeFrames P cfg (s :: l) r = ((writeFrame P cfg s r).1 ++ (writeFrames P cfg l (writeFrame P cfg s r).2).1,
      (writeFrames P cfg l (writeFrame P cfg s r).2).2) := rfl
    rw [h]
    simp only
    rw [ih]
    unfold writeFrame
    cases cfg.channels <;> rfl

/-- In mono the slots are the encoded samples (49_output_and_synthesis.md R346). -/
theorem writeFrames_mono {cfg : Settings} (h : cfg.channels = .mono) (l : List Int) (r : Ring) :
    writeFrames P cfg l r = (l.map (encodeSlot cfg.bits), r) := by
  induction l generalizing r with
  | nil => rfl
  | cons s l ih =>
    simp only [writeFrames, writeFrame, h, ih]
    rfl

/-- Two slots a frame in stereo, one in mono (49_output_and_synthesis.md R346, R347). -/
theorem writeFrames_length (P : Params) (cfg : Settings) (l : List Int) (r : Ring) :
    (writeFrames P cfg l r).1.length = (match cfg.channels with | .mono => 1 | .stereo => 2) * l.length := by
  induction l generalizing r with
  | nil => rfl
  | cons s l ih =>
    simp only [writeFrames, List.length_append, ih, writeFrame, List.length_cons]
    cases cfg.channels <;> simp <;> ring

theorem flush_dev_inv (hP : P.Valid) {s : State} (h : s.dev.Inv P) (length : Nat) : (flush P length s).dev.Inv P :=
  h.withRing (flushRing_inv hP _ _ h.ring)

@[simp] theorem lockStream_dev (a : LockAnswer) (s : State) : (lockStream a s).dev = s.dev := by
  unfold lockStream; cases a <;> rfl

@[simp] theorem unlockStream_dev (a : LockAnswer) (s : State) : (unlockStream a s).dev = s.dev := by
  unfold unlockStream; cases a <;> rfl

theorem deliverFrame_dev_inv (hP : P.Valid) {s : State} (h : s.dev.Inv P) (stream : Option Nat) (a : LockAnswer) :
    (deliverFrame P stream a s).dev.Inv P := by
  unfold deliverFrame
  split
  · exact h
  · exact h
  · exact h
  · rw [unlockStream_dev]
    exact flush_dev_inv hP (by rw [lockStream_dev]; exact h) _

/-- What delivery may change: the ring, and on the host's side everything (49_output_and_synthesis.md R337). -/
theorem deliverFrame_rest (P : Params) (stream : Option Nat) (a : LockAnswer) (s : State) :
    deliverFrame P stream a s = { s with
      dev := { s.dev with ring := (deliverFrame P stream a s).dev.ring }
      host := (deliverFrame P stream a s).host } := by
  unfold deliverFrame lockStream unlockStream flush
  cases stream <;> cases s.dev.cfg.synth <;> cases a <;> rfl

/-- Rebasing keeps the invariant of a device that is caught up to the end of the frame
(49_output_and_synthesis.md R338). -/
theorem rebase_inv (h : d.Inv P) {n : Nat} (hr : (n : Int) * d.clk.fixed ≤ d.clk.rateCounter)
    (hf : (n : Int) * d.clk.fixed ≤ d.clk.frameCounter) (hm : (n : Int) * d.clk.fixed ≤ d.clk.dmcClock) :
    (rebase n d).Inv P := by
  have hc := h.clk
  have hd : d.clk.fixed ∣ (n : Int) * d.clk.fixed := Dvd.intro_left _ rfl
  refine h.withClk ?_ rfl rfl
  refine ⟨hc.fixed_pos, hc.rate_pos, hc.fixed_eq, hc.rate_eq, dvd_sub hc.frame_whole hd, dvd_sub hc.dmc_whole hd, ?_,
    ?_, sub_nonneg.mpr hr, sub_nonneg.mpr hf, sub_nonneg.mpr hm, ?_⟩
  · intro x hx
    simp only [Option.map_eq_some_iff] at hx
    obtain ⟨y, hy, rfl⟩ := hx
    exact dvd_sub (hc.irq_whole y hy) hd
  · simpa using hc.irq_finite
  · simp [hc.ext]

end Sys2Proof.Machine
end

