-- ==== Sys2Proof/Laws/Exec.lean ====
section
/-!
SUPPORT. What each meaning can do, said once: a meaning that catches up answers a next state exactly when duty P2
holds, and then the state written here (49_output_and_synthesis.md R331).
-/

namespace Sys2Proof.Machine

variable {P : Params} {s t : State}

/-- The catch-up at the head of an operation, when duty P2 holds. -/
theorem catchUpThen_onTime (h : s.onTime) (k : State → State) :
    catchUpThen P s k = .next (k (s.done (s.caughtUp P))) := if_pos h

/-- The contract fault, when it does not. -/
theorem catchUpThen_late (h : ¬ s.onTime) (k : State → State) : catchUpThen P s k = .fault .dmcTickMissed := if_neg h

/-- Everything `catchUpThen` can answer. -/
theorem catchUpThen_next {k : State → State} (h : catchUpThen P s k = .next t) :
    s.onTime ∧ t = k (s.done (s.caughtUp P)) := by
  unfold catchUpThen at h
  split_ifs at h with hp
  exact ⟨hp, (Host.Outcome.next.inj h).symm⟩

/-- The device after the catch-up of a sound state: sound, its untouched fields as before, nothing left due. -/
theorem State.caughtUp_spec (hP : P.Valid) (h : s.dev.Inv P) :
    (s.caughtUp P).Inv P ∧ s.dev.Untouched (s.caughtUp P) ∧ s.nowU ≤ (s.caughtUp P).clk.rateCounter ∧
      s.nowU ≤ (s.caughtUp P).clk.frameCounter := by
  obtain ⟨h1, h2, h3, h4, -, -⟩ := update_spec hP s.nowU h
  exact ⟨h1, h2, h3, h4⟩

/-- The frame IRQ timer leaves the scale alone, so the time of the operation stands. -/
@[simp] theorem State.nowU_frameIrqTick (P : Params) (limit : Int) (s : State) :
    (s.mapDev (frameIrqTick P limit)).nowU = s.nowU := by
  have h : (frameIrqTick P limit s.dev).clk.fixed = s.dev.clk.fixed := by rw [frameIrqTick_rest]
  unfold State.nowU
  rw [show (s.mapDev (frameIrqTick P limit)).dev = frameIrqTick P limit s.dev from rfl, h]
  rfl

/-- The frame IRQ timer leaves the Dmc's clock alone, so duty P2 stands. -/
theorem State.onTime_frameIrqTick (P : Params) (limit : Int) (s : State) :
    (s.mapDev (frameIrqTick P limit)).onTime ↔ s.onTime := by
  have h : (frameIrqTick P limit s.dev).clk.dmcClock = s.dev.clk.dmcClock := by rw [frameIrqTick_rest]
  unfold State.onTime
  rw [State.nowU_frameIrqTick, show (s.mapDev (frameIrqTick P limit)).dev = frameIrqTick P limit s.dev from rfl, h]

/-! ### Latching the time -/

theorem atTime_next {now : Nat} {odd : Bool} {k : State → Result} (h : atTime now odd s k = .next t) :
    s.inp.now ≤ now ∧ k { s with inp := { now := now, odd := odd } } = .next t := by
  unfold atTime at h
  split_ifs at h with hn
  exact ⟨hn, h⟩

theorem atTime_onTime {now : Nat} {odd : Bool} {k : State → Result} (h : s.inp.now ≤ now) :
    atTime now odd s k = k { s with inp := { now := now, odd := odd } } := if_pos h

end Sys2Proof.Machine
end

