-- ==== Sys2Proof/Laws/Operands.lean ====
section
/-!
SUPPORT. The operand forms as numbers (30_encoding.md R110 to R113), the bits of a written byte that a unit reads, and
the fetch address's increment (44_dmc.md R229).
-/

namespace Sys2Proof.Machine

/-- The period value after a register-2 write (30_encoding.md R110). -/
theorem withPeriodLow_eq (w : BitVec 11) (low : Byte) :
    withPeriodLow w low = BitVec.ofNat 11 (w.toNat / 256 * 256 + low.toNat) := by
  have high : ∀ w : BitVec 11, (w &&& 0x700).toNat = w.toNat / 256 * 256 := by decide +kernel
  have h : withPeriodLow w low = (w &&& 0x700) + low.setWidth 11 := by
    rw [withPeriodLow, BitVec.add_eq_or_of_and_eq_zero]
    apply BitVec.eq_of_getLsbD_eq
    intro i hi
    rw [BitVec.getLsbD_and, BitVec.getLsbD_and, BitVec.getLsbD_setWidth]
    rcases Nat.lt_or_ge i 8 with h8 | h8
    · have : (0x700 : BitVec 11).getLsbD i = false := by interval_cases i <;> decide
      rw [this]; simp
    · simp [BitVec.getLsbD_of_ge low i h8]
  apply BitVec.eq_of_toNat_eq
  rw [h, BitVec.toNat_add, high]
  simp

/-- The period value after a register-3 write (30_encoding.md R110). -/
theorem withPeriodHigh_eq (w : BitVec 11) (high : BitVec 3) :
    withPeriodHigh w high = BitVec.ofNat 11 (high.toNat * 256 + w.toNat % 256) := by
  revert w high; decide +kernel

/-- The Dmc's start address (30_encoding.md R112). -/
theorem dmcStartAddress_eq (d : Byte) : dmcStartAddress d = BitVec.ofNat 16 (0xC000 + d.toNat * 64) := by
  revert d; decide +kernel

/-- Bit 4 of an `F_ENV` byte (30_encoding.md R106). -/
theorem FEnv.toByte_disable (f : FEnv) : f.toByte.getLsbD 4 = f.disable := by
  conv_rhs => rw [← FEnv.ofByte_toByte f]
  simp [FEnv.ofByte]

/-- Bits 3 to 0 of an `F_ENV` byte (30_encoding.md R106). -/
theorem FEnv.toByte_rate (f : FEnv) : f.toByte.extractLsb' 0 4 = f.rate := by
  conv_rhs => rw [← FEnv.ofByte_toByte f]
  simp [FEnv.ofByte]

/-- `len.Load` field by field (40_envelope_length.md R137). -/
theorem LengthCounter.load_eq (P : Params) (l : LengthCounter) (i : BitVec 5) :
    l.load P i = { l with count := if l.enabled = true then P.lengthTable.getD i.toNat 0 else l.count } := by
  unfold LengthCounter.load
  obtain ⟨e, c⟩ := l
  cases e <;> simp

/-- `UpdateFrequency` field by field (41_square.md R154). -/
theorem Square.updateFrequency_eq (P : Params) (cc : Int) (q : Square) :
    q.updateFrequency P cc = { q with
      validFrequency := q.periodValid P
      osc := { q.osc with
        frequency := if q.periodValid P = true then squarePeriod q.waveLength cc else q.osc.frequency
        active := decide (0 < q.len.count) && decide (0 < q.env.output) && q.periodValid P } } := by
  unfold Square.updateFrequency
  by_cases h : q.periodValid P = true <;> simp [h, Square.refresh, Square.canOutput]

/-- The fetch address goes up by one and wraps from `0xFFFF` to `0x8000` (44_dmc.md R229). -/
theorem fetchAddress_eq {a : Addr} (h : 0x8000 ≤ a.toNat) :
    (0x8000 ||| ((a + 1) &&& 0x7FFF) : Addr) = if a = 0xFFFF then 0x8000 else a + 1 := by
  split_ifs with hf
  · subst hf; decide
  · have hne : a.toNat ≠ 0xFFFF := fun hx => hf (BitVec.eq_of_toNat_eq hx)
    have top : (a + 1).getLsbD 15 = true := by
      have := a.isLt
      rw [BitVec.getLsbD, BitVec.toNat_add, Nat.testBit_eq_decide_div_mod_eq, decide_eq_true_eq]
      simp
      omega
    generalize a + 1 = b at top
    apply BitVec.eq_of_getLsbD_eq
    intro i hi
    rw [BitVec.getLsbD_or, BitVec.getLsbD_and]
    by_cases h15 : i = 15
    · subst h15; rw [top]; rfl
    · have h1 : (0x8000 : Addr).getLsbD i = false := by interval_cases i <;> first | rfl | omega
      have h2 : (0x7FFF : Addr).getLsbD i = true := by interval_cases i <;> first | rfl | omega
      rw [h1, h2]; simp

end Sys2Proof.Machine
end

