-- ==== Sys2Proof/Laws/PerInstr.lean ====
section
/-!
SUPPORT. What is stated of every instruction, one lemma per constructor: the bits of its word under the table's mask
are the ones the opcode table gives its row, and the rest is its data byte (30_encoding.md R100, R101).
-/

namespace Sys2Proof.Laws.TableMatch

open Sys2Proof

/-- The row's `match` in the opcode table, as the table writes it. -/
def tableMatch : Instr → TWord
  | .sq1R0 _ => 20971520
  | .sq1R1 _ => 20971776
  | .sq1R2 _ => 20972032
  | .sq1R3 _ => 20972288
  | .sq2R0 _ => 20972544
  | .sq2R1 _ => 20972800
  | .sq2R2 _ => 20973056
  | .sq2R3 _ => 20973312
  | .triR0 _ => 20973568
  | .triR2 _ => 20974080
  | .triR3 _ => 20974336
  | .noiR0 _ => 20974592
  | .noiR2 _ => 20975104
  | .noiR3 _ => 20975360
  | .dmcR0 _ => 20975616
  | .dmcR1 _ => 20975872
  | .dmcR2 _ => 20976128
  | .dmcR3 _ => 20976384
  | .statusW _ => 20976896
  | .statusR => 4199680
  | .frameW _ => 20977408
  | .nop4009 _ => 20973824
  | .nop400D _ => 20974848

/-- The word of `i` has its row's bits under the mask `0x1FFFF00`, and its data byte below. -/
def Statement (i : Instr) : Prop :=
  encode i &&& 0x1FFFF00 = tableMatch i ∧ (encode i).data = i.data

/-- The head decides the masked bits. -/
theorem masked (h : Head) (d : Byte) : ((h ++ d : TWord) &&& 0x1FFFF00) = (h ++ (0 : Byte) : TWord) := by
  apply BitVec.eq_of_getLsbD_eq
  intro i hi
  have hm : ∀ j : Fin 25, (0x1FFFF00 : TWord).getLsbD j = decide (8 ≤ j.val) := by decide
  rw [BitVec.getLsbD_and, hm ⟨i, hi⟩, BitVec.getLsbD_append, BitVec.getLsbD_append]
  rcases Nat.lt_or_ge i 8 with h8 | h8 <;> simp [h8, Nat.not_lt.mpr]

theorem sq1R0 (f : FEnv) : Statement (.sq1R0 f) :=
  ⟨(masked _ _).trans (by decide : ((0x14000 : Head) ++ (0 : Byte) : TWord) = 20971520), encode_data _⟩
theorem sq1R1 (f : FSweep) : Statement (.sq1R1 f) :=
  ⟨(masked _ _).trans (by decide : ((0x14001 : Head) ++ (0 : Byte) : TWord) = 20971776), encode_data _⟩
theorem sq1R2 (f : FPlo) : Statement (.sq1R2 f) :=
  ⟨(masked _ _).trans (by decide : ((0x14002 : Head) ++ (0 : Byte) : TWord) = 20972032), encode_data _⟩
theorem sq1R3 (f : FPhi) : Statement (.sq1R3 f) :=
  ⟨(masked _ _).trans (by decide : ((0x14003 : Head) ++ (0 : Byte) : TWord) = 20972288), encode_data _⟩
theorem sq2R0 (f : FEnv) : Statement (.sq2R0 f) :=
  ⟨(masked _ _).trans (by decide : ((0x14004 : Head) ++ (0 : Byte) : TWord) = 20972544), encode_data _⟩
theorem sq2R1 (f : FSweep) : Statement (.sq2R1 f) :=
  ⟨(masked _ _).trans (by decide : ((0x14005 : Head) ++ (0 : Byte) : TWord) = 20972800), encode_data _⟩
theorem sq2R2 (f : FPlo) : Statement (.sq2R2 f) :=
  ⟨(masked _ _).trans (by decide : ((0x14006 : Head) ++ (0 : Byte) : TWord) = 20973056), encode_data _⟩
theorem sq2R3 (f : FPhi) : Statement (.sq2R3 f) :=
  ⟨(masked _ _).trans (by decide : ((0x14007 : Head) ++ (0 : Byte) : TWord) = 20973312), encode_data _⟩
theorem triR0 (f : FLin) : Statement (.triR0 f) :=
  ⟨(masked _ _).trans (by decide : ((0x14008 : Head) ++ (0 : Byte) : TWord) = 20973568), encode_data _⟩
theorem triR2 (f : FPlo) : Statement (.triR2 f) :=
  ⟨(masked _ _).trans (by decide : ((0x1400A : Head) ++ (0 : Byte) : TWord) = 20974080), encode_data _⟩
theorem triR3 (f : FPhi) : Statement (.triR3 f) :=
  ⟨(masked _ _).trans (by decide : ((0x1400B : Head) ++ (0 : Byte) : TWord) = 20974336), encode_data _⟩
theorem noiR0 (f : FEnv) : Statement (.noiR0 f) :=
  ⟨(masked _ _).trans (by decide : ((0x1400C : Head) ++ (0 : Byte) : TWord) = 20974592), encode_data _⟩
theorem noiR2 (f : FNper) : Statement (.noiR2 f) :=
  ⟨(masked _ _).trans (by decide : ((0x1400E : Head) ++ (0 : Byte) : TWord) = 20975104), encode_data _⟩
theorem noiR3 (f : FPhi) : Statement (.noiR3 f) :=
  ⟨(masked _ _).trans (by decide : ((0x1400F : Head) ++ (0 : Byte) : TWord) = 20975360), encode_data _⟩
theorem dmcR0 (f : FDctl) : Statement (.dmcR0 f) :=
  ⟨(masked _ _).trans (by decide : ((0x14010 : Head) ++ (0 : Byte) : TWord) = 20975616), encode_data _⟩
theorem dmcR1 (f : FDdac) : Statement (.dmcR1 f) :=
  ⟨(masked _ _).trans (by decide : ((0x14011 : Head) ++ (0 : Byte) : TWord) = 20975872), encode_data _⟩
theorem dmcR2 (f : FByte) : Statement (.dmcR2 f) :=
  ⟨(masked _ _).trans (by decide : ((0x14012 : Head) ++ (0 : Byte) : TWord) = 20976128), encode_data _⟩
theorem dmcR3 (f : FByte) : Statement (.dmcR3 f) :=
  ⟨(masked _ _).trans (by decide : ((0x14013 : Head) ++ (0 : Byte) : TWord) = 20976384), encode_data _⟩
theorem statusW (f : FStw) : Statement (.statusW f) :=
  ⟨(masked _ _).trans (by decide : ((0x14015 : Head) ++ (0 : Byte) : TWord) = 20976896), encode_data _⟩
theorem statusR : Statement (.statusR) :=
  ⟨(masked _ _).trans (by decide : ((0x04015 : Head) ++ (0 : Byte) : TWord) = 4199680), encode_data _⟩
theorem frameW (f : FFrm) : Statement (.frameW f) :=
  ⟨(masked _ _).trans (by decide : ((0x14017 : Head) ++ (0 : Byte) : TWord) = 20977408), encode_data _⟩
theorem nop4009 (d : Byte) : Statement (.nop4009 d) :=
  ⟨(masked _ _).trans (by decide : ((0x14009 : Head) ++ (0 : Byte) : TWord) = 20973824), encode_data _⟩
theorem nop400D (d : Byte) : Statement (.nop400D d) :=
  ⟨(masked _ _).trans (by decide : ((0x1400D : Head) ++ (0 : Byte) : TWord) = 20974848), encode_data _⟩

end Sys2Proof.Laws.TableMatch
end

