-- ==== Sys2Proof/Laws/Reset.lean ====
section
/-!
SUPPORT. The reset state written out in Sys2Proof/Machine/State.lean is what the reset procedure gives
(70_reset_and_hazards.md R400, R401).
-/

namespace Sys2Proof.Machine

set_option maxRecDepth 20000 in
theorem resetDev_derived : deriveFor params (powerOnSettings .ntsc) = { m := 7, rate := 37500, fixed := 77 } := by
  decide +kernel

theorem resetDev_eq : resetDev = powerOn params .ntsc := by
  unfold powerOn freshDev freshClock
  rw [resetDev_derived]
  rfl

end Sys2Proof.Machine
end

