-- ==== Sys2Proof/Tests/Slice0.lean ====
section
/-!
SUPPORT. The model's own tests.  Every expected value is the spec's: the word of a decode test is written out from
30_encoding.md, the value of a one-step test is the example of the rule named in the comment.  Then one witness for each
statement that has hypotheses, and for each of its clauses.
-/

namespace Sys2Proof.Tests

open Sys2Proof Sys2Proof.Machine

/-! ### Ill-formed lines are refused, check by check -/

/-- `WR $4016` is no operation of the device. -/
theorem test_wf_not_an_operation : (Line.bus 0 false 0x1401600).problem = some .notAnOperation := by decide

/-- Only `WR $4017` carries the parity. -/
theorem test_wf_stray_odd :
    (Line.bus 0 true 0x1400000).problem = some .strayOdd ∧ (Line.bus 0 true 0x1401700).problem = none := by decide

/-- A frame is not empty and not longer than the time gone by. -/
theorem test_wf_frame_cycles :
    (Line.event (.endFrame 10 0 none .granted)).problem = some .frameCycles ∧
    (Line.event (.endFrame 10 11 none .granted)).problem = some .frameCycles ∧
    (Line.event (.endFrame 10 10 none .granted)).problem = none := by decide

/-- Time does not go back. -/
theorem test_wf_time_back :
    programProblem 0 [.event (.update 12), .event (.update 11)] = some .timeBack ∧
    programWf 0 [.event (.update 12), .event (.reset false), .event (.update 0)] = true := by decide

/-! ### Decoding: one word for each constructor, bit by bit -/

theorem test_decode_squares :
    decode 0b1_0100000000000000_01100101 = .instr (.sq1R0 ⟨1, true, false, 5⟩) ∧
    decode 0b1_0100000000000001_10100011 = .instr (.sq1R1 ⟨true, 2, false, 3⟩) ∧
    decode 0b1_0100000000000010_11111101 = .instr (.sq1R2 ⟨0xFD⟩) ∧
    decode 0b1_0100000000000011_00001001 = .instr (.sq1R3 ⟨1, 1⟩) ∧
    decode 0b1_0100000000000100_00110000 = .instr (.sq2R0 ⟨0, true, true, 0⟩) ∧
    decode 0b1_0100000000000101_01101010 = .instr (.sq2R1 ⟨false, 6, true, 2⟩) ∧
    decode 0b1_0100000000000110_11111111 = .instr (.sq2R2 ⟨0xFF⟩) ∧
    decode 0b1_0100000000000111_11111000 = .instr (.sq2R3 ⟨31, 0⟩) := by decide

theorem test_decode_triangle :
    decode 0b1_0100000000001000_00000101 = .instr (.triR0 ⟨false, 5⟩) ∧
    decode 0b1_0100000000001010_00000010 = .instr (.triR2 ⟨2⟩) ∧
    decode 0b1_0100000000001011_00001110 = .instr (.triR3 ⟨1, 6⟩) := by decide

theorem test_decode_noise :
    decode 0b1_0100000000001100_00111010 = .instr (.noiR0 ⟨0, true, true, 10⟩) ∧
    decode 0b1_0100000000001110_01010011 = .instr (.noiR2 ⟨false, 5, 3⟩) ∧
    decode 0b1_0100000000001111_00011111 = .instr (.noiR3 ⟨3, 7⟩) := by decide

theorem test_decode_dmc :
    decode 0b1_0100000000010000_01100001 = .instr (.dmcR0 ⟨false, true, 2, 1⟩) ∧
    decode 0b1_0100000000010001_11000000 = .instr (.dmcR1 ⟨true, 64⟩) ∧
    decode 0b1_0100000000010010_11111111 = .instr (.dmcR2 ⟨0xFF⟩) ∧
    decode 0b1_0100000000010011_00000001 = .instr (.dmcR3 ⟨1⟩) := by decide

/-- A read's data byte is ignored (R100). -/
theorem test_decode_status :
    decode 0b1_0100000000010101_10110010 = .instr (.statusW ⟨5, true, false, false, true, false⟩) ∧
    decode 0b0_0100000000010101_00000000 = .instr .statusR ∧
    decode 0b0_0100000000010101_11111111 = .instr .statusR := by decide

theorem test_decode_frame :
    decode 0b1_0100000000010111_01000001 = .instr (.frameW ⟨false, true, 1⟩) := by decide

theorem test_decode_no_effect :
    decode 0b1_0100000000001001_10101010 = .instr (.nop4009 0xAA) ∧
    decode 0b1_0100000000001101_00000001 = .instr (.nop400D 1) := by decide

/-- The classes (b), (c) and (d) of R104 at the ends of their ranges. -/
theorem test_decode_rejects :
    decode 0x1401400 = .reject (.otherDevice 0x4014) ∧ decode 0x0401600 = .reject (.otherDevice 0x4016) ∧
    decode 0x0400000 = .reject (.readOfWriteOnly 0x4000) ∧ decode 0x0401300 = .reject (.readOfWriteOnly 0x4013) ∧
    decode 0x0401700 = .reject (.readOfWriteOnly 0x4017) ∧
    decode 0x13FFF00 = .reject (.outsideWindow 0x3FFF) ∧ decode 0x1401800 = .reject (.outsideWindow 0x4018) := by
  decide

/-- The encoder writes the words of 30_encoding.md. -/
theorem test_encode :
    encode (.sq1R0 ⟨2, true, true, 15⟩) = 0x14000BF ∧ encode .statusR = 0x0401500 ∧
    encode (.frameW ⟨true, false, 0⟩) = 0x1401780 := by decide

/-- The opcode table's 32-bit word, and a bit above the transaction. -/
theorem test_table_word :
    decodeTableWord 32 0x14011C0 = some (.dmcR1 ⟨true, 64⟩) ∧ decodeTableWord 32 0x34011C0 = none := by decide

/-! ### One step of each instruction -/

/-- The state after an instruction, if it has one. -/
def after (i : Instr) (s : State) : Option State :=
  match exec i s with
  | .next t => some t
  | .fault _ | .refused _ => none

/-- The state after a host event, if it has one. -/
def afterEvent (e : HostEvent) (s : State) : Option State :=
  match runEvent e s with
  | .next t => some t
  | .fault _ | .refused _ => none

/-- The reset state with another device. -/
def withDev (f : Dev → Dev) : State := { State.reset with dev := f State.reset.dev }

/-- R160: `WR $4000, #$BF`. -/
theorem test_sq1R0 :
    (after (.sq1R0 (.ofByte 0xBF)) State.reset).map (fun t => (t.dev.sq0.duty, t.dev.sq0.env.reg, t.dev.sq0.env.output)) =
      some (2, 0xBF, 3840) := by decide

/-- R161: `WR $4001, #$A3`. -/
theorem test_sq1R1 :
    (after (.sq1R1 (.ofByte 0xA3)) State.reset).map (fun t =>
      (t.dev.sq0.sweep.increase, t.dev.sq0.sweep.shift, t.dev.sq0.sweep.rate, t.dev.sq0.sweep.reload)) =
      some (true, 3, 3, true) := by decide

/-- R162: `waveLength = 0x1FD`, `WR $4002, #$FE`. -/
theorem test_sq1R2 :
    (after (.sq1R2 ⟨0xFE⟩) (withDev fun d => { d with sq0 := { d.sq0 with waveLength := 0x1FD } })).map
      (fun t => t.dev.sq0.waveLength) = some 0x1FE := by decide

/-- R163: enabled, `waveLength = 0x0FD`, `WR $4003, #$09`. -/
theorem test_sq1R3 :
    (after (.sq1R3 (.ofByte 0x09)) (withDev fun d =>
        { d with sq0 := { d.sq0 with waveLength := 0x0FD, step := 5, len := { enabled := true, count := 0 } } })).map
      (fun t => (t.dev.sq0.len.count, t.dev.sq0.waveLength, t.dev.sq0.step, t.dev.sq0.env.reset)) =
      some (254, 0x1FD, 0, true) := by decide

/-- R164: `WR $4004, #$30`. -/
theorem test_sq2R0 :
    (after (.sq2R0 (.ofByte 0x30)) State.reset).map (fun t =>
      (t.dev.sq1.duty, t.dev.sq1.env.reg, t.dev.sq1.env.output, t.dev.sq1.osc.active)) =
      some (0, 0x30, 0, false) := by decide

/-- R165: `WR $4005, #$8A`. -/
theorem test_sq2R1 :
    (after (.sq2R1 (.ofByte 0x8A)) State.reset).map (fun t =>
      (t.dev.sq1.sweep.increase, t.dev.sq1.sweep.shift, t.dev.sq1.sweep.rate, t.dev.sq1.sweep.reload)) =
      some (false, 2, 1, true) := by decide

/-- R166: `waveLength = 0x700`, `WR $4006, #$FF`. -/
theorem test_sq2R2 :
    (after (.sq2R2 ⟨0xFF⟩) (withDev fun d => { d with sq1 := { d.sq1 with waveLength := 0x700 } })).map
      (fun t => t.dev.sq1.waveLength) = some 0x7FF := by decide

/-- R167: disabled in `$4015`, `WR $4007, #$F8`. -/
theorem test_sq2R3 :
    (after (.sq2R3 (.ofByte 0xF8)) (withDev fun d => { d with sq1 := { d.sq1 with waveLength := 0x7FF } })).map
      (fun t => (t.dev.sq1.len.count, t.dev.sq1.waveLength)) = some (0, 0x0FF) := by decide

/-- R190: `WR $4008, #$FF`. -/
theorem test_triR0 :
    (after (.triR0 (.ofByte 0xFF)) State.reset).map (fun t => t.dev.tri.linearCtrl) = some 0xFF := by decide

/-- R191: `waveLength = 0x100`, `WR $400A, #$02`; `CC` is 924. -/
theorem test_triR2 :
    (after (.triR2 ⟨2⟩) (withDev fun d => { d with tri := { d.tri with waveLength := 0x100 } })).map
      (fun t => (t.dev.tri.waveLength, t.dev.tri.osc.frequency)) = some (0x102, 0x103 * 924) := by decide

/-- R192: enabled, `WR $400B, #$08`. -/
theorem test_triR3 :
    (after (.triR3 (.ofByte 0x08)) (withDev fun d =>
        { d with tri := { d.tri with waveLength := 0x7FF, len := { enabled := true, count := 0 } } })).map
      (fun t => (t.dev.tri.len.count, t.dev.tri.waveLength, t.dev.tri.status)) = some (254, 0x0FF, .reload) := by decide

/-- R210: `WR $400C, #$3A`. -/
theorem test_noiR0 :
    (after (.noiR0 (.ofByte 0x3A)) State.reset).map (fun t => (t.dev.noise.env.reg, t.dev.noise.env.output)) =
      some (0x3A, 2560) := by decide

/-- R211: NTSC, `WR $400E, #$8F`. -/
theorem test_noiR2 :
    (after (.noiR2 (.ofByte 0x8F)) State.reset).map (fun t =>
      (t.dev.noise.periodIndex, t.dev.noise.osc.frequency, t.dev.noise.shifter)) =
      some (15, 4068 * 924, .short) := by decide

/-- R212: enabled, `WR $400F, #$18`. -/
theorem test_noiR3 :
    (after (.noiR3 (.ofByte 0x18)) (withDev fun d =>
        { d with noise := { d.noise with len := { enabled := true, count := 0 } } })).map
      (fun t => (t.dev.noise.len.count, t.dev.noise.env.reset)) = some (2, true) := by decide

/-- R224: NTSC, `WR $4010, #$8F`; the clock already scheduled keeps its time. -/
theorem test_dmcR0 :
    (after (.dmcR0 (.ofByte 0x8F)) State.reset).map (fun t =>
      (t.dev.dmc.irqEnable, t.dev.dmc.loop, t.dev.dmc.rateIndex, t.dev.dmc.frequency, t.dev.clk.dmcClock)) =
      some (true, false, 15, 54 * 924, 395472) := by decide

/-- R224: clearing the enable clears a pending interrupt. -/
theorem test_dmcR0_clears :
    (after (.dmcR0 (.ofByte 0x00)) (withDev fun d => { d with irq := { frame := true, dmc := true } })).map
      (fun t => t.dev.irq) = some { frame := true, dmc := false } := by decide

/-- R225: `WR $4011, #$C0`. -/
theorem test_dmcR1 :
    (after (.dmcR1 (.ofByte 0xC0)) State.reset).map (fun t =>
      (t.dev.dmc.out.dac, t.dev.dmc.curSample, t.dev.dmc.linSample)) = some (0x40, 16384, 16384) := by decide

/-- R226: `WR $4012` with `#$00` and `#$FF`. -/
theorem test_dmcR2 :
    (after (.dmcR2 ⟨0x00⟩) State.reset).map (fun t => t.dev.dmc.regAddress) = some 0xC000 ∧
    (after (.dmcR2 ⟨0xFF⟩) State.reset).map (fun t => t.dev.dmc.regAddress) = some 0xFFC0 := by decide

/-- R227: `WR $4013` with `#$00` and `#$FF`. -/
theorem test_dmcR3 :
    (after (.dmcR3 ⟨0x00⟩) State.reset).map (fun t => t.dev.dmc.regLength) = some 1 ∧
    (after (.dmcR3 ⟨0xFF⟩) State.reset).map (fun t => t.dev.dmc.regLength) = some 4081 := by decide

/-- The device with all four length counts at 20. -/
def twenties (d : Dev) : Dev :=
  let len : LengthCounter := { enabled := true, count := 20 }
  { d with
    sq0 := { d.sq0 with len := len }
    sq1 := { d.sq1 with len := len }
    tri := { d.tri with len := len }
    noise := { d.noise with len := len } }

/-- R281: all four counts at 20, `WR $4015, #$01`. -/
theorem test_statusW :
    (after (.statusW (.ofByte 0x01)) (withDev twenties)).map (fun t =>
      (t.dev.sq0.len.count, t.dev.sq1.len, t.dev.tri.len.count, t.dev.noise.len.count, t.dev.dmc.dma.lengthCounter)) =
      some (20, { enabled := false, count := 0 }, 0, 0, 0) := by decide

/-- R228: `regLength = 1`, no loop, the interrupt enabled, nothing buffered, the byte at `0xC000` known. -/
theorem test_statusW_fetch :
    (after (.statusW (.ofByte 0x10))
        { (withDev fun d => { d with dmc := { d.dmc with irqEnable := true } }) with mem := [(0xC000, 0x5A)] }).map
      (fun t => (t.dev.dmc.dma, t.dev.irq.dmc, t.dev.stolen)) =
      some ({ address := 0xC001, lengthCounter := 0, buffer := 0x5A, buffered := true }, true, 4) := by decide

/-- R283: only the Triangle's count is not 0 and the frame flag is set: the read returns `0x44` and clears the flag. -/
theorem test_statusR :
    (after .statusR (withDev fun d =>
        { d with
          irq := { frame := true, dmc := false }
          tri := { d.tri with len := { enabled := true, count := 1 } } })).map (fun t => (t.outcome, t.dev.irq.frame)) =
      some (.okValue 0x44, false) := by decide

/-- The device of R258's example: NTSC, `clk.fixed = 11`, nothing due before `now = 1200`. -/
def frameExample : State :=
  { (withDev fun d => { d with clk := { d.clk with fixed := 11, rateCounter := 13200 } }) with
    inp := { now := 1200, odd := false } }

/-- R258: `WR $4017, #$00` at `now = 1200`. -/
theorem test_frameW :
    (after (.frameW (.ofByte 0x00)) frameExample).map (fun t =>
      (t.dev.clk.frameCounter, t.dev.clk.frameIrqClock)) = some (997920, some 3950892) := by decide

/-- R258 (c): `WR $4017, #$80` leaves the flag set and stops further interrupts. -/
theorem test_frameW_mode5 :
    (after (.frameW (.ofByte 0x80)) (withDev fun d => { d with irq := { frame := true, dmc := false } })).map
      (fun t => (t.dev.irq.frame, t.dev.clk.frameIrqClock, t.dev.ctrl.mode5)) = some (true, none, true) := by decide

/-- R104 (a): no effect at all, not even the catch-up. -/
theorem test_nops :
    (after (.nop4009 1) { State.reset with inp := { now := 1000000, odd := false } }).map (fun t => t.dev) =
      some State.reset.dev ∧
    (after (.nop400D 1) { State.reset with inp := { now := 1000000, odd := false } }).map (fun t => t.dev) =
      some State.reset.dev := by decide

/-! ### Operations below the instructions, and host events -/

/-- 40 R134's example. -/
theorem test_envelope :
    let e : Envelope := { reg := 0x02, volume := 15, count := 0, reset := false, outputVolume := 256, output := 0 }
    (e.clock.volume, e.clock.count, e.clock.output) = (14, 2, 3584) ∧
    (Envelope.clock^[3] e).volume = 14 ∧ (Envelope.clock^[4] e).volume = 13 := by decide

/-- 41 R172's example on both Squares. -/
theorem test_sweep :
    let q : Square := { resetSquare with
      waveLength := 0x100
      sweep := { rate := 1, shift := 2, count := 1, reload := false, increase := false } }
    (q.clockSweep params .one 924).waveLength = 0xBF ∧ (q.clockSweep params .two 924).waveLength = 0xC0 ∧
    (q.clockSweep params .one 924).sweep.count = 1 := by decide

/-- The oscillator of the `GetSample` examples. -/
def sampleOsc (timer frequency : Int) : Osc :=
  { active := true, timer := timer, frequency := frequency, rate := 100, fixed := 1, amp := 0 }

/-- 41 R156's example. -/
theorem test_square_sample :
    let q : Square := { resetSquare with
      osc := sampleOsc 10 40, duty := 2, env := { resetEnvelope with output := 3840 } }
    ((q.getSample params).1, (q.getSample params).2.step, (q.getSample params).2.osc.timer) = (3456, 3, 30) := by decide

/-- 42 R187's example. -/
theorem test_triangle_sample :
    let r : Triangle := { resetDev.tri with osc := sampleOsc 20 60, step := 14 }
    ((r.getSample params).1, (r.getSample params).2.step, (r.getSample params).2.osc.timer) = (11367, 16, 40) := by decide

/-- 43 R206's example. -/
theorem test_noise_sample :
    let c : Noise := { resetDev.noise with
      osc := sampleOsc 30 80, bits := 1, env := { resetEnvelope with output := 2560 } }
    ((c.getSample params).1, (c.getSample params).2.bits, (c.getSample params).2.osc.timer) = (5120, 2, 10) := by decide

/-- 44 R229's example: the address wraps. -/
theorem test_fetch_wraps :
    let s : State := { (withDev fun d => { d with dmc := { d.dmc with dma :=
      { address := 0xFFFF, lengthCounter := 2, buffer := 0, buffered := false } } }) with mem := [(0xFFFF, 7)] }
    ((doDma params s).dev.dmc.dma, (doDma params s).dev.stolen) =
      ({ address := 0x8000, lengthCounter := 1, buffer := 7, buffered := true }, 4) := by decide

/-- 44 R232's example: four clocks of the byte 5 from 64. -/
theorem test_delta :
    let m : Dmc := { resetDev.dmc with active := true, out := { shifter := 0, buffer := 5, dac := 64 } }
    ([1, 2, 3, 4].map fun k => ((clockDac params)^[k] m).out.dac) = [66, 64, 66, 64] := by decide

/-- 44 R236's example: `clk.fixed = 11`, one clock due at 5136. -/
theorem test_dmc_tick :
    (afterEvent (.dmcTick 5136) (withDev fun d =>
        { d with clk := { d.clk with fixed := 11, dmcClock := 56496 }, dmc := { d.dmc with frequency := 56496 } })).map
      (fun t => t.dev.clk.dmcClock) = some 112992 := by decide

/-- 45 R263's example. -/
theorem test_frame_irq_tick :
    (afterEvent (.frameIrqTick 357960) (withDev fun d =>
        { d with clk := { d.clk with fixed := 11, frameIrqClock := some 3937560 } })).map
      (fun t => (t.dev.irq.frame, t.dev.clk.frameIrqClock, t.dev.clk.frameIrqRepeat)) =
      some (true, some 3937692, 1) := by decide

/-- 47 R293's worked values. -/
theorem test_derive :
    derive params .ntsc 48000 = { m := 8, rate := 39375, fixed := 88 } ∧
    derive params .ntsc 45000 = { m := 1, rate := 5250, fixed := 11 } ∧
    derive params .pal 44100 = { m := 147, rate := 709379, fixed := 1176 } := by decide +kernel

/-- 48 R312's example. -/
theorem test_groups : (squareGroup params 3840, tndGroup params 16384) = (7314, 16754) := by decide

/-- 48 R314's example. -/
theorem test_dc_block :
    let c : DcBlocker := DcBlocker.push params 1000 { acc := 0, prev := 0, next := 0 }
    (c.next, (DcBlocker.push params 1000 c).next) = (1000, 999) := by decide

/-- 49 R344's example: three samples and five frames in mono. -/
theorem test_flush :
    (afterEvent (.flush 5) (withDev fun d =>
        { d with ring := { d.ring with output := [(0, 10), (1, 20), (2, 30)], pos := 3 } })).map
      (fun t => (t.host.buffer, t.dev.ring.start)) =
      some ([.word 10, .word 20, .word 30, .word 30, .word 30], 3) := by decide

/-- 49 R347's example: two frames in stereo. -/
theorem test_flush_stereo :
    (afterEvent (.flush 2) (withDev fun d =>
        { d with
          cfg := { d.cfg with channels := .stereo }
          ring := { d.ring with output := [(0, 100), (1, 200)], pos := 2 } })).map
      (fun t => (t.host.buffer, t.dev.ring.history)) =
      some ([.word 0, .word 100, .word 0, .word 200], [(0, 100), (1, 200)]) := by decide

/-- 60 R385: the order of the checks of `Configure`, and the no-op. -/
theorem test_configure :
    (afterEvent (.configure { State.reset.dev.cfg with sampleRate := 0, bits := 12 }) State.reset).map (·.outcome) =
      some .invalidSampleRate ∧
    (afterEvent (.configure { State.reset.dev.cfg with bits := 12 }) State.reset).map (·.outcome) =
      some .unsupportedBits ∧
    (afterEvent (.configure State.reset.dev.cfg) State.reset).map (·.outcome) = some .noOp := by decide +kernel

/-! ### Witnesses: states and operands that meet the hypotheses of the statements, clause by clause

The sound state is the PAL one after power-on; the state after reset serves where only `onTime` is asked. -/

/-- A sound state: power-on in PAL mode. -/
def sound : State := { State.reset with dev := powerOn params .pal }

theorem test_sound_inv : sound.Inv params where
  dev := by
    refine freshDev_inv params_valid ⟨Or.inr rfl, by decide, by decide, ?_⟩ _
    decide +kernel
  mem := ⟨List.Pairwise.nil, fun _ h => absurd h List.not_mem_nil⟩

/-- A state with one line to run. -/
def lineState (l : Line) : State := { State.reset with todo := [l] }

theorem test_witness_EncodeInvertsDecode :
    (∃ (t : TWord) (i : Instr), decode t = .instr i ∧ t.isWrite = true) ∧
    ∃ (t : TWord) (i : Instr), decode t = .instr i ∧ t.isWrite = false :=
  ⟨⟨0x14011C0, _, rfl, rfl⟩, ⟨0x0401555, _, rfl, rfl⟩⟩

/-- Each clause at the ends of its range. -/
theorem test_witness_ReservedTransactions :
    (∀ t : TWord, ∃ s : State, s.todo = .bus 0 false t :: []) ∧
    (TWord.isWrite 0x1400955 = true ∧ TWord.addr 0x1400955 = 0x4009) ∧
    (TWord.isWrite 0x1400D00 = true ∧ TWord.addr 0x1400D00 = 0x400D) ∧
    (TWord.addr 0x0401400 = 0x4014 ∧ TWord.addr 0x1401600 = 0x4016) ∧
    (TWord.isWrite 0x0400000 = false ∧ TWord.addr 0x0400000 = 0x4000 ∧ TWord.addr 0x0401300 = 0x4013 ∧
      TWord.isWrite 0x0401700 = false ∧ TWord.addr 0x0401700 = 0x4017) ∧
    ((TWord.addr 0x03FFF00).toNat = 0x3FFF ∧ (TWord.addr 0x1401800).toNat = 0x4018) :=
  ⟨fun t => ⟨lineState (.bus 0 false t), rfl⟩, by decide, by decide, by decide, by decide, by decide⟩

theorem test_witness_StepRunsDecodedTransaction :
    (lineState (.bus 0 true 0x1401780)).todo = .bus 0 true 0x1401780 :: [] ∧
    decode 0x1401780 = .instr (.frameW ⟨true, false, 0⟩) ∧
    (lineState (.bus 0 true 0x1401780)).inp.now ≤ 0 ∧
    decodeTableWord 25 0x0401500 = some .statusR := by decide

theorem test_witness_StepWaitsAndKeepsTime :
    State.reset.todo = [] ∧
    (let s : State := { lineState (.bus 4 false 0x1401500) with inp := { now := 5, odd := false } }
    s.todo = .bus 4 false 0x1401500 :: [] ∧ (Line.bus 4 false 0x1401500).time = some 4 ∧ 4 < s.inp.now ∧
      ∀ n o t, Line.bus 4 false 0x1401500 = .bus n o t → ∃ i, decode t = .instr i) :=
  ⟨rfl, rfl, rfl, by decide, fun _ _ _ h => by injection h with _ _ h; subst h; exact ⟨_, rfl⟩⟩

/-- A Dmc clock is due from 5136 MC on. -/
def late : State := { State.reset with inp := { now := 5136, odd := false } }

theorem test_witness_ContractFaults :
    ¬ late.onTime ∧ (∀ d, Instr.statusR ≠ .nop4009 d) ∧ (∀ d, Instr.statusR ≠ .nop400D d) ∧
    (0 < 5136 ∧ 5136 ≤ late.inp.now) ∧ ¬(0 < 0 ∧ 0 ≤ late.inp.now) ∧ ¬(0 < 5137 ∧ 5137 ≤ late.inp.now) := by
  refine ⟨?_, fun d h => (by cases h), fun d h => (by cases h), by decide, by decide, by decide⟩
  show ¬ late.nowU < late.dev.clk.dmcClock
  decide

/-- The three kinds of clock, and the rate 0. -/
theorem test_witness_EnvelopeClock :
    (∃ e : Envelope, e.reset = true) ∧ (∃ e : Envelope, e.reset = false ∧ 0 < e.count.toNat) ∧
    (∃ e : Envelope, e.reset = false ∧ e.count = 0) ∧
    (∃ e : Envelope, e.reset = false ∧ e.count = e.reg.extractLsb' 0 4 ∧ e.count = 0) ∧
    ∃ e : Envelope, e.reset = false ∧ e.count = e.reg.extractLsb' 0 4 ∧ e.count = 15 :=
  ⟨⟨{ resetEnvelope with reset := true }, rfl⟩, ⟨{ resetEnvelope with count := 1 }, rfl, by decide⟩,
    ⟨resetEnvelope, rfl, rfl⟩, ⟨resetEnvelope, rfl, by decide, rfl⟩,
    ⟨{ resetEnvelope with reg := 0x1F, count := 15 }, rfl, by decide, rfl⟩⟩

/-- The ends of the validity window. -/
theorem test_witness_SquareUpdateFrequency :
    (Square.updateFrequency params 924 { resetSquare with waveLength := 7 }).validFrequency = false ∧
    (Square.updateFrequency params 924 { resetSquare with waveLength := 8 }).validFrequency = true ∧
    (Square.updateFrequency params 924 { resetSquare with waveLength := 0x3FF }).validFrequency = true ∧
    (Square.updateFrequency params 924 { resetSquare with waveLength := 0x400 }).validFrequency = false := by decide

/-- A sweep that stands, one that moves down and one that reloads. -/
theorem test_witness_SquareClockSweep :
    (resetSquare.sweep.rate ≠ 0 → resetSquare.sweep.shift ≠ 0) ∧
    (∃ q : Square, (q.sweep.rate ≠ 0 → q.sweep.shift ≠ 0) ∧ q.sweep.rate ≠ 0 ∧ q.sweep.count = 1 ∧
      8 ≤ q.waveLength.toNat ∧ q.sweep.increase = false) ∧
    ∃ q : Square, (q.sweep.rate ≠ 0 → q.sweep.shift ≠ 0) ∧ q.sweep.reload = true ∧ q.sweep.rate ≠ 0 :=
  ⟨by decide,
    ⟨{ resetSquare with
        waveLength := 8
        sweep := { rate := 1, shift := 1, count := 1, reload := false, increase := false } },
      by decide, by decide, rfl, by decide, rfl⟩,
    ⟨{ resetSquare with sweep := { rate := 8, shift := 7, count := 0, reload := true, increase := true } },
      by decide, rfl, by decide⟩⟩

/-- A sample inside one step (`rate = timer`), one across steps, and an inactive channel. -/
def sampleOscs : List Osc := [sampleOsc 100 1, sampleOsc 99 1, { sampleOsc 0 40 with active := false }]

theorem test_witness_SquareGetSample :
    ∀ o ∈ sampleOscs, let q : Square := { resetSquare with osc := o }
      0 ≤ q.osc.timer ∧ 0 < q.osc.frequency ∧ 0 < q.osc.rate := by decide

theorem test_witness_TriangleGetSample :
    ∀ o ∈ sampleOscs, let r : Triangle := { resetDev.tri with osc := o }
      0 ≤ r.osc.timer ∧ 0 < r.osc.frequency ∧ 0 < r.osc.rate := by decide

theorem test_witness_NoiseGetSample :
    ∀ o ∈ sampleOscs, let c : Noise := { resetDev.noise with osc := o }
      0 ≤ c.osc.timer ∧ 0 < c.osc.frequency ∧ 0 < c.osc.rate := by decide

/-- `DecayReachesZero` at 0 and at a Square's largest amplitude. -/
theorem test_witness_DecayReachesZero : (0 : Int) ≤ 0 ∧ (0 : Int) ≤ 3840 ∧ (3840 : Int) ≤ 3840 := by decide

/-- The only hypothesis of `SquareRegister0` to `SquareRegister3`, `TriangleRegister0`, `TriangleRegister2`,
`TriangleRegister3`, `NoiseRegister0`, `NoiseRegister2`, `NoiseRegister3`, `DmcRegister0`, `DmcRegister1`,
`DmcRegisters2And3`, `StatusWrite`, `StatusRead` and `FrameControlWrite`, and of the first clause of `UpdateLoops`. -/
theorem test_witness_onTime : State.reset.onTime := by
  show State.reset.nowU < State.reset.dev.clk.dmcClock
  decide

/-- `onTime` at the last master cycle before a Dmc clock, on an odd CPU cycle. -/
theorem test_witness_onTime_last : ({ State.reset with inp := { now := 5135, odd := true } } : State).onTime := by
  show State.nowU _ < _
  decide

/-- A fetch at both ends of the address range, of the last byte and of an earlier one. -/
theorem test_witness_DmcFetch :
    (∃ s : State, 0 < s.dev.dmc.dma.lengthCounter ∧ 0x8000 ≤ s.dev.dmc.dma.address.toNat ∧
      s.dev.dmc.dma.address = 0x8000 ∧ s.dev.dmc.dma.lengthCounter = 1 ∧ Memory.read s.mem 0x8000 = some 9) ∧
    ∃ s : State, 0 < s.dev.dmc.dma.lengthCounter ∧ 0x8000 ≤ s.dev.dmc.dma.address.toNat ∧
      s.dev.dmc.dma.address = 0xFFFF ∧ s.dev.dmc.dma.lengthCounter = 2 :=
  ⟨⟨{ (withDev fun d => { d with dmc := { d.dmc with dma :=
        { address := 0x8000, lengthCounter := 1, buffer := 0, buffered := false } } }) with mem := [(0x8000, 9)] },
      by decide, by decide, rfl, rfl, by decide⟩,
    ⟨withDev fun d => { d with dmc := { d.dmc with dma :=
        { address := 0xFFFF, lengthCounter := 2, buffer := 0, buffered := false } } },
      by decide, by decide, rfl, rfl⟩⟩

/-- A step that is taken, steps dropped at both ends, and no step. -/
theorem test_witness_DmcDeltaStep :
    let m := fun (active : Bool) (b : Byte) (dac : Nat) =>
      ({ resetDev.dmc with active := active, out := { shifter := 0, buffer := b, dac := dac } } : Dmc)
    dacMoves params (m true 1 125) = true ∧ dacMoves params (m true 1 126) = false ∧
    dacMoves params (m true 0 1) = false ∧ dacMoves params (m false 1 64) = false ∧
    (m true 1 0x7F).out.dac ≤ 0x7F := by decide

theorem test_witness_DmcTickDrains : ({ sound with inp := { now := 100000, odd := false } } : State).Inv params :=
  ⟨test_sound_inv.dev, test_sound_inv.mem⟩

/-- The timer off, due one unit later, and due now. -/
theorem test_witness_FrameIrqTickPoints :
    let s := fun c : Option Int =>
      (withDev fun d => { d with clk := { d.clk with frameIrqClock := c } } : State)
    0 < (s none).dev.clk.fixed ∧ (s none).dev.clk.frameIrqClock = none ∧ (s (some 1)).nowU < 1 ∧
    ¬ (s (some 0)).nowU < 0 := by decide

theorem test_witness_GroupFunctions : (0 : Int) ≤ 0 ∧ (0 : Int) ≤ 51712 := by decide

/-- A sound device of the `SYNTH` path: the second and third clause of `UpdateLoops`, and `SampleCount`. -/
theorem test_witness_UpdateLoops : sound.dev.Inv params ∧ sound.dev.cfg.synth = .synth := ⟨test_sound_inv.dev, rfl⟩

/-- `SampleCount` with a sample due, with none due, and with nothing due at all. -/
theorem test_witness_SampleCount :
    sound.dev.Inv params ∧ sound.dev.cfg.synth = .synth ∧ sound.dev.clk.rateCounter < 1 ∧
    ¬ sound.dev.clk.rateCounter < 0 ∧ (0 : Int) ≤ sound.dev.clk.rateCounter ∧
    (0 : Int) ≤ sound.dev.clk.frameCounter :=
  ⟨test_sound_inv.dev, rfl, by decide, by decide, by decide, test_sound_inv.dev.clk.frameCounter⟩

/-- An empty ring and a full one. -/
theorem test_witness_RingPush :
    (∃ r : Machine.Ring, r.pos < 0x4000 ∧ r.start < 0x4000 ∧ Rising r.output ∧ r.latency params = 0) ∧
    ∃ r : Machine.Ring, r.pos < 0x4000 ∧ r.start < 0x4000 ∧ Rising r.output ∧ r.latency params = 0x3FFF :=
  ⟨⟨{ output := [], pos := 0, start := 0, history := [], hpos := 0 }, by decide, by decide, List.Pairwise.nil, by decide⟩,
    ⟨{ output := [], pos := 0x3FFF, start := 0, history := [], hpos := 0 }, by decide, by decide, List.Pairwise.nil,
      by decide⟩⟩

/-- A flush in mono and one in stereo; no frame, fewer frames than samples and more. -/
theorem test_witness_FlushFrames :
    (∃ s : State, Rising s.dev.ring.history ∧ s.dev.cfg.channels = .mono ∧ s.dev.ring.latency params = 2) ∧
    ∃ s : State, Rising s.dev.ring.history ∧ s.dev.cfg.channels = .stereo ∧ s.dev.ring.latency params = 2 :=
  ⟨⟨withDev fun d => { d with ring := { d.ring with pos := 2 } }, List.Pairwise.nil, rfl, by decide⟩,
    ⟨withDev fun d => { d with cfg := { d.cfg with channels := .stereo }, ring := { d.ring with pos := 2 } },
      List.Pairwise.nil, rfl, by decide⟩⟩

/-- A block that wraps and an empty one. -/
theorem test_witness_BlockWraps :
    let r : Machine.Ring := { output := [], pos := 3, start := 0x3FFE, history := [], hpos := 0 }
    r.start < 0x4000 ∧ 5 ≤ r.latency params ∧ 0 ≤ r.latency params := by decide

theorem test_witness_EncodedSamples :
    ((-32767 : Int) ≤ -32767 ∧ (-32767 : Int) ≤ 32767) ∧ (-32767 : Int) ≤ 32767 ∧ (32767 : Int) ≤ 32767 := by decide

/-- The end of a frame of one master cycle in a sound state, nothing due before it. -/
theorem test_witness_EndFrameRebases :
    let s : State := { sound with inp := { now := 1, odd := false } }
    s.Inv params ∧ s.onTime ∧ 0 < 1 ∧ 1 ≤ s.inp.now := by
  refine ⟨⟨test_sound_inv.dev, test_sound_inv.mem⟩, ?_, by decide, by decide⟩
  show State.nowU _ < _
  decide +kernel

theorem test_witness_DeriveLeastMultiplier : 0 < 1 ∧ 0 < 44101 := by decide

/-- `Configure` with an error, with other settings, and with another TV mode. -/
theorem test_witness_ConfigureOutcomes :
    configureRefuses params { State.reset.dev.cfg with sampleRate := 0 } State.reset.dev.cfg =
      some .invalidSampleRate ∧
    configureRefuses params { State.reset.dev.cfg with bits := 8 } State.reset.dev.cfg = none ∧
    configureRefuses params { State.reset.dev.cfg with tv := .pal } State.reset.dev.cfg = none ∧
    (∃ t, exec .statusR State.reset = .next t) ∧ (∃ t, exec (.nop4009 0) State.reset = .next t) ∧
    ∃ t, runEvent (.flush 0) State.reset = .next t :=
  ⟨by decide +kernel, by decide +kernel, by decide +kernel,
    by
      simp only [exec, execStatusR]
      exact ⟨_, catchUpThen_onTime
        ((State.onTime_frameIrqTick params State.reset.nowU State.reset).mpr test_witness_onTime) _⟩,
    ⟨_, rfl⟩, ⟨_, rfl⟩⟩

theorem test_witness_ReconfigureScales :
    configureRefuses params { State.reset.dev.cfg with sampleRate := 48000 } State.reset.dev.cfg = none ∧
    ({ State.reset.dev.cfg with sampleRate := 48000 } : Settings).tv = State.reset.dev.cfg.tv := by decide +kernel

/-- Settings that keep the rate, and whole numbers of master clocks in the three counters. -/
theorem test_witness_ConfigureKeepsPhase :
    sound.Inv params ∧
    configureRefuses params { sound.dev.cfg with bits := 8 } sound.dev.cfg = none ∧
    ({ sound.dev.cfg with bits := 8 } : Settings).tv = sound.dev.cfg.tv ∧
    ({ sound.dev.cfg with bits := 8 } : Settings).sampleRate = sound.dev.cfg.sampleRate ∧
    ({ sound.dev.cfg with bits := 8 } : Settings).speed = sound.dev.cfg.speed ∧
    (∃ k : Int, sound.dev.clk.frameCounter = k * sound.dev.clk.fixed) ∧
    (∃ k : Int, sound.dev.clk.dmcClock = k * sound.dev.clk.fixed) ∧
    ∃ k : Int, sound.dev.clk.frameIrqClock = some (k * sound.dev.clk.fixed) := by
  refine ⟨test_sound_inv, by decide +kernel, rfl, rfl, rfl, ⟨8315 * 16, by decide +kernel⟩, ⟨398 * 16, by decide +kernel⟩,
    ⟨33254 * 16, by decide +kernel⟩⟩

/-- Either reset of any state has a next state. -/
theorem test_witness_ResetInv : ∀ hard : Bool, ∃ t, runEvent (.reset hard) sound = .next t := fun _ => ⟨_, rfl⟩

/-- A sound state with a next state: one that waits, and one that runs a write; both on the sample grid. -/
theorem test_witness_StepKeepsInv :
    (sound.Inv params ∧ sound.dev.clk.OnSampleGrid ∧ sound.dev.cfg.synth = .synth ∧ ∃ t, step sound = .next t) ∧
    ∃ s : State, s.Inv params ∧ s.dev.clk.OnSampleGrid ∧ s.dev.cfg.synth = .synth ∧
      (∀ l rest, s.todo = l :: rest → keepsSampleGrid l = true) ∧ ∃ t, step s = .next t ∧ s.todo ≠ [] :=
  ⟨⟨test_sound_inv, dvd_zero _, rfl, _, rfl⟩,
    ⟨{ sound with todo := [.bus 0 false 0x1400900] }, ⟨test_sound_inv.dev, test_sound_inv.mem⟩, dvd_zero _, rfl,
      fun _ _ h => (List.cons.inj h).1 ▸ rfl, _, rfl, by simp⟩⟩

/-- The two fetches: enabling the stopped Dmc of a sound state, and a hand-over with two bytes remaining. -/
theorem test_witness_StepKeepsInv_fetch :
    (dmcSetEnabled params true sound).dev.stolen ≠ sound.dev.stolen ∧
    ∃ s : State, s.Inv params ∧ (clockOutputUnit params s).dev.stolen ≠ s.dev.stolen := by
  have hd := test_sound_inv.dev
  refine ⟨by decide +kernel, { sound with dev := { sound.dev with dmc := { sound.dev.dmc with dma :=
    { sound.dev.dmc.dma with lengthCounter := 2, buffered := true } } } }, ⟨?_, test_sound_inv.mem⟩, by decide +kernel⟩
  exact ⟨hd.cfg, hd.clk, hd.sq0, hd.sq1, hd.tri, hd.noise,
    ⟨hd.dmc.dac, hd.dmc.address, (by decide : 2 ≤ 4081), hd.dmc.regAddress, hd.dmc.regLength_pos, hd.dmc.regLength_le,
      hd.dmc.period, hd.dmc.level, hd.dmc.smooth⟩, hd.ring⟩

/-- R333 (e) and log entry 24: on the `ADVANCE_ONLY` path `Update(1)` from reset leaves the sample grid. -/
theorem test_advance_only_leaves_grid :
    (afterEvent (.update 1) (withDev fun d => { d with cfg := { d.cfg with synth := .advanceOnly } })).map
      (fun t => (t.dev.clk.rateCounter, t.dev.clk.rate)) = some (77, 37500) := by decide

/-- R254: with `odd` set the length counter is clocked although the divider is 0, as after `WR $4017` (R258). -/
theorem test_clock_oscillators_odd :
    (clockOscillators params true (twenties State.reset.dev)).tri.len.count = 19 ∧
    (clockOscillators params false (twenties State.reset.dev)).tri.len.count = 20 ∧
    State.reset.dev.clk.frameDivider = 0 := by decide

/-- An instruction that runs, for each exception the frame names. -/
theorem test_witness_ExecFrame :
    (∃ t, exec (.frameW ⟨false, false, 0⟩) State.reset = .next t) ∧
    (∃ t, exec (.statusW ⟨0, false, false, false, false, false⟩) State.reset = .next t) ∧
    (∃ t, exec (.dmcR0 ⟨false, false, 0, 0⟩) State.reset = .next t) ∧
    ∃ t, exec (.sq1R2 ⟨0⟩) State.reset = .next t :=
  ⟨by
      simp only [exec, execFrameW]
      exact ⟨_, if_pos (show State.reset.nowU < State.reset.dev.clk.dmcClock from test_witness_onTime)⟩,
    ⟨_, catchUpThen_onTime (P := params) test_witness_onTime _⟩,
    ⟨_, catchUpThen_onTime (P := params) test_witness_onTime _⟩,
    ⟨_, catchUpThen_onTime (P := params) test_witness_onTime _⟩⟩

/-- A line that clears the flag, a line that leaves it, and a change of TV mode. -/
theorem test_witness_FrameIrqClearers :
    let s := fun l : Line =>
      ({ withDev (fun d => { d with irq := { frame := true, dmc := false } }) with todo := [l] } : State)
    (∀ l, (s l).dev.irq.frame = true) ∧ (∃ t, step (s (.event (.reset true))) = .next t) ∧
    (∃ t, step (s (.event (.flush 0))) = .next t) ∧
    (∃ t, step (s (.event (.configure { State.reset.dev.cfg with tv := .pal }))) = .next t) ∧
    ∃ t, step (s (.bus 0 false 0x1400D00)) = .next t :=
  ⟨fun _ => rfl, ⟨_, rfl⟩, ⟨_, rfl⟩, ⟨_, rfl⟩, ⟨_, rfl⟩⟩

/-- A step that stores nothing, and a store at the address the next fetch reads. -/
theorem test_witness_MemoryOnlyByStore :
    ((∃ t, step (lineState (.event (.reset true))) = .next t) ∧
      ∀ a b rest, (lineState (.event (.reset true))).todo ≠ .cpuStore a b :: rest) ∧
    ((lineState (.cpuStore 0xC000 7)).todo = .cpuStore 0xC000 7 :: [] ∧
      (lineState (.cpuStore 0xC000 7)).dev.dmc.dma.address = 0xC000) :=
  ⟨⟨⟨_, rfl⟩, fun _ _ _ h => by injection h with h; cases h⟩, rfl, rfl⟩

end Sys2Proof.Tests
end

section
/-!
PROOFS. The Envelope's and the LengthCounter's own operations (40_envelope_length.md R134, R136 to R138).
-/

namespace Sys2Proof.Machine

/-! ### The three branches of `env.Clock()` -/

theorem Envelope.clock_of_reset {e : Envelope} (hreset : e.reset = true) :
    e.clock = Envelope.updateOutput { e with reset := false, volume := 15, count := e.reg.extractLsb' 0 4 } :=
  if_pos hreset

theorem Envelope.clock_of_count_ne_zero {e : Envelope} (hreset : e.reset = false) (hcount : e.count ≠ 0) :
    e.clock = { e with count := e.count - 1 } := by
  rw [Envelope.clock, if_neg (by simp [hreset]), if_pos hcount]

theorem Envelope.clock_of_count_eq_zero {e : Envelope} (hreset : e.reset = false) (hcount : e.count = 0) :
    e.clock = Envelope.updateOutput { e with
      volume := if e.volume ≠ 0 ∨ e.reg.getLsbD 5 then e.volume - 1 else e.volume
      count := e.reg.extractLsb' 0 4 } := by
  rw [Envelope.clock, if_neg (by simp [hreset]), if_neg (not_not_intro hcount)]

/-! ### Four-bit arithmetic: what lowering the count and the level means on numbers -/

theorem nibble_ne_zero_iff (x : BitVec 4) : x ≠ 0 ↔ 0 < x.toNat := by
  bv_omega

/-- "`(volume - 1) mod 16`" (40_envelope_length.md R134). -/
theorem nibble_sub_one (x : BitVec 4) : x - 1 = BitVec.ofNat 4 ((x.toNat + 15) % 16) := by
  bv_omega

theorem nibble_sub_one_of_pos {x : BitVec 4} (hx : 0 < x.toNat) : x - 1 = BitVec.ofNat 4 (x.toNat - 1) := by
  bv_omega

/-! ### A whole period of the level -/

/-- As many clocks as the count holds, or fewer, only count down. -/
theorem Envelope.clock_iterate_of_le_count {e : Envelope} (hreset : e.reset = false) (k : ℕ)
    (hk : k ≤ e.count.toNat) : Envelope.clock^[k] e = { e with count := e.count - BitVec.ofNat 4 k } := by
  induction k with
  | zero => simp
  | succ k ih =>
    have hcount : e.count - BitVec.ofNat 4 k ≠ 0 := by bv_omega
    have hstep : e.count - BitVec.ofNat 4 k - 1 = e.count - BitVec.ofNat 4 (k + 1) := by bv_omega
    rw [Function.iterate_succ_apply', ih (by omega), ← hstep]
    exact Envelope.clock_of_count_ne_zero (e := { e with count := e.count - BitVec.ofNat 4 k }) hreset hcount

/-- After as many clocks as the count holds, the next one drops the level and reloads the count. -/
theorem Envelope.clock_iterate_count_succ {e : Envelope} (hreset : e.reset = false) :
    Envelope.clock^[e.count.toNat + 1] e = Envelope.updateOutput { e with
      volume := if e.volume ≠ 0 ∨ e.reg.getLsbD 5 then e.volume - 1 else e.volume
      count := e.reg.extractLsb' 0 4 } := by
  have hzero : Envelope.clock^[e.count.toNat] e = { e with count := 0 } := by
    simp [Envelope.clock_iterate_of_le_count hreset _ le_rfl]
  rw [Function.iterate_succ_apply', hzero]
  exact Envelope.clock_of_count_eq_zero (e := { e with count := 0 }) hreset rfl

/-- Settles O8: the branches of the clock one by one, and the period as a count down followed by a clock at 0. -/
theorem envelopeClock : Obligations.EnvelopeClock := by
  intro e
  simp only [← nibble_ne_zero_iff, ← nibble_sub_one]
  refine ⟨Envelope.clock_of_reset, fun hreset hcount => ?_, Envelope.clock_of_count_eq_zero,
    fun hreset hrate => ?_⟩
  · rw [← nibble_sub_one_of_pos ((nibble_ne_zero_iff _).1 hcount), Envelope.clock_of_count_ne_zero hreset hcount]
  · rw [← hrate, Envelope.clock_iterate_count_succ hreset]
    refine ⟨fun k hk => ?_, rfl, hrate.symm⟩
    rw [Envelope.clock_iterate_of_le_count hreset k hk]

/-! ### The length counter -/

/-- `len.Clock(halt)` field by field: at count 0 the truncated difference is the unchanged count
(40_envelope_length.md R138). -/
theorem LengthCounter.clock_eq (l : LengthCounter) (halt : Bool) :
    l.clock halt = { l with count := if halt = false then l.count - 1 else l.count } := by
  obtain ⟨enabled, count⟩ := l
  cases halt with
  | true => rfl
  | false => cases count <;> rfl

/-- `len.Clock(halt)` returns true exactly when it brings a running count to zero (40_envelope_length.md R138). -/
theorem LengthCounter.expires_iff (l : LengthCounter) (halt : Bool) :
    l.expires halt = true ↔ halt = false ∧ 0 < l.count ∧ (l.clock halt).count = 0 := by
  rw [LengthCounter.clock_eq]
  cases halt with
  | true => simp [LengthCounter.expires]
  | false =>
    simp only [LengthCounter.expires, Bool.not_false, Bool.true_and, decide_eq_true_eq, true_and, if_true]
    omega

/-- Settles O9: each operation's equation; the written durations are the model's table. -/
theorem lengthCounterRules : Obligations.LengthCounterRules :=
  fun l _ halt idx => ⟨rfl, l.load_eq params idx, l.clock_eq halt, l.expires_iff halt⟩

end Sys2Proof.Machine
end

section
/-!
PROOFS. The decay of a silent oscillator (41_square.md R157).
-/

namespace Sys2Proof.Machine

theorem decayed_params (amp : Int) : decayed params amp = if amp < 63 then 0 else amp - 63 := rfl

/-- `k` steps of 63 silence every amplitude up to `63 * k` (41_square.md R157). -/
theorem decayed_iterate_eq_zero (k : ℕ) {amp : Int} (h0 : 0 ≤ amp) (hk : amp ≤ 63 * k) :
    (decayed params)^[k] amp = 0 := by
  induction k generalizing amp with
  | zero => simp only [Function.iterate_zero, id_eq]; omega
  | succ k ih =>
    rw [Function.iterate_succ_apply]
    refine ih (decayed_nonneg params) ?_
    rw [decayed_params]
    split_ifs <;> omega

/-- Settles O13: `ceil(amp / 63)` steps of 63 cover the amplitude. -/
theorem decayReachesZero : Obligations.DecayReachesZero := by
  refine ⟨decayed_params, fun amp h0 => ⟨decayed_iterate_eq_zero _ h0 ?_, fun hmax => ?_, rfl⟩⟩ <;> omega

end Sys2Proof.Machine
end

section
/-!
PROOFS. `GetSample` of a Square (41_square.md R156): the steps that are due in closed form, the position after them,
and the three ways a call can go.
-/

namespace Sys2Proof.Machine

/-- The steps that are due when `rate` units pass; without a step due the rounded-up quotient is not positive. -/
theorem stepsDue_sub {timer rate frequency : Int} (hf : 0 < frequency) :
    stepsDue (timer - rate) frequency = ((rate - timer + frequency - 1) / frequency).toNat := by
  rw [stepsDue, neg_sub]
  split_ifs with hshort
  · rfl
  · have hq : (rate - timer + frequency - 1) / frequency < 1 := Int.ediv_lt_of_lt_mul hf (by omega)
    omega

/-- A position that steps on by one is, after `n` steps, `n` further in its own width. -/
theorem add_one_iterate {w : ℕ} (n : ℕ) (x : BitVec w) : (· + 1)^[n] x = x + BitVec.ofNat w n := by
  rw [add_right_iterate_apply, nsmul_one]
  rfl

variable {P : Params} {q : Square}

/-- Active, and the sample ends inside the current step. -/
theorem Square.getSample_of_within (ha : q.osc.active = true) (ht : q.osc.rate ≤ q.osc.timer) :
    q.getSample P =
      ((q.env.output : Int) * dutyLevel P q.duty q.step, { q with osc := { q.osc with
        timer := q.osc.timer - q.osc.rate
        amp := (q.env.output : Int) * dutyLevel P q.duty q.step } }) := by
  simp only [Square.getSample, ha, if_true, if_pos (sub_nonneg.2 ht)]

/-- The sum the loop of an active Square's `GetSample` ends with: each level times the time it was held. -/
def Square.heldSum (P : Params) (q : Square) (n : ℕ) : Int :=
  q.osc.timer * dutyLevel P q.duty q.step
    + ∑ k ∈ Finset.range n, min (q.osc.rate - q.osc.timer - k * q.osc.frequency) q.osc.frequency
        * dutyLevel P q.duty (q.step + BitVec.ofNat 3 (k + 1))

/-- Active, and `n` steps fall into the sample. -/
theorem Square.getSample_of_across (ha : q.osc.active = true) (ht : q.osc.timer < q.osc.rate) {n : ℕ}
    (hn : stepsDue (q.osc.timer - q.osc.rate) q.osc.frequency = n) :
    q.getSample P =
      (boxMean (q.heldSum P n) q.env.output q.osc.rate, { q with
        step := q.step + BitVec.ofNat 3 n
        osc := { q.osc with
          timer := q.osc.timer - q.osc.rate + n * q.osc.frequency
          amp := boxMean (q.heldSum P n) q.env.output q.osc.rate } }) := by
  have hneg : ¬ 0 ≤ q.osc.timer - q.osc.rate := by omega
  simp only [Square.getSample, ha, if_true, if_neg hneg, hn, boxWalk_position, boxWalk_timer, boxWalk_sum,
    add_one_iterate, neg_sub, Square.heldSum]

/-- Inactive: the amplitude decays, and the phase runs on by `n` steps. -/
theorem Square.getSample_of_inactive (ha : q.osc.active = false) {n : ℕ}
    (hn : stepsDue (q.osc.timer - q.osc.rate) q.osc.frequency = n) :
    q.getSample P =
      (decayed P q.osc.amp, { q with
        step := q.step + BitVec.ofNat 3 n
        osc := { q.osc with
          timer := q.osc.timer - q.osc.rate + n * q.osc.frequency
          amp := decayed P q.osc.amp } }) := by
  simp only [Square.getSample, ha, Bool.false_eq_true, if_false, hn]

/-- Settles O12: whether a step falls into the sample, and then whether the channel is active. -/
theorem squareGetSample : Obligations.SquareGetSample := by
  intro q _ hf _ level rate timer frequency volume n weight amp
  have hn : stepsDue (timer - rate) frequency = n := stepsDue_sub hf
  rcases lt_or_ge timer rate with ht | ht
  · have hneg : timer - rate < 0 := by omega
    obtain ⟨-, hend, hlt⟩ := stepsDue_spec hneg hf
    have hweights := boxWalk_weights hneg hf
    rw [hn] at hend hlt
    rw [hn, neg_sub] at hweights
    refine ⟨?_, fun _ => ⟨by rw [hweights]; ring, hend, hlt⟩⟩
    simp only [if_neg ht.not_ge]
    cases ha : q.osc.active with
    | true =>
      rw [Square.getSample_of_across ha ht hn]
      simp only [amp, ha, if_true, if_neg ht.not_ge]
      rfl
    | false =>
      rw [Square.getSample_of_inactive ha hn]
      simp only [amp, ha, Bool.false_eq_true, if_false]
      rfl
  · refine ⟨?_, fun h => absurd h ht.not_gt⟩
    have hzero : n = 0 := hn.symm.trans (stepsDue_of_nonneg (sub_nonneg.2 ht))
    simp only [if_pos ht]
    cases ha : q.osc.active with
    | true =>
      rw [Square.getSample_of_within ha ht]
      simp only [amp, ha, if_true, if_pos ht]
      rfl
    | false =>
      rw [Square.getSample_of_inactive ha (hn.trans hzero)]
      simp only [amp, ha, Bool.false_eq_true, if_false, Nat.cast_zero, zero_mul, add_zero, BitVec.add_zero]
      rfl

end Sys2Proof.Machine
end

section
/-!
PROOFS. A Square's period (41_square.md R152 to R154) and its sweep clock (R172).
-/

namespace Sys2Proof.Machine

variable {P : Params} {i : SquareId} {cc : Int} {q : Square}

theorem Square.shifted_eq (q : Square) : q.shifted = q.waveLength.toNat / 2 ^ q.sweep.shift.toNat :=
  Nat.shiftRight_eq_div_pow _ _

/-- The validity window as numbers (41_square.md R154). -/
theorem Square.periodValid_params (q : Square) :
    q.periodValid params = decide (8 ≤ q.waveLength.toNat ∧
      q.waveLength.toNat + (if q.sweep.increase = true then q.waveLength.toNat / 2 ^ q.sweep.shift.toNat else 0)
        ≤ 0x7FF) := by
  rw [Square.periodValid, Square.validityTarget, Square.shifted_eq, ← Bool.decide_and]
  rfl

/-- Settles O10: `UpdateFrequency` field by field, with the window as numbers. -/
theorem squareUpdateFrequency : Obligations.SquareUpdateFrequency := by
  intro cc q
  rw [Square.updateFrequency_eq, Square.periodValid_params]
  rfl

/-! ### The targets -/

/-- A shift by one or more gives at most half the period. -/
theorem Square.two_mul_shifted_le (hshift : q.sweep.shift ≠ 0) : 2 * q.shifted ≤ q.waveLength.toNat := by
  have hpos : q.sweep.shift.toNat ≠ 0 := fun h => hshift (BitVec.eq_of_toNat_eq h)
  have hpow : 2 ≤ 2 ^ q.sweep.shift.toNat := Nat.le_self_pow hpos 2
  have hdiv : q.shifted ≤ q.waveLength.toNat / 2 := q.shifted_eq ▸ Nat.div_le_div_left hpow two_pos
  omega

/-- The downward target does not wrap: half of a period of 8 or more is left, less one on Square 1
(41_square.md R152). -/
theorem Square.downTarget_toNat (hshift : q.sweep.shift ≠ 0) (hw : 8 ≤ q.waveLength.toNat) :
    (q.downTarget i).toNat = q.waveLength.toNat - q.shifted - (if i = .one then 1 else 0) := by
  have hhalf := Square.two_mul_shifted_le hshift
  have hsmall : (BitVec.ofNat 11 q.shifted).toNat = q.shifted := by
    rw [BitVec.toNat_ofNat]
    exact Nat.mod_eq_of_lt (by omega)
  cases i with
  | one =>
    rw [Square.downTarget, if_pos rfl]
    bv_omega
  | two =>
    rw [Square.downTarget, if_neg SquareId.noConfusion]
    bv_omega

/-- The upward target does not wrap when the period changes to it (41_square.md R172). -/
theorem Square.upTarget_toNat (hup : q.waveLength.toNat + q.shifted ≤ 0x7FF) :
    (BitVec.ofNat 11 (q.waveLength.toNat + q.shifted)).toNat = q.waveLength.toNat + q.shifted :=
  by
  rw [BitVec.toNat_ofNat]
  exact Nat.mod_eq_of_lt (Nat.lt_succ_of_le hup)

/-- Whether a sweep clock whose divider has run out changes the period (41_square.md R172). -/
def Square.SweepMoves (P : Params) (q : Square) : Prop :=
  P.sqMinPeriod ≤ q.waveLength.toNat ∧
    (q.sweep.increase = false ∨ q.waveLength.toNat + q.shifted ≤ P.sqMaxPeriod)

/-- The period it changes to. -/
def Square.sweepTarget (i : SquareId) (q : Square) : BitVec 11 :=
  if q.sweep.increase = true then BitVec.ofNat 11 (q.waveLength.toNat + q.shifted) else q.downTarget i

/-- The target as a number, in either direction. -/
theorem Square.sweepTarget_toNat (hshift : q.sweep.shift ≠ 0) (hmoves : q.SweepMoves params) :
    ((q.sweepTarget i).toNat : Int) =
      if q.sweep.increase = true then (q.waveLength.toNat : Int) + q.shifted
      else (q.waveLength.toNat : Int) - q.shifted - (if i = .one then 1 else 0) := by
  obtain ⟨hw, hdir⟩ := hmoves
  have hhalf := Square.two_mul_shifted_le hshift
  have hmin : params.sqMinPeriod = 8 := rfl
  unfold Square.sweepTarget
  cases hinc : q.sweep.increase with
  | true =>
    have hup := hdir.resolve_left (by simp [hinc])
    simp only [if_true, Square.upTarget_toNat hup]
    push_cast
    rfl
  | false =>
    simp only [Bool.false_eq_true, if_false, Square.downTarget_toNat (i := i) hshift hw]
    split_ifs <;> omega

/-- A period of 8 or more is still at least 3 after a downward sweep (41_square.md R172). -/
theorem Square.three_le_sweepTarget (hshift : q.sweep.shift ≠ 0) (hmoves : q.SweepMoves params)
    (hinc : q.sweep.increase = false) : 3 ≤ (q.sweepTarget i).toNat := by
  have htarget := Square.sweepTarget_toNat (i := i) hshift hmoves
  have hhalf := Square.two_mul_shifted_le hshift
  have hw : 8 ≤ q.waveLength.toNat := hmoves.1
  simp only [hinc, Bool.false_eq_true, if_false] at htarget
  split_ifs at htarget <;> omega

/-! ### The sweep clock -/

theorem Square.sweepPeriod_of_moves (hmoves : q.SweepMoves P) :
    q.sweepPeriod P i cc = Square.updateFrequency P cc { q with waveLength := q.sweepTarget i } := by
  obtain ⟨hw, hdir⟩ := hmoves
  unfold Square.sweepPeriod Square.sweepTarget
  cases hinc : q.sweep.increase with
  | true => simp [hw, hdir.resolve_left (by simp [hinc])]
  | false => simp [hw]

theorem Square.sweepPeriod_of_not_moves (hstays : ¬ q.SweepMoves P) : q.sweepPeriod P i cc = q := by
  unfold Square.sweepPeriod
  split_ifs with hw hinc hup
  · exact absurd ⟨hw, .inl hinc⟩ hstays
  · exact absurd ⟨hw, .inr hup⟩ hstays
  · rfl
  · rfl

/-- `UpdateFrequency` does not look at the sweep's divider or its reload flag. -/
theorem Square.updateFrequency_withDivider (count : ℕ) (reload : Bool) :
    Square.updateFrequency P cc { q with sweep := { q.sweep with count := count, reload := reload } } =
      { q.updateFrequency P cc with sweep := { q.sweep with count := count, reload := reload } } := by
  rw [Square.updateFrequency_eq, Square.updateFrequency_eq]
  rfl

/-- Nor does the change of the period. -/
theorem Square.sweepPeriod_withDivider (count : ℕ) :
    Square.sweepPeriod P i cc { q with sweep := { q.sweep with count := count } } =
      { q.sweepPeriod P i cc with sweep := { q.sweep with count := count } } := by
  by_cases hmoves : q.SweepMoves P
  · rw [Square.sweepPeriod_of_moves hmoves,
      Square.sweepPeriod_of_moves (q := { q with sweep := { q.sweep with count := count } }) hmoves]
    exact Square.updateFrequency_withDivider (q := { q with waveLength := q.sweepTarget i }) count q.sweep.reload
  · rw [Square.sweepPeriod_of_not_moves hmoves,
      Square.sweepPeriod_of_not_moves (q := { q with sweep := { q.sweep with count := count } }) hmoves]

/-- The divider: it reloads when it runs out, and the period then changes. -/
theorem Square.sweepDivider_eq (P : Params) (i : SquareId) (cc : Int) (q : Square) :
    q.sweepDivider P i cc =
      { (if q.sweep.rate ≠ 0 ∧ q.sweep.count = 1 then q.sweepPeriod P i cc else q) with
        sweep := { q.sweep with
          count :=
            if q.sweep.rate ≠ 0 ∧ q.sweep.count = 1 then q.sweep.rate
            else if q.sweep.rate ≠ 0 then q.sweep.count - 1
            else q.sweep.count } } := by
  rw [Square.sweepDivider]
  by_cases hrate : q.sweep.rate = 0
  · have hstands {p : Prop} : ¬ (q.sweep.rate ≠ 0 ∧ p) := fun h => h.1 hrate
    rw [if_neg hstands, if_neg hstands, if_neg hstands, if_neg (not_not_intro hrate)]
  by_cases hone : q.sweep.count = 1
  · have hzero : q.sweep.count ≠ 0 := by omega
    rw [if_pos ⟨hrate, hzero⟩, if_pos hone, if_pos ⟨hrate, hone⟩, if_pos ⟨hrate, hone⟩,
      Square.sweepPeriod_withDivider]
  have hacts : ¬ (q.sweep.rate ≠ 0 ∧ q.sweep.count = 1) := fun h => hone h.2
  rw [if_neg hacts, if_neg hacts, if_pos hrate]
  by_cases hzero : q.sweep.count = 0
  · have hsame : q.sweep.count - 1 = q.sweep.count := by omega
    rw [if_neg fun h => h.2 hzero, hsame]
  · rw [if_pos ⟨hrate, hzero⟩, if_neg hone]

/-- The sweep unit after a clock: the divider, and then the reload (41_square.md R172). -/
def Sweep.clocked (u : Sweep) : Sweep :=
  { u with
    reload := false
    count :=
      if u.reload = true then u.rate
      else if u.rate ≠ 0 ∧ u.count = 1 then u.rate
      else if u.rate ≠ 0 then u.count - 1
      else u.count }

/-- A whole sweep clock: the change of the period, and the sweep unit. -/
theorem Square.clockSweep_eq (P : Params) (i : SquareId) (cc : Int) (q : Square) :
    q.clockSweep P i cc =
      { (if q.sweep.rate ≠ 0 ∧ q.sweep.count = 1 then q.sweepPeriod P i cc else q) with sweep := q.sweep.clocked } := by
  rw [Square.clockSweep, Square.sweepDivider_eq, Sweep.clocked]
  cases hreload : q.sweep.reload with
  | true => simp
  | false => simp [hreload]

@[simp] theorem Square.updateFrequency_waveLength : (q.updateFrequency P cc).waveLength = q.waveLength := by
  rw [Square.updateFrequency_eq]

/-- Settles O11: the clock changes the period when the divider runs out and `SweepMoves` allows it, then to
`sweepTarget`. -/
theorem squareClockSweep : Obligations.SquareClockSweep := by
  intro i cc q hshift w shifted acts moves target r
  have hmoves : moves ↔ acts ∧ q.SweepMoves params := by
    simp only [moves, Square.SweepMoves, Square.shifted_eq]
    rfl
  have hr : r = { (if acts then q.sweepPeriod params i cc else q) with sweep := q.sweep.clocked } :=
    Square.clockSweep_eq params i cc q
  by_cases hm : moves
  · obtain ⟨hacts, hsweeps⟩ := hmoves.1 hm
    have hne : q.sweep.shift ≠ 0 := hshift hacts.1
    rw [if_pos hacts, Square.sweepPeriod_of_moves hsweeps] at hr
    have hw : r.waveLength = q.sweepTarget i :=
      (congrArg Square.waveLength hr).trans Square.updateFrequency_waveLength
    simp only [if_pos hm, hw]
    exact ⟨by rw [Square.sweepTarget_toNat hne hsweeps, Square.shifted_eq],
      fun _ => Square.three_le_sweepTarget hne hsweeps, hr⟩
  · have hstands : (if acts then q.sweepPeriod params i cc else q) = q := by
      split_ifs with hacts
      · exact Square.sweepPeriod_of_not_moves fun hsweeps => hm (hmoves.2 ⟨hacts, hsweeps⟩)
      · rfl
    rw [hstands] at hr
    simp only [if_neg hm]
    exact ⟨by rw [hr], fun h => absurd h hm, hr⟩

end Sys2Proof.Machine
end

section
/-!
PROOFS. The register writes of the Squares (41_square.md R160 to R167): what each does to the channel, field by field,
and that the catch-up comes first.
-/

namespace Sys2Proof.Machine

variable {s : State}

/-- An operation that catches up and then changes the device alone. -/
theorem catchUpThen_mapDev {P : Params} (h : s.onTime) (f : Dev → Dev) :
    catchUpThen P s (fun t => t.mapDev f) = .next (s.done (f (s.caughtUp P))) :=
  catchUpThen_onTime h _

/-- `env.Write(d)` of an `F_ENV` byte (40_envelope_length.md R132, 30_encoding.md R106). -/
theorem Envelope.write_toByte (f : FEnv) (e : Envelope) :
    e.write f.toByte = { e with
      reg := f.toByte
      output := (if f.disable = true then f.rate.toNat else e.volume.toNat) * e.outputVolume } := by
  rw [Envelope.write, Envelope.updateOutput, FEnv.toByte_disable, FEnv.toByte_rate]

/-- Settles O16: the envelope byte's fields, and the catch-up of either Square's write. -/
theorem squareRegister0 : Obligations.SquareRegister0 := by
  intro f s h c written
  have hwritten (q : Square) : q.writeR0 f = written q := by
    rw [Square.writeR0, Envelope.write_toByte]
    rfl
  exact ⟨hwritten c.sq0 ▸ catchUpThen_mapDev h _, hwritten c.sq1 ▸ catchUpThen_mapDev h _⟩

/-- Settles O17: the sweep's fields as written, and the catch-up of either Square's write. -/
theorem squareRegister1 : Obligations.SquareRegister1 := by
  intro f s h c written
  have hwritten (q : Square) : q.writeR1 params (c.cc params) f = written q := by
    simp only [Square.writeR1, Bool.and_eq_true, decide_eq_true_eq]
    rfl
  exact ⟨hwritten c.sq0 ▸ catchUpThen_mapDev h _, hwritten c.sq1 ▸ catchUpThen_mapDev h _⟩

/-- Settles O18: the period's low byte as a number, and the catch-up of either Square's write. -/
theorem squareRegister2 : Obligations.SquareRegister2 := by
  intro f s h c written
  have hwritten (q : Square) : q.writeR2 params (c.cc params) f = written q := by
    rw [Square.writeR2, withPeriodLow_eq]
  exact ⟨hwritten c.sq0 ▸ catchUpThen_mapDev h _, hwritten c.sq1 ▸ catchUpThen_mapDev h _⟩

/-- Settles O19: the period's high bits as a number and the length load field by field, and the catch-up of either
Square's write. -/
theorem squareRegister3 : Obligations.SquareRegister3 := by
  intro f s h c written
  have hwritten (q : Square) : q.writeR3 params (c.cc params) f = written q := by
    rw [Square.writeR3, withPeriodHigh_eq, LengthCounter.load_eq]
    rfl
  exact ⟨hwritten c.sq0 ▸ catchUpThen_mapDev h _, hwritten c.sq1 ▸ catchUpThen_mapDev h _⟩

end Sys2Proof.Machine
end

section
/-!
PROOFS. The envelope, length and linear counter clocks of the channels (41_square.md R170, R171; 42_triangle.md R184,
R185; 43_noise.md R213, R214).
-/

namespace Sys2Proof.Machine

/-- The linear counter and its status after a clock; at 0 the truncated difference is the unchanged counter
(42_triangle.md R184). -/
theorem Triangle.clockLinear_eq (P : Params) (r : Triangle) :
    r.clockLinear P = Triangle.refresh P { r with
      linearCounter :=
        match r.status with
        | .counting => BitVec.ofNat 7 (r.linearCounter.toNat - 1)
        | .reload => r.linearCtrl.extractLsb' 0 7
      status := if r.status = .reload ∧ r.linearCtrl.getLsbD 7 = true then .reload else .counting } := by
  obtain ⟨osc, step, counter, ctrl, status, waveLength, len⟩ := r
  cases status with
  | reload => simp [Triangle.clockLinear]
  | counting =>
    by_cases hzero : counter = 0
    · subst hzero
      simp [Triangle.clockLinear]
    · have hdown : counter - 1 = BitVec.ofNat 7 (counter.toNat - 1) := by bv_omega
      simp only [Triangle.clockLinear, ne_eq, hzero, not_false_eq_true, if_true, hdown, reduceCtorEq, false_and,
        if_false]

/-- Settles O37: each clock is the unit's own with `active` recomputed; only the linear counter has cases. -/
theorem channelClocks : Obligations.ChannelClocks := by
  exact ⟨fun q => ⟨rfl, rfl⟩, fun r => ⟨Triangle.clockLinear_eq params r, rfl⟩, fun c => ⟨rfl, rfl⟩⟩

end Sys2Proof.Machine
end

section
/-!
PROOFS. `GetSample` of the Triangle (42_triangle.md R187): the three ways a call can go, the steps that fall into a
sample in closed form.
-/

namespace Sys2Proof.Machine

variable {P : Params} {r : Triangle}

/-- Active, and the sample ends inside the current step. -/
theorem Triangle.getSample_of_within (ha : r.osc.active = true) (ht : r.osc.rate ≤ r.osc.timer) :
    r.getSample P =
      (triangleLevel P r.step * ((P.outputMul : Int) * P.triWeight), { r with osc := { r.osc with
        timer := r.osc.timer - r.osc.rate
        amp := triangleLevel P r.step * ((P.outputMul : Int) * P.triWeight) } }) := by
  simp only [Triangle.getSample, ha, if_true, if_pos (sub_nonneg.2 ht)]

/-- The sum the loop of an active Triangle's `GetSample` ends with: each level times the time it was held. -/
def Triangle.heldSum (P : Params) (r : Triangle) (n : ℕ) : Int :=
  r.osc.timer * triangleLevel P r.step
    + ∑ k ∈ Finset.range n, min (r.osc.rate - r.osc.timer - k * r.osc.frequency) r.osc.frequency
        * triangleLevel P (r.step + BitVec.ofNat 5 (k + 1))

/-- Active, and `n` steps fall into the sample. -/
theorem Triangle.getSample_of_across (ha : r.osc.active = true) (ht : r.osc.timer < r.osc.rate) {n : ℕ}
    (hn : stepsDue (r.osc.timer - r.osc.rate) r.osc.frequency = n) :
    r.getSample P =
      (boxMean (r.heldSum P n) P.outputMul r.osc.rate * P.triWeight, { r with
        step := r.step + BitVec.ofNat 5 n
        osc := { r.osc with
          timer := r.osc.timer - r.osc.rate + n * r.osc.frequency
          amp := boxMean (r.heldSum P n) P.outputMul r.osc.rate * P.triWeight } }) := by
  have hneg : ¬ 0 ≤ r.osc.timer - r.osc.rate := by omega
  simp only [Triangle.getSample, ha, if_true, if_neg hneg, hn, boxWalk_position, boxWalk_timer, boxWalk_sum,
    add_one_iterate, neg_sub, Triangle.heldSum]

/-- Inactive: only the amplitude changes; the phase is held. -/
theorem Triangle.getSample_of_inactive (ha : r.osc.active = false) :
    r.getSample P = (decayed P r.osc.amp, { r with osc := { r.osc with amp := decayed P r.osc.amp } }) := by
  simp only [Triangle.getSample, ha, Bool.false_eq_true, if_false]

/-- Settles O14: whether the channel is active, and then whether a step falls into the sample. -/
theorem triangleGetSample : Obligations.TriangleGetSample := by
  intro r _ hf _ level rate timer frequency n weight amp
  cases ha : r.osc.active with
  | true =>
    rcases lt_or_ge timer rate with ht | ht
    · rw [Triangle.getSample_of_across ha ht (n := n) (stepsDue_sub hf)]
      simp only [amp, ha, true_and, if_true, if_pos ht, if_neg ht.not_ge]
      rfl
    · rw [Triangle.getSample_of_within ha ht]
      simp only [amp, ha, true_and, if_true, if_neg ht.not_gt, if_pos ht]
      rfl
  | false =>
    rw [Triangle.getSample_of_inactive ha, decayed_params]
    simp only [amp, ha, Bool.false_eq_true, false_and, if_false]
    rfl

end Sys2Proof.Machine
end

section
/-!
PROOFS. The register writes of the Triangle (42_triangle.md R190 to R192): what each does to the channel, field by
field, and that the catch-up comes first.
-/

namespace Sys2Proof.Machine

/-- The control bit of an `F_LIN` byte (30_encoding.md R114). -/
theorem FLin.toByte_control (f : FLin) : f.toByte.getLsbD 7 = f.control :=
  congrArg FLin.control f.ofByte_toByte

/-- The reload value of an `F_LIN` byte (30_encoding.md R114). -/
theorem FLin.toByte_reload (f : FLin) : f.toByte.extractLsb' 0 7 = f.reload :=
  congrArg FLin.reload f.ofByte_toByte

/-- Settles O20: the two fields of the byte, and the catch-up of the write. -/
theorem triangleRegister0 : Obligations.TriangleRegister0 :=
  fun f _ h => ⟨catchUpThen_mapDev h _, FLin.toByte_control f, FLin.toByte_reload f⟩

/-- A new period `w` with `active` recomputed (42_triangle.md R183, R191, R192). -/
theorem Triangle.refresh_setPeriod {w : ℕ} (hw : w < 2048) (cc : Int) (r : Triangle) :
    Triangle.refresh params (r.setPeriod (BitVec.ofNat 11 w) cc) = { r with
      waveLength := BitVec.ofNat 11 w
      osc := { r.osc with
        frequency := ((w : Int) + 1) * cc
        active := decide (0 < r.len.count) && decide (0 < r.linearCounter.toNat) && decide (3 ≤ w) } } := by
  have hmod : w % 2 ^ 11 = w := Nat.mod_eq_of_lt hw
  simp only [Triangle.refresh, Triangle.canOutput, Triangle.setPeriod, trianglePeriod, BitVec.toNat_ofNat, hmod]
  rfl

/-- Register 3 as a new period of the channel with its counter reloading and its length loaded (42_triangle.md R192). -/
theorem Triangle.writeR3_eq (P : Params) (cc : Int) (f : FPhi) (r : Triangle) :
    r.writeR3 P cc f =
      Triangle.refresh P (Triangle.setPeriod (BitVec.ofNat 11 (f.high.toNat * 256 + r.waveLength.toNat % 256)) cc
        { r with
          status := .reload
          len := { r.len with
            count := if r.len.enabled = true then P.lengthTable.getD f.index.toNat 0 else r.len.count } }) := by
  rw [Triangle.writeR3, withPeriodHigh_eq, LengthCounter.load_eq]
  rfl

/-- Settles O21: the catch-up of the write, and the period's low byte as a number. -/
theorem triangleRegister2 : Obligations.TriangleRegister2 := by
  intro f s h c w
  have hw : w < 2048 := by omega
  refine (catchUpThen_mapDev h _).trans ?_
  rw [Dev.mapTri, Triangle.writeR2, withPeriodLow_eq, Triangle.refresh_setPeriod hw]

/-- Settles O22: the catch-up of the write, the length load field by field, and the period's high bits as a number. -/
theorem triangleRegister3 : Obligations.TriangleRegister3 := by
  intro f s h c w count
  have hw : w < 2048 := by omega
  refine (catchUpThen_mapDev h _).trans ?_
  rw [Dev.mapTri, Triangle.writeR3_eq, Triangle.refresh_setPeriod hw]

end Sys2Proof.Machine
end

section
/-!
PROOFS. The Noise channel: the LFSR step as a number (43_noise.md R203), the three ways a call of `GetSample` can go
(43_noise.md R206), the steps that fall into a sample in closed form.
-/

namespace Sys2Proof.Machine

/-- The bit that enters the register: the exclusive or of bit 14 and the tap (43_noise.md R203). -/
def lfsrFeedback (tap : Tap) (bits : BitVec 15) : Bool := bits.getLsbD 14 ^^ bits.getLsbD tap.position

/-- The step drops bit 14 and appends the feedback below the rest (43_noise.md R203). -/
theorem lfsrStep_eq_concat (tap : Tap) (bits : BitVec 15) :
    lfsrStep tap bits = (bits.setWidth 14).concat (lfsrFeedback tap bits) := by
  refine BitVec.eq_of_getLsbD_eq fun i hi => ?_
  cases i with
  | zero => rw [lfsrStep_getLsbD_zero, BitVec.getLsbD_concat_zero, lfsrFeedback]
  | succ i =>
    have hi' : i < 14 := by omega
    rw [lfsrStep_getLsbD_succ tap bits hi', BitVec.getLsbD_concat_succ, BitVec.getLsbD_setWidth, decide_eq_true hi',
      Bool.true_and]

theorem lfsrFeedback_toNat (tap : Tap) (bits : BitVec 15) :
    (lfsrFeedback tap bits).toNat = if bits.getLsbD 14 = bits.getLsbD tap.position then 0 else 1 := by
  rw [lfsrFeedback]
  cases bits.getLsbD 14 <;> cases bits.getLsbD tap.position <;> rfl

/-- The step as a number: twice the register without its top bit, plus the feedback (43_noise.md R203). -/
theorem lfsrStep_toNat (tap : Tap) (bits : BitVec 15) :
    (lfsrStep tap bits).toNat =
      bits.toNat * 2 % 0x8000 + (if bits.getLsbD 14 = bits.getLsbD tap.position then 0 else 1) := by
  rw [lfsrStep_eq_concat, BitVec.toNat_concat, lfsrFeedback_toNat, BitVec.toNat_setWidth]
  omega

theorem Tap.position_eq (tap : Tap) : tap.position = if tap = .short then 8 else 13 := by
  cases tap <;> rfl

variable {P : Params} {c : Noise}

/-- Active, and the sample ends inside the current step. -/
theorem Noise.getSample_of_within (ha : c.osc.active = true) (ht : c.osc.rate ≤ c.osc.timer) :
    c.getSample P =
      ((c.env.output : Int) * noiseOn c.bits * P.noiseWeight, { c with osc := { c.osc with
        timer := c.osc.timer - c.osc.rate
        amp := (c.env.output : Int) * noiseOn c.bits * P.noiseWeight } }) := by
  simp only [Noise.getSample, ha, if_true, if_pos (sub_nonneg.2 ht)]

/-- The sum the loop of an active Noise channel's `GetSample` ends with: the time during which the output was on. -/
def Noise.heldSum (c : Noise) (n : ℕ) : Int :=
  c.osc.timer * noiseOn c.bits
    + ∑ k ∈ Finset.range n, min (c.osc.rate - c.osc.timer - k * c.osc.frequency) c.osc.frequency
        * noiseOn ((lfsrStep c.shifter)^[k + 1] c.bits)

/-- Active, and `n` steps fall into the sample. -/
theorem Noise.getSample_of_across (ha : c.osc.active = true) (ht : c.osc.timer < c.osc.rate) {n : ℕ}
    (hn : stepsDue (c.osc.timer - c.osc.rate) c.osc.frequency = n) :
    c.getSample P =
      (boxMean (c.heldSum n) c.env.output c.osc.rate * P.noiseWeight, { c with
        bits := (lfsrStep c.shifter)^[n] c.bits
        osc := { c.osc with
          timer := c.osc.timer - c.osc.rate + n * c.osc.frequency
          amp := boxMean (c.heldSum n) c.env.output c.osc.rate * P.noiseWeight } }) := by
  have hneg : ¬ 0 ≤ c.osc.timer - c.osc.rate := by omega
  simp only [Noise.getSample, ha, if_true, if_neg hneg, hn, boxWalk_position, boxWalk_timer, boxWalk_sum, neg_sub,
    Noise.heldSum]

/-- Inactive: the amplitude decays, and the LFSR runs on by `n` steps. -/
theorem Noise.getSample_of_inactive (ha : c.osc.active = false) {n : ℕ}
    (hn : stepsDue (c.osc.timer - c.osc.rate) c.osc.frequency = n) :
    c.getSample P =
      (decayed P c.osc.amp, { c with
        bits := (lfsrStep c.shifter)^[n] c.bits
        osc := { c.osc with
          timer := c.osc.timer - c.osc.rate + n * c.osc.frequency
          amp := decayed P c.osc.amp } }) := by
  simp only [Noise.getSample, ha, Bool.false_eq_true, if_false, hn, lfsrSteps_eq_iterate]

/-- Settles O15: the LFSR step as a number; then whether the channel is active, and whether a step falls into the
sample. -/
theorem noiseGetSample : Obligations.NoiseGetSample := by
  refine ⟨fun tap bits => tap.position_eq ▸ lfsrStep_toNat tap bits, ?_⟩
  intro c _ hf _ on rate timer frequency volume n weight amp
  have hn : stepsDue (timer - rate) frequency = n := by
    rcases lt_or_ge timer rate with ht | ht
    · simp only [n, if_neg ht.not_ge]
      exact stepsDue_sub hf
    · simp only [n, if_pos ht]
      exact stepsDue_of_nonneg (sub_nonneg.2 ht)
  cases ha : c.osc.active with
  | true =>
    rcases lt_or_ge timer rate with ht | ht
    · rw [Noise.getSample_of_across ha ht hn]
      simp only [amp, ha, if_true, if_neg ht.not_ge]
      rfl
    · have hzero : n = 0 := if_pos ht
      rw [Noise.getSample_of_within ha ht]
      simp only [amp, ha, if_true, if_pos ht, hzero, Nat.cast_zero, zero_mul, add_zero]
      rfl
  | false =>
    rw [Noise.getSample_of_inactive ha hn, decayed_params]
    simp only [amp, ha, Bool.false_eq_true, if_false]
    rfl

end Sys2Proof.Machine
end

section
/-!
PROOFS. The register writes of the Noise channel (43_noise.md R210 to R212): what each does to the channel, field by
field, and that the catch-up comes first.
-/

namespace Sys2Proof.Machine

/-- Settles O23: the envelope byte's fields, and the catch-up of the write. -/
theorem noiseRegister0 : Obligations.NoiseRegister0 := by
  intro f s h c output
  refine (catchUpThen_mapDev h _).trans ?_
  rw [Dev.mapNoise, Noise.writeR0, Envelope.write_toByte]
  rfl

/-- Settles O24: the catch-up of the write, whose fields are the channel's own operation as it stands, and the two
taps. -/
theorem noiseRegister2 : Obligations.NoiseRegister2 :=
  fun _ _ h => ⟨catchUpThen_mapDev h _, rfl, rfl⟩

/-- Settles O25: the length load field by field, and the catch-up of the write. -/
theorem noiseRegister3 : Obligations.NoiseRegister3 := by
  intro f s h c count
  refine (catchUpThen_mapDev h _).trans ?_
  rw [Dev.mapNoise, Noise.writeR3, LengthCounter.load_eq]
  rfl

end Sys2Proof.Machine
end

section
/-!
PROOFS. The Dmc's DMA fetch (44_dmc.md R229, R230): the DMA half after it, and the end of a sample.
-/

namespace Sys2Proof.Machine

/-- The DMA half after a fetch, with the address that wraps written out (44_dmc.md R229). -/
theorem Dma.fetched_eq {a : Dma} (ha : 0x8000 ≤ a.address.toNat) (b : Byte) :
    a.fetched b =
      { buffer := b
        buffered := true
        address := if a.address = 0xFFFF then 0x8000 else a.address + 1
        lengthCounter := a.lengthCounter - 1 } := by
  rw [Dma.fetched, fetchAddress_eq ha]

/-- The end of a sample field by field: a looping sample reloads the DMA half, another one raises the interrupt if it
is enabled (44_dmc.md R230). -/
theorem endOfSample_eq (d : Dev) :
    endOfSample d = { d with
      irq := { d.irq with
        dmc := if d.dmc.loop = false ∧ d.dmc.irqEnable = true then true else d.irq.dmc }
      dmc := { d.dmc with dma := { d.dmc.dma with
        address := if d.dmc.loop = true then d.dmc.regAddress else d.dmc.dma.address
        lengthCounter := if d.dmc.loop = true then d.dmc.regLength else d.dmc.dma.lengthCounter } } } := by
  unfold endOfSample
  by_cases hloop : d.dmc.loop = true
  · have hsilent : ¬ (d.dmc.loop = false ∧ d.dmc.irqEnable = true) := by simp [hloop]
    simp only [if_pos hloop, if_neg hsilent]
    rfl
  · by_cases hirq : d.dmc.irqEnable = true
    · have hraises : d.dmc.loop = false ∧ d.dmc.irqEnable = true := ⟨Bool.eq_false_of_not_eq_true hloop, hirq⟩
      simp only [if_neg hloop, if_pos hirq, if_pos hraises]
      rfl
    · have hsilent : ¬ (d.dmc.loop = false ∧ d.dmc.irqEnable = true) := fun h => hirq h.2
      simp only [if_neg hloop, if_neg hirq, if_neg hsilent]

/-- Settles O32: the byte is the one peeked at the fetch address, which a listed byte determines; the fetch ends the
sample exactly when one byte remains. -/
theorem dmcFetch : Obligations.DmcFetch := by
  intro s hcount haddress
  refine ⟨(s.peek s.dev.dmc.dma.address).1, fun x hx => by rw [State.peek_listed hx], ?_⟩
  rw [doDma_eq, Dev.fetched, Dma.fetched_eq haddress]
  by_cases hlast : s.dev.dmc.dma.lengthCounter = 1
  · simp only [hlast, endOfSample_eq, true_and]
    rfl
  · have hnonzero : ¬ s.dev.dmc.dma.lengthCounter - 1 = 0 := by omega
    simp only [if_neg hnonzero, hlast, false_and, if_false]
    rfl

end Sys2Proof.Machine
end

section
/-!
PROOFS. The Dmc's delta step (44_dmc.md R232), its output unit (R233) and its smoothing (R237).
-/

namespace Sys2Proof.Machine

variable {P : Params} {m : Dmc}

/-! ### The delta step -/

theorem dacMoves_iff (P : Params) (m : Dmc) :
    dacMoves P m = true ↔ m.active = true ∧ 0 ≤ dacTarget m ∧ dacTarget m ≤ P.dacMax := by
  simp only [dacMoves, Bool.and_eq_true, decide_eq_true_eq, and_assoc]

/-- A move takes the level to its target: the range test keeps the target from being negative. -/
theorem clockDac_dac_of_moves (hmoves : dacMoves P m = true) : ((clockDac P m).out.dac : Int) = dacTarget m := by
  obtain ⟨hactive, hnonneg, -⟩ := (dacMoves_iff P m).1 hmoves
  simp only [clockDac, hactive, hmoves, if_true, Int.toNat_of_nonneg hnonneg]

/-- The delta step field by field: only an active output unit shifts its byte. -/
theorem clockDac_eq (P : Params) (m : Dmc) :
    clockDac P m = { m with out := { m.out with
      dac := (clockDac P m).out.dac
      buffer := if m.active = true then BitVec.ofNat 8 (m.out.buffer.toNat / 2) else m.out.buffer } } := by
  have hshift : m.out.buffer >>> 1 = BitVec.ofNat 8 (m.out.buffer.toNat / 2) := by bv_omega
  by_cases hactive : m.active = true
  · simp only [clockDac, if_pos hactive, hshift]
  · simp only [clockDac, if_neg hactive]

/-- Settles O33: the level in each case, and the other fields.  (The model's first half of a clock is called
`dmcDeltaStep`.) -/
theorem dmcDeltaStepRule : Obligations.DmcDeltaStep := by
  intro m next
  refine ⟨dacMoves_iff params m, ?_, clockDac_dac_le (P := params), clockDac_eq params m⟩
  cases hmoves : dacMoves params m with
  | true => exact clockDac_dac_of_moves hmoves
  | false => exact congrArg Nat.cast (clockDac_dac_of_not_moves hmoves)

/-! ### The output unit -/

/-- A bit counter that is not 0 counts down as a number. -/
theorem bitCounter_sub_one {k : BitVec 3} (hk : k ≠ 0) : k - 1 = BitVec.ofNat 3 (k.toNat - 1) := by
  bv_omega

/-- Settles O34: only the bit counter is written in another way; the hand-over is the model's own. -/
theorem dmcOutputUnit : Obligations.DmcOutputUnit := by
  intro s m taken
  unfold clockOutputUnit
  by_cases hbits : m.out.shifter ≠ 0
  · rw [if_pos hbits, if_pos hbits, ← bitCounter_sub_one hbits]
    rfl
  · rw [if_neg hbits, if_neg hbits]
    rfl

/-! ### The smoothing -/

/-- A step up does not pass the target. -/
theorem linStep_of_le {cur lin : Int} (hle : lin ≤ cur) : lin ≤ linStep P cur lin ∧ linStep P cur lin ≤ cur := by
  unfold linStep
  split_ifs <;> omega

/-- A step down does not pass the target. -/
theorem linStep_of_ge {cur lin : Int} (hge : cur ≤ lin) : cur ≤ linStep P cur lin ∧ linStep P cur lin ≤ lin := by
  unfold linStep
  split_ifs <;> omega

/-- A step is no longer than the bound: what the distance loses is the step's length, the step staying on the near
side of its target. -/
theorem linStep_sub_natAbs_le (P : Params) (cur lin : Int) : (linStep P cur lin - lin).natAbs ≤ P.dmcLinStep := by
  have hdistance := linStep_distance P cur lin
  rcases le_total lin cur with hle | hge
  · have hbetween := linStep_of_le (P := P) hle
    omega
  · have hbetween := linStep_of_ge (P := P) hge
    omega

/-- Settles O41: `linSample` alone changes, to `linStep`, and the bound is 2048. -/
theorem dmcSmoothing : Obligations.DmcSmoothing := by
  intro m r
  have hdistance : (m.curSample - r.1).natAbs = (m.curSample - m.linSample).natAbs - 2048 :=
    linStep_distance params m.curSample m.linSample
  exact ⟨rfl, by omega, linStep_of_le, linStep_of_ge, linStep_sub_natAbs_le params _ _⟩

end Sys2Proof.Machine
end

section
/-!
PROOFS. A Dmc clock (44_dmc.md R234, R235) and a run of them (R236).
-/

namespace Sys2Proof.Machine

/-- The first half of a Dmc clock with the fields the catch-up leaves alone taken from the device before it
(44_dmc.md R234). -/
theorem dmcDeltaStep_eq_of_before (P : Params) (d : Dev) :
    dmcDeltaStep P d =
      let e := if dacMoves P d.dmc = true then update P d.clk.dmcClock d else d
      let o := (clockDac P d.dmc).out
      { e with
        clk := { e.clk with dmcClock := d.clk.dmcClock + d.dmc.frequency }
        dmc := { e.dmc with
          out := o
          curSample := if dacMoves P d.dmc = true then (o.dac : Int) * P.outputMul else d.dmc.curSample } } := by
  rw [dmcDeltaStep_eq]
  cases dacMoves P d.dmc with
  | true =>
    have hu := update_untouched P d.clk.dmcClock d
    have hfreq : (update P d.clk.dmcClock d).dmc.frequency = d.dmc.frequency := by rw [hu.dmc]
    simp only [if_true, hu.dmcClock, hfreq]
  | false => rfl

/-- Settles O35: the first half of the clock as written, and the output unit changes neither the ring, nor the filter,
nor the sample time. -/
theorem dmcClockOrder : Obligations.DmcClockOrder := by
  intro s d e o
  have hclock : dmcClock params s = clockOutputUnit params (s.mapDev (dmcDeltaStep params)) := rfl
  have ho := clockOutputUnit_outputOnly params (s.mapDev (dmcDeltaStep params))
  have hdelta := dmcDeltaStep_eq_of_before params d
  rw [State.OutputOnly, ← hclock] at ho
  refine ⟨?_, ?_, ?_, ?_⟩
  · rw [hclock, State.mapDev, hdelta]
    rfl
  all_goals
    rw [ho, State.mapDev_dev, hdelta]

/-- Settles O36: a run of Dmc clocks is a number of due ones, and with the bound `DmcTick` gives it none is left. -/
theorem dmcTickDrains : Obligations.DmcTickDrains := by
  intro s hs
  obtain ⟨n, hn, hdue⟩ := dmcClocks_iterate params s.nowU (s.nowU - s.dev.clk.dmcClock + 1).toNat s
  obtain ⟨-, -, hdone, -⟩ := dmcClocks_spec params_valid s.nowU (s.nowU - s.dev.clk.dmcClock + 1).toNat hs.dev
  refine ⟨n, ?_, hdue, hn ▸ hdone le_rfl⟩
  rw [execDmcTick, dmcTick, hn]

end Sys2Proof.Machine
end

section
/-!
PROOFS. The register writes of the Dmc (44_dmc.md R224 to R227): what each does to the channel, field by field, and
that the catch-up comes first.
-/

namespace Sys2Proof.Machine

/-- Register 0 field by field: a cleared enable clears a pending interrupt (44_dmc.md R224). -/
theorem dmcWriteR0_eq (P : Params) (f : FDctl) (d : Dev) :
    dmcWriteR0 P f d = { d with
      dmc := { d.dmc with
        irqEnable := f.irqEnable
        loop := f.loop
        rateIndex := f.rate
        frequency := dmcBitLength P d.cfg.tv f.rate (d.cc P) }
      irq := { d.irq with dmc := d.irq.dmc && f.irqEnable } } := by
  unfold dmcWriteR0
  cases f.irqEnable with
  | true => simp [Dev.mapDmc]
  | false => simp [Dev.mapDmc, clearIrq]

/-- Settles O26: the catch-up of the write, and the interrupt as written. -/
theorem dmcRegister0 : Obligations.DmcRegister0 := by
  intro f s h c
  refine (catchUpThen_mapDev h _).trans ?_
  rw [dmcWriteR0_eq]
  rfl

/-- Settles O27: the catch-up of the write, whose fields are the channel's own operation as it stands. -/
theorem dmcRegister1 : Obligations.DmcRegister1 :=
  fun _ _ h => catchUpThen_mapDev h _

/-- Settles O28: the catch-up of either write, and the start address as a number. -/
theorem dmcRegisters2And3 : Obligations.DmcRegisters2And3 :=
  fun f _ h => ⟨dmcStartAddress_eq f.value ▸ catchUpThen_mapDev h _, catchUpThen_mapDev h _⟩

end Sys2Proof.Machine
end

section
/-!
PROOFS. The frame sequencer's step and the units it clocks (45_frame_sequencer.md R253, R254).
-/

namespace Sys2Proof.Machine

/-- The divider's parity bit as a number. -/
theorem divider_getLsbD_zero (k : BitVec 2) : k.getLsbD 0 = decide (k.toNat % 2 = 1) := by
  revert k
  decide

/-- The divider goes up modulo 4 (45_frame_sequencer.md R253). -/
theorem divider_add_one (k : BitVec 2) : k + 1 = BitVec.ofNat 2 ((k.toNat + 1) % 4) := by
  bv_omega

/-- The gap of a step is looked up with its number (45_frame_sequencer.md R251). -/
theorem frameGap_ofNat (P : Params) (tv : TvMode) (mode5 : Bool) {k : Nat} (hk : k < 4) (fixed : Int) :
    frameGap P tv mode5 (BitVec.ofNat 2 k) fixed =
      (((P.frameStep tv mode5).getD k 0 : Nat) : Int) * cpuCycle P tv fixed := by
  rw [frameGap, BitVec.toNat_ofNat, Nat.mod_eq_of_lt hk]

/-- Settles O38: each half of `ClockOscillators` writes its units once, and a step reads the divider as a number. -/
theorem sequencerStep : Obligations.SequencerStep := by
  intro d k cc clocked
  have hclocked (odd : Bool) : clockOscillators params odd d = clocked odd := by
    cases odd <;> rfl
  refine ⟨hclocked, ?_⟩
  have hk : k < 4 := Nat.mod_lt _ four_pos
  rw [clockFrameSequencer, divider_getLsbD_zero, divider_add_one, hclocked, frameGap_ofNat _ _ _ hk]
  rfl

end Sys2Proof.Machine
end

section
/-!
PROOFS. The frame IRQ timer's tick (45_frame_sequencer.md R263) and the frame control write (R258).
-/

namespace Sys2Proof.Machine

variable {P : Params} {d : Dev}

/-- The loop of `FrameIrqTick` field by field: with the timer due, it passes the least number of points that brings the
timer past `limit`, at least one (45_frame_sequencer.md R263). -/
theorem frameIrqTick_due_iterate (hP : P.Valid) (hfixed : 0 < d.clk.fixed) {limit c : Int}
    (htimer : d.clk.frameIrqClock = some c) (hdue : c ≤ limit) :
    let next := fun p : Int × Fin 3 => nextIrqPoint P d.cfg.tv d.clk.fixed p.1 p.2
    ∃ n : Nat, 0 < n ∧
      (∀ k < n, (next^[k] (c, d.clk.frameIrqRepeat)).1 ≤ limit) ∧
      limit < (next^[n] (c, d.clk.frameIrqRepeat)).1 ∧
      frameIrqTick P limit d = { d with
        irq := { d.irq with frame := true }
        clk := { d.clk with
          frameIrqClock := some (next^[n] (c, d.clk.frameIrqRepeat)).1
          frameIrqRepeat := (next^[n] (c, d.clk.frameIrqRepeat)).2 } } := by
  intro next
  obtain ⟨n, hn, hbefore⟩ :=
    irqPoints_iterate P d.cfg.tv d.clk.fixed limit (limit - c + 1).toNat (c, d.clk.frameIrqRepeat)
  obtain ⟨-, -, hpast⟩ :=
    irqPoints_spec hP d.cfg.tv hfixed limit (limit - c + 1).toNat (c, d.clk.frameIrqRepeat)
  replace hpast : limit < (next^[n] (c, d.clk.frameIrqRepeat)).1 := hn ▸ hpast le_rfl
  refine ⟨n, Nat.pos_of_ne_zero ?_, hbefore, hpast, ?_⟩
  · rintro rfl
    exact absurd hdue (not_le.2 hpast)
  · simp only [frameIrqTick, htimer, if_pos hdue, hn]
    rfl

/-- Settles O39: nothing while the timer is off or early, else the loop's least number of points. -/
theorem frameIrqTickPoints : Obligations.FrameIrqTickPoints := by
  intro s hfixed d cc next
  refine ⟨frameIrqTick params s.nowU d, rfl, ?_⟩
  split
  next hoff => exact frameIrqTick_off hoff
  next c htimer =>
    rcases lt_or_ge s.nowU c with hearly | hdue
    · rw [if_pos hearly]
      exact frameIrqTick_early htimer hearly
    · rw [if_neg (not_lt.2 hdue)]
      exact frameIrqTick_due_iterate params_valid hfixed htimer hdue

/-- The end of the frame control write: the inhibit bit clears the flag, then the 5-step mode clocks every unit
(45_frame_sequencer.md R258). -/
theorem frameModeEffects_eq (P : Params) (f : FFrm) (d : Dev) :
    let cleared : Dev := { d with irq := { d.irq with frame := d.irq.frame && !f.irqInhibit } }
    frameModeEffects P f d = if f.mode5 = true then clockOscillators P true cleared else cleared := by
  unfold frameModeEffects
  cases f.irqInhibit with
  | true => simp [clearIrq]
  | false => simp

/-- The restart with times in MC: a time in MC and a gap in CPU cycles make one time in MC, scaled to `u`
(45_frame_sequencer.md R258). -/
theorem frameRestart_eq (P : Params) (f : FFrm) (next : Nat) (d : Dev) :
    frameRestart P f next d = { d with
      clk := { d.clk with
        frameCounter :=
          ((next + (P.frameStep d.cfg.tv f.mode5).getD 0 0 * P.cpuDiv d.cfg.tv : Nat) : Int) * d.clk.fixed
        frameDivider := 0
        frameIrqRepeat := 0
        frameIrqClock :=
          if f.mode5 = true ∨ f.irqInhibit = true then none
          else some
            (((next + (P.frameIrqClocks d.cfg.tv).getD 0 0 * P.cpuDiv d.cfg.tv : Nat) : Int) * d.clk.fixed) }
      ctrl := { mode5 := f.mode5, irqInhibit := f.irqInhibit } } := by
  have htime (n gap : Nat) : (n : Int) * d.clk.fixed + gap * cpuCycle P d.cfg.tv d.clk.fixed =
      ((n + gap * P.cpuDiv d.cfg.tv : Nat) : Int) * d.clk.fixed := by
    rw [cpuCycle]
    push_cast
    ring
  rw [← htime, ← htime]
  rfl

/-- Settles O31: the catch-up and the timer's tick keep the TV mode and the scale, so the restart's times are those of
the device before the write. -/
theorem frameControlWrite : Obligations.FrameControlWrite := by
  intro f s h tv fixed cpu written c next r
  have hu := update_untouched params (written * fixed) s.dev
  have hc : c = frameIrqTick params (written * fixed) (update params (written * fixed) s.dev) := rfl
  have htv : c.cfg.tv = tv := by rw [hc, frameIrqTick_rest, hu.cfg]
  have hfixed : c.clk.fixed = fixed := by rw [hc, frameIrqTick_rest, hu.fixed]
  have hwrite : frameWrite params f s.inp.now s.inp.odd s.dev =
      frameModeEffects params f (frameRestart params f next c) := rfl
  rw [State.onTime] at h
  rw [exec, execFrameW, if_pos h, hwrite, frameModeEffects_eq, frameRestart_eq, htv, hfixed]

end Sys2Proof.Machine
end

section
/-!
PROOFS. Who clears the frame IRQ (45_frame_sequencer.md R264): what each instruction, each event and each line makes of
a flag that is set.
-/

namespace Sys2Proof.Machine

variable {s t : State}

/-! ### The instructions -/

/-- The two instructions that clear the frame IRQ. -/
def clearsFrameIrq : Instr → Bool
  | .statusR => true
  | .frameW f => f.irqInhibit
  | _ => false

theorem clearsFrameIrq_iff (i : Instr) :
    clearsFrameIrq i = true ↔ i = .statusR ∨ ∃ f : FFrm, i = .frameW f ∧ f.irqInhibit = true := by
  cases i <;> simp [clearsFrameIrq]

/-- An operation that catches up and then leaves the frame flag alone leaves it alone altogether. -/
theorem catchUpThen_frame {P : Params} {k : State → State} (hnext : catchUpThen P s k = .next t)
    (hk : ∀ u, (k u).dev.irq.frame = u.dev.irq.frame) : t.dev.irq.frame = s.dev.irq.frame := by
  obtain ⟨-, rfl⟩ := catchUpThen_next hnext
  rw [hk]
  exact congrArg IrqView.frame (update_untouched P s.nowU s.dev).irq

theorem execStatusW_frame {f : FStw} (hnext : execStatusW f s = .next t) : t.dev.irq.frame = s.dev.irq.frame := by
  refine catchUpThen_frame hnext fun u => ?_
  rw [dmcSetEnabled_fetchOnly]
  rfl

theorem execStatusR_frame (hnext : execStatusR s = .next t) : t.dev.irq.frame = false := by
  obtain ⟨-, rfl⟩ := catchUpThen_next hnext
  rfl

theorem execFrameW_frame {f : FFrm} (hnext : execFrameW f s = .next t) (hset : s.dev.irq.frame = true) :
    t.dev.irq.frame = !f.irqInhibit := by
  unfold execFrameW at hnext
  split_ifs at hnext
  cases hnext
  obtain ⟨-, -, -, -, -, -, -, hframe⟩ := frameWrite_rest params f s.inp.now s.inp.odd s.dev
  exact hframe hset

/-- A flag that is set stays set through every instruction but the two. -/
theorem exec_frame {i : Instr} (hnext : exec i s = .next t) (hset : s.dev.irq.frame = true) :
    t.dev.irq.frame = !clearsFrameIrq i := by
  cases i with
  | statusR => exact execStatusR_frame hnext
  | frameW f => exact execFrameW_frame hnext hset
  | statusW f => exact (execStatusW_frame hnext).trans hset
  | dmcR0 f =>
    refine (catchUpThen_frame hnext fun u => ?_).trans hset
    rw [State.mapDev_dev, dmcWriteR0_eq]
  | nop4009 d | nop400D d =>
    cases hnext
    exact hset
  | _ => exact (catchUpThen_frame hnext fun _ => rfl).trans hset

/-! ### The host events -/

/-- The events that clear the frame IRQ of a device with settings `cfg`. -/
def eventClearsFrameIrq (cfg : Settings) : HostEvent → Bool
  | .reset _ => true
  | .configure new => decide (new.tv ≠ cfg.tv ∧ configureRefuses params new cfg = none)
  | _ => false

theorem eventClearsFrameIrq_iff (cfg : Settings) (e : HostEvent) :
    eventClearsFrameIrq cfg e = true ↔ (∃ hard, e = .reset hard) ∨
      ∃ new, e = .configure new ∧ new.tv ≠ cfg.tv ∧ configureRefuses params new cfg = none := by
  cases e <;> simp [eventClearsFrameIrq]

theorem resetDevice_frame (P : Params) (hard : Bool) (d : Dev) : (resetDevice P hard d).irq.frame = false := rfl

theorem takeSettings_frame (P : Params) (new : Settings) (d : Dev) :
    (takeSettings P new d).irq.frame = d.irq.frame := rfl

/-- `Configure` clears the flag only by the reset of a changed TV mode (47_clock_converter.md R291). -/
theorem configure_frame (new : Settings) {d : Dev} (hset : d.irq.frame = true) :
    (configure params new d).2.irq.frame = !eventClearsFrameIrq d.cfg (.configure new) := by
  unfold configure eventClearsFrameIrq
  cases hrefuses : configureRefuses params new d.cfg with
  | some o => simp [hrefuses, hset]
  | none =>
    by_cases htv : new.tv = d.cfg.tv
    · simp [htv, takeSettings_frame, hset]
    · simp [htv, hrefuses, resetDevice_frame]

theorem deliverFrame_frame (P : Params) (stream : Option Nat) (a : LockAnswer) (s : State) :
    (deliverFrame P stream a s).dev.irq.frame = s.dev.irq.frame := by
  rw [deliverFrame_rest]

theorem execEndFrame_frame {frameCycles : Nat} {stream : Option Nat} {a : LockAnswer}
    (hnext : execEndFrame frameCycles stream a s = .next t) : t.dev.irq.frame = s.dev.irq.frame := by
  unfold execEndFrame at hnext
  split_ifs at hnext
  exact catchUpThen_frame hnext (deliverFrame_frame params stream a)

/-- A flag that is set stays set through every event but a reset and a change of TV mode. -/
theorem runEvent_frame {e : HostEvent} (hnext : runEvent e s = .next t) (hset : s.dev.irq.frame = true) :
    t.dev.irq.frame = !eventClearsFrameIrq s.dev.cfg e := by
  cases e with
  | reset hard =>
    cases hnext
    rfl
  | configure new =>
    cases hnext
    exact configure_frame new hset
  | update now => exact (catchUpThen_frame (atTime_next hnext).2 fun _ => rfl).trans hset
  | endFrame now frameCycles stream a => exact (execEndFrame_frame (atTime_next hnext).2).trans hset
  | flush length =>
    cases hnext
    exact hset
  | dmcTick now =>
    cases (atTime_next hnext).2
    exact (dmcClocks_outside params _ _ _).frame.trans hset
  | frameIrqTick now =>
    cases (atTime_next hnext).2
    exact frameIrqTick_frame hset

/-! ### The step -/

/-- Settles O59: a bus line clears the flag when its instruction does, an event line when its event does, and a store
never. -/
theorem frameIrqClearers : Obligations.FrameIrqClearers := by
  intro s t l rest htodo hstep hset
  rw [step, htodo] at hstep
  cases l with
  | bus now odd w =>
    simp only [runLine, runBus] at hstep
    cases hdecode : decode w with
    | reject why => simp [hdecode] at hstep
    | instr i =>
      rw [hdecode] at hstep
      rw [exec_frame (atTime_next hstep).2 hset, Bool.not_eq_false', clearsFrameIrq_iff]
      simp [hdecode]
  | event e =>
    rw [runEvent_frame hstep hset, Bool.not_eq_false', eventClearsFrameIrq_iff]
    simp
  | cpuStore a b =>
    cases hstep
    simp [hset]

end Sys2Proof.Machine
end

section
/-!
PROOFS. The status register in both directions (46_status.md R281, R283): the Dmc's enable and its restart (44_dmc.md
R228), and the byte a read returns.
-/

namespace Sys2Proof.Machine

/-- `dmc.SetEnabled(e)` field by field: what it does turns on the enable, the remaining count and the buffer
(44_dmc.md R228). -/
theorem dmcSetEnabled_eq (P : Params) (e : Bool) (s : State) :
    let m := s.dev.dmc
    let silenced : Dev := { s.dev with irq := { s.dev.irq with dmc := false } }
    let withDma := fun a : Dma => { s with dev := { silenced with dmc := { m with dma := a } } }
    let restarted := withDma { m.dma with lengthCounter := m.regLength, address := m.regAddress }
    dmcSetEnabled P e s =
      if e = false then withDma { m.dma with lengthCounter := 0 }
      else if m.dma.lengthCounter ≠ 0 then { s with dev := silenced }
      else if m.dma.buffered = true then restarted
      else doDma P restarted := by
  intro m silenced withDma restarted
  -- The model tests for a count of 0 first; else the branches are its own.
  rw [ite_not]
  rfl

/-- Settles O29: the catch-up, the four enables, which are the channels' own operations as they stand, and then the
Dmc's enable. -/
theorem statusWrite : Obligations.StatusWrite := by
  intro f s h c square triCount noiseCount enabled restarted
  rw [exec, execStatusW, catchUpThen_onTime h, dmcSetEnabled_eq]
  rfl

/-- The bits of the byte `RD $4015` returns, from 7 down to 0 (30_encoding.md R119). -/
theorem FStr.toByte_bits (f : FStr) :
    f.toByte.getLsbD 7 = f.dmcIrq ∧ f.toByte.getLsbD 6 = f.frameIrq ∧ f.toByte.getLsbD 5 = false ∧
      f.toByte.getLsbD 4 = f.dmc ∧ f.toByte.getLsbD 3 = f.noise ∧ f.toByte.getLsbD 2 = f.tri ∧
      f.toByte.getLsbD 1 = f.square2 ∧ f.toByte.getLsbD 0 = f.square1 := by
  obtain ⟨dmcIrq, frameIrq, dmc, noise, tri, square2, square1⟩ := f
  revert dmcIrq frameIrq dmc noise tri square2 square1
  decide

/-- Settles O30: the frame IRQ timer keeps the time and duty P2, so the catch-up after it is to the same time; the byte
is made of the device before the clear. -/
theorem statusRead : Obligations.StatusRead := by
  intro s h c
  have hcaught : (s.mapDev (frameIrqTick params s.nowU)).caughtUp params = c := by
    rw [State.caughtUp, State.nowU_frameIrqTick]
    rfl
  refine ⟨c.statusByte, ?_, FStr.toByte_bits c.statusFields⟩
  rw [exec, execStatusR, catchUpThen_onTime ((State.onTime_frameIrqTick params s.nowU s).2 h), hcaught]
  rfl

end Sys2Proof.Machine
end

section
/-!
PROOFS. The ClockConverter: the multiplier it picks (47_clock_converter.md R293), and the `Configure` that keeps the TV
mode (R291, R295, R296).
-/

namespace Sys2Proof.Machine

variable {P : Params}

/-! ### The multiplier -/

/-- No multiplier below the one taken divides exactly, and the one taken does unless none up to the bound does. -/
theorem multiplier_least (P : Params) (tv : TvMode) (r : Nat) :
    (∀ k, 1 ≤ k → k < multiplier P tv r → P.clockBase tv * k % r ≠ 0) ∧
      (P.clockBase tv * multiplier P tv r % r = 0 ∨
        multiplier P tv r = P.mMax ∧ ∀ k, 1 ≤ k → k ≤ P.mMax → P.clockBase tv * k % r ≠ 0) := by
  obtain ⟨hfound, hnone⟩ := searchMultiplier_spec (P.clockBase tv) r P.mMax 1
  unfold multiplier
  cases hsearch : searchMultiplier (P.clockBase tv) r P.mMax 1 with
  | none =>
    have hinexact : ∀ k, 1 ≤ k → k ≤ P.mMax → P.clockBase tv * k % r ≠ 0 := fun k hk hle =>
      hnone hsearch k hk (by omega)
    exact ⟨fun k hk hlt => hinexact k hk hlt.le, Or.inr ⟨rfl, hinexact⟩⟩
  | some m =>
    obtain ⟨-, -, hexact, hleast⟩ := hfound m hsearch
    exact ⟨hleast, Or.inl hexact⟩

theorem params_fps (tv : TvMode) : params.fps tv = if tv = .ntsc then 60 else 50 := by
  cases tv <;> rfl

theorem params_clockBase (tv : TvMode) : params.clockBase tv = if tv = .ntsc then 236250000 else 212813700 := by
  cases tv <;> rfl

theorem params_baseDivider (tv : TvMode) : params.baseDivider tv = if tv = .ntsc then 11 else 8 := by
  cases tv <;> rfl

/-- Settles O50: the search's multiplier lies in range and is least or the bound; `rate` and `fixed` are made with it. -/
theorem deriveLeastMultiplier : Obligations.DeriveLeastMultiplier := by
  refine ⟨fun sampleRate speed tv => ?_, fun tv r _ => ?_⟩
  · rw [effectiveRate, params_fps]
  · obtain ⟨hleast, hexact⟩ := multiplier_least params tv r
    rw [← params_clockBase, ← params_baseDivider]
    exact ⟨multiplier_pos params_valid tv r, multiplier_le params tv r, hleast, hexact, rfl, rfl⟩

/-! ### New settings of the same TV mode -/

theorem configure_of_taken {new : Settings} {d : Dev} (htaken : configureRefuses P new d.cfg = none)
    (htv : new.tv = d.cfg.tv) : configure P new d = (.ok, takeSettings P new d) := by
  simp [configure, htaken, htv]

/-- A `Configure` that keeps the TV mode resets nothing, so the present time stays. -/
theorem runEvent_configure_of_taken {new : Settings} {s : State} (htaken : configureRefuses params new s.dev.cfg = none)
    (htv : new.tv = s.dev.cfg.tv) :
    runEvent (.configure new) s = .next (s.done (takeSettings params new s.dev)) := by
  simp [runEvent, execConfigure, configure_of_taken htaken htv, htv, State.done]

/-- Settles O52: the settings are taken up with no reset; `Rescale` and then `UpdateChannelSettings` on the device are
the statement's fields as they stand. -/
theorem reconfigureScales : Obligations.ReconfigureScales := by
  intro new s htaken htv v d scale cc osc square
  rw [runEvent_configure_of_taken htaken htv]
  rfl

end Sys2Proof.Machine
end

section
/-!
PROOFS. The mixer (48_mixer.md R312, R314, R315).
-/

namespace Sys2Proof.Machine

/-! ### The groups and the filter with the default constants -/

theorem squareGroup_params (a : Int) :
    squareGroup params a = if a = 0 then 0 else 4225499136 / (1872691200 / a + 90000) := rfl

theorem tndGroup_params (b : Int) :
    tndGroup params b = if b = 0 then 0 else 4022353920 / (3114112000 / b + 50000) := rfl

/-- The pole and the scale of R314 as numbers; the filter keeps the unclamped quotient. -/
theorem DcBlocker.push_params (x : Int) (c : DcBlocker) :
    c.push params x =
      { acc := c.acc - c.prev + x * 2 ^ 15 - c.next * 3
        prev := x * 2 ^ 15
        next := (c.acc - c.prev + x * 2 ^ 15 - c.next * 3) / 2 ^ 15 } := rfl

/-! ### The sample -/

/-- Settles O40: the two groups and the filter with their constants make the sample and the device; the range is the
clamp's alone. -/
theorem mixSample_spec : Obligations.MixSample := by
  intro d a b p q acc
  refine ⟨?_, mixSample_range params_valid d⟩
  have hfilter : d.dc.push params (squareGroup params a + tndGroup params b) =
      { acc := acc, prev := (p + q) * 2 ^ 15, next := acc / 2 ^ 15 } := by
    rw [squareGroup_params, tndGroup_params, DcBlocker.push_params]
  calc mixSample params d
      = (clampInt (d.dc.push params (squareGroup params a + tndGroup params b)).next (-32767) 32767,
          { (sampleChannels params d).2 with
            dc := d.dc.push params (squareGroup params a + tndGroup params b) }) := rfl
    _ = _ := by rw [hfilter]; rfl

end Sys2Proof.Machine
end

section
/-!
PROOFS. The loops of `Update(t)` (49_output_and_synthesis.md R332, R333).
-/

namespace Sys2Proof.Machine

variable {P : Params} {d : Dev}

/-- `while clk.frameCounter < limit do ClockFrameSequencer()` is a number of steps, each due when it is taken, and
none is due after them. -/
theorem runSequencer_iterate (hP : P.Valid) (limit : Int) (h : d.Inv P) :
    ∃ j, runSequencer P limit d = (clockFrameSequencer P)^[j] d ∧
      (∀ k < j, ((clockFrameSequencer P)^[k] d).clk.frameCounter < limit) ∧
      limit ≤ ((clockFrameSequencer P)^[j] d).clk.frameCounter := by
  obtain ⟨j, hj, hdue⟩ := drainSteps_iterate P limit (limit - d.clk.frameCounter).toNat d
  obtain ⟨-, -, -, -, -, hdone⟩ := runSequencer_spec hP limit h
  exact ⟨j, hj, hdue, hj ▸ hdone⟩

/-- The device once a pass has mixed and pushed its sample, before the sequencer steps (49_output_and_synthesis.md
R333). -/
def Dev.mixed (P : Params) (d : Dev) : Dev :=
  { (mixSample P d).2 with ring := d.ring.push P (mixSample P d).1 }

theorem Dev.mixed_inv (hP : P.Valid) (h : d.Inv P) : (d.mixed P).Inv P :=
  (mixSample_inv hP h).withRing (h.ring.push hP (mixSample_range hP d))

/-- One pass of the loop, the external channel being at `INF` in a sound state. -/
theorem hostSample_eq (hP : P.Valid) (h : d.Inv P) :
    hostSample P d = { runSequencer P (d.clk.rateCounter + 1) (d.mixed P) with
      clk := { (runSequencer P (d.clk.rateCounter + 1) (d.mixed P)).clk with
        rateCounter := d.clk.rateCounter + d.clk.rate } } := by
  obtain ⟨hinv, -⟩ := runSequencer_spec hP (d.clk.rateCounter + 1) (Dev.mixed_inv hP h)
  have hext := clockExt_inf (t := d.clk.rateCounter) hinv.clk.ext
  calc hostSample P d
      = { clockExt d.clk.rateCounter (runSequencer P (d.clk.rateCounter + 1) (d.mixed P)) with
          clk := { (clockExt d.clk.rateCounter (runSequencer P (d.clk.rateCounter + 1) (d.mixed P))).clk with
            rateCounter := d.clk.rateCounter + d.clk.rate } } := rfl
    _ = _ := by rw [hext]

/-- The `SYNTH` path is a number of passes, each begun before `t`, and the next sample is not before `t`. -/
theorem synthPath_iterate (hP : P.Valid) (t : Int) (h : d.Inv P) :
    ∃ n, synthPath P t d = (hostSample P)^[n] d ∧ (∀ k < n, ((hostSample P)^[k] d).clk.rateCounter < t) ∧
      t ≤ ((hostSample P)^[n] d).clk.rateCounter := by
  obtain ⟨n, hn, hdue⟩ := synthLoop_iterate P t (t - d.clk.rateCounter).toNat d
  obtain ⟨-, -, -, -, hdone⟩ := synthLoop_spec hP t (t - d.clk.rateCounter).toNat h
  exact ⟨n, hn, hdue, hn ▸ hdone le_rfl⟩

/-- The `ADVANCE_ONLY` path moves the sample time alone, the external channel being at `INF` in a sound state. -/
theorem advancePath_eq (t : Int) (h : d.Inv P) :
    advancePath t d = { d with clk := { d.clk with rateCounter := max d.clk.rateCounter t } } :=
  clockExt_inf h.clk.ext

theorem update_of_synth (hsynth : d.cfg.synth = .synth) (t : Int) :
    update P t d = runSequencer P t (synthPath P t d) := by
  rw [update, hsynth]

theorem update_of_advanceOnly (hsynth : d.cfg.synth = .advanceOnly) (t : Int) (h : d.Inv P) :
    update P t d = runSequencer P t { d with clk := { d.clk with rateCounter := max d.clk.rateCounter t } } := by
  rw [update, hsynth, ← advancePath_eq t h]

/-- Whatever a path leaves, `Update(t)` ends with the sequencer steps that are due before `t`, and leaves none due. -/
theorem update_iterate (hP : P.Valid) {t : Int} (h : d.Inv P) {e : Dev} (he : update P t d = runSequencer P t e) :
    ∃ j, update P t d = (clockFrameSequencer P)^[j] e ∧
      (∀ k < j, ((clockFrameSequencer P)^[k] e).clk.frameCounter < t) ∧
      t ≤ ((clockFrameSequencer P)^[j] e).clk.frameCounter := by
  obtain ⟨j, hj, hdue⟩ := drainSteps_iterate P t (t - e.clk.frameCounter).toNat e
  have hj' : update P t d = (clockFrameSequencer P)^[j] e := he.trans hj
  obtain ⟨-, -, -, hdone, -⟩ := update_spec hP t h
  exact ⟨j, hj', hdue, hj' ▸ hdone⟩

/-- Settles O43: the catch-up is the event, a pass is its sample and the due sequencer steps, and `Update` is the
path's own part followed by the sequencer steps before `t`. -/
theorem updateLoops : Obligations.UpdateLoops := by
  refine ⟨fun s hs => if_pos hs, fun d h => ?_, fun d t h => ?_⟩
  · obtain ⟨j, hj, hdue, hdone⟩ :=
      runSequencer_iterate params_valid (d.clk.rateCounter + 1) (Dev.mixed_inv params_valid h)
    exact ⟨j, fun k hk => Int.lt_add_one_iff.1 (hdue k hk), Int.add_one_le_iff.1 hdone,
      hj ▸ hostSample_eq params_valid h⟩
  · cases hsynth : d.cfg.synth with
    | synth =>
      obtain ⟨j, hj, hdue, hdone⟩ := update_iterate params_valid h (update_of_synth hsynth t)
      exact ⟨_, j, hj, hdue, hdone, synthPath_iterate params_valid t h⟩
    | advanceOnly =>
      obtain ⟨j, hj, hdue, hdone⟩ := update_iterate params_valid h (update_of_advanceOnly hsynth t h)
      exact ⟨_, j, hj, hdue, hdone, rfl⟩

end Sys2Proof.Machine
end

section
/-!
PROOFS. The ring's push (49_output_and_synthesis.md R340, R341).
-/

namespace Sys2Proof.Machine

/-- `Latency()` with the default ring size. -/
theorem Ring.latency_params (r : Ring) : r.latency params = (((r.pos : Int) - r.start) % 0x4000).toNat := rfl

/-- `RingPush` with the default ring size: the drop is the case of a write position that meets the start. -/
theorem Ring.push_params (x : Int) (r : Ring) :
    r.push params x = { r with
      output := putSample r.output r.pos x
      pos := (r.pos + 1) % 0x4000
      start := if (r.pos + 1) % 0x4000 = r.start then (r.start + 1) % 0x4000 else r.start } := rfl

/-- The write position meets the start exactly when the ring is full (49_output_and_synthesis.md R340). -/
theorem Ring.full_iff {r : Ring} (hstart : r.start < 0x4000) :
    r.latency params = 0x3FFF ↔ (r.pos + 1) % 0x4000 = r.start := by
  rw [Ring.latency_params]
  omega

/-- Settles O45: the drop of R340 happens exactly when the ring is full; a slot is read back by the rules of sample
arrays. -/
theorem ringPush : Obligations.RingPush := by
  intro r x _ hstart hrising full p
  have hp : p = { r with
      output := p.output
      pos := (r.pos + 1) % 0x4000
      start := if full then (r.start + 1) % 0x4000 else r.start } := by
    simp only [p, full, Ring.full_iff hstart, Ring.push_params]
  refine ⟨Nat.le_of_lt_succ (Ring.latency_lt params_valid r), sampleAt_putSample_same hrising _ _,
    fun k hk => sampleAt_putSample_other hk _ _, hp, ?_⟩
  rw [hp]
  by_cases hfull : full
  · have hmeets := (Ring.full_iff hstart).1 hfull
    simp only [if_pos hfull, Ring.latency_params]
    omega
  · have hroom : r.latency params ≠ 0x3FFF := hfull
    simp only [if_neg hfull, Ring.latency_params] at hroom ⊢
    omega

end Sys2Proof.Machine
end

section
/-!
PROOFS. Delivery to the host: the encoding of a sample (49_output_and_synthesis.md R345), and a flush (R344, R346,
R347), its frames one by one and what they leave in the history ring.
-/

namespace Sys2Proof.Machine

/-! ### The encoding -/

/-- Settles O48: a sample in range is a 16-bit signed number, and its 8-bit form is between 0 and 255. -/
theorem encodedSamples : Obligations.EncodedSamples := by
  intro x hmin hmax
  refine ⟨⟨BitVec.ofInt 16 x, rfl, ?_⟩, BitVec.ofInt 8 (x / 256 + 128), rfl, ?_⟩
  · exact BitVec.toInt_ofInt_eq_self (by decide) (by norm_num; omega) (by norm_num; omega)
  · rw [BitVec.toNat_ofInt]
    omega

/-! ### The frames -/

/-- Frame `k` of a flush of `length` frames: an undelivered sample, or the last delivered one held
(49_output_and_synthesis.md R344). -/
def Ring.frame (P : Params) (length : ℕ) (r : Ring) (k : ℕ) : Int :=
  if k < min length (r.latency P) then sampleAt r.output ((r.start + k) % P.ringSize)
  else (r.deliver P (min length (r.latency P))).hold P

theorem flushSamples_eq_map_frame (P : Params) (length : ℕ) (r : Ring) :
    flushSamples P length r = (List.range length).map (r.frame P length) := by
  refine List.ext_getElem (by simp) fun k hk _ => ?_
  simp only [List.getElem_map, List.getElem_range, Ring.frame, flushSamples]
  by_cases hblock : k < min length (r.latency P)
  · rw [List.getElem_append_left (by simpa using hblock), if_pos hblock]
    simp [Ring.block]
  · rw [List.getElem_append_right (by rw [Ring.block_length]; omega), if_neg hblock, List.getElem_replicate]

/-! ### Stereo: the history delays the stream -/

/-- The delayed stream when the frames `l` are written to `r`: at `k` the sample of `HISTORY_SIZE` frames before frame
`k`, an old one of the history or an earlier frame (49_output_and_synthesis.md R347). -/
def Ring.delayed (P : Params) (r : Ring) (l : List Int) (k : ℕ) : Int :=
  if k < P.historySize then sampleAt r.history ((r.hpos + k) % P.historySize) else l.getD (k - P.historySize) 0

theorem Ring.delayed_map_range (r : Ring) (f : ℕ → Int) {length k : ℕ} (hk : k < length + 64) :
    r.delayed params ((List.range length).map f) k =
      if k < 64 then sampleAt r.history ((r.hpos + k) % 64) else f (k - 64) := by
  have hsize : params.historySize = 64 := rfl
  rw [Ring.delayed, hsize]
  split_ifs with hearly
  · rfl
  · have hlt : k - 64 < length := by omega
    simp [List.getD_eq_getElem?_getD, hlt]

section
variable {cfg : Settings} (h : cfg.channels = .stereo)
include h

theorem writeFrame_stereo (P : Params) (s : Int) (r : Ring) :
    writeFrame P cfg s r =
      ([encodeSlot cfg.bits (sampleAt r.history (r.hpos % P.historySize)), encodeSlot cfg.bits s],
        { r with history := putSample r.history (r.hpos % P.historySize) s, hpos := r.hpos + 1 }) := by
  rw [writeFrame, h]

theorem writeFrame_stereo_hpos (P : Params) (s : Int) (r : Ring) : (writeFrame P cfg s r).2.hpos = r.hpos + 1 := by
  rw [writeFrame_stereo h]

theorem writeFrame_stereo_rising (P : Params) (s : Int) {r : Ring} (hr : Rising r.history) :
    Rising (writeFrame P cfg s r).2.history := by
  rw [writeFrame_stereo h]
  exact rising_putSample hr _ _

theorem writeFrames_stereo_hpos (P : Params) (l : List Int) (r : Ring) :
    (writeFrames P cfg l r).2.hpos = r.hpos + l.length := by
  induction l generalizing r with
  | nil => rfl
  | cons s l ih => rw [writeFrames, ih, writeFrame_stereo_hpos h, List.length_cons, Nat.add_right_comm, Nat.add_assoc]

/-- Once the first frame is written the delayed stream is one frame on: its slot now holds the frame, which comes back
after `HISTORY_SIZE` frames. -/
theorem Ring.delayed_writeFrame {r : Ring} (hr : Rising r.history) (s : Int) (l : List Int) (k : ℕ) :
    (writeFrame params cfg s r).2.delayed params l k = r.delayed params (s :: l) (k + 1) := by
  have hsize : params.historySize = 64 := rfl
  simp only [writeFrame_stereo h, Ring.delayed, hsize]
  rcases lt_trichotomy k 63 with hk | rfl | hk
  · have hslot : (r.hpos + 1 + k) % 64 = (r.hpos + (k + 1)) % 64 := by omega
    rw [if_pos (by omega), if_pos (by omega), sampleAt_putSample_other (by omega), hslot]
  · have hslot : (r.hpos + 1 + 63) % 64 = r.hpos % 64 := by omega
    simp [hslot, hr]
  · have hframe : k + 1 - 64 = k - 64 + 1 := by omega
    rw [if_neg (by omega), if_neg (by omega), hframe, List.getD_cons_succ]

/-- The slots of stereo frames: each frame behind its delayed one. -/
theorem writeFrames_stereo_slots (l : List Int) {r : Ring} (hr : Rising r.history) {k : ℕ} (hk : k < l.length) :
    (writeFrames params cfg l r).1[2 * k]? = some (encodeSlot cfg.bits (r.delayed params l k)) ∧
    (writeFrames params cfg l r).1[2 * k + 1]? = some (encodeSlot cfg.bits (l.getD k 0)) := by
  induction l generalizing r k with
  | nil => exact absurd hk (Nat.not_lt_zero k)
  | cons s l ih =>
    have hslots : (writeFrames params cfg (s :: l) r).1 =
        encodeSlot cfg.bits (r.delayed params (s :: l) 0) :: encodeSlot cfg.bits s ::
          (writeFrames params cfg l (writeFrame params cfg s r).2).1 := by
      rw [writeFrames, writeFrame_stereo h]; rfl
    rw [hslots]
    cases k with
    | zero => exact ⟨rfl, rfl⟩
    | succ k =>
      rw [← Ring.delayed_writeFrame h hr, List.getD_cons_succ]
      exact ih (writeFrame_stereo_rising h params s hr) (Nat.lt_of_succ_lt_succ hk)

/-- After stereo frames the history holds the delayed stream of the `HISTORY_SIZE` frames to come. -/
theorem writeFrames_stereo_history (l : List Int) {r : Ring} (hr : Rising r.history) {k : ℕ} (hle : l.length ≤ k)
    (hlt : k < l.length + 64) :
    sampleAt (writeFrames params cfg l r).2.history ((r.hpos + k) % 64) = r.delayed params l k := by
  induction l generalizing r k with
  | nil => exact (if_pos (hlt.trans_eq (Nat.zero_add 64))).symm
  | cons s l ih =>
    rw [List.length_cons] at hle hlt
    obtain ⟨k, rfl⟩ : ∃ j, k = j + 1 := Nat.exists_eq_add_one.2 (by omega)
    rw [← Ring.delayed_writeFrame h hr,
      ← ih (writeFrame_stereo_rising h params s hr) (by omega) (by omega), writeFrame_stereo_hpos h,
      Nat.add_right_comm, Nat.add_assoc]
    rfl

/-! The same for the frames `f 0`, `f 1`, ... of a flush, the delayed stream written out. -/

variable (f : ℕ → Int) {length k : ℕ} {r : Ring} (hr : Rising r.history)
include hr

theorem writeFrames_stereo_slots_map_range (hk : k < length) :
    let slots := (writeFrames params cfg ((List.range length).map f) r).1
    slots[2 * k]? = some (encodeSlot cfg.bits
      (if k < 64 then sampleAt r.history ((r.hpos + k) % 64) else f (k - 64))) ∧
    slots[2 * k + 1]? = some (encodeSlot cfg.bits (f k)) := by
  have hdelayed := r.delayed_map_range f (Nat.lt_add_right 64 hk)
  have hframe : ((List.range length).map f).getD k 0 = f k := by simp [List.getD_eq_getElem?_getD, hk]
  have hslots := writeFrames_stereo_slots h ((List.range length).map f) hr (k := k) (by simpa using hk)
  rwa [hdelayed, hframe] at hslots

/-- The history ends with the last `HISTORY_SIZE` frames. -/
theorem writeFrames_stereo_history_latest (hlast : length ≤ k + 64) (hk : k < length) :
    sampleAt (writeFrames params cfg ((List.range length).map f) r).2.history ((r.hpos + k) % 64) = f k := by
  have hslot : (r.hpos + k) % 64 = (r.hpos + (k + 64)) % 64 := by omega
  rw [hslot, writeFrames_stereo_history h _ hr (by simpa using hlast) (by simpa using hk),
    Ring.delayed_map_range r f (Nat.add_lt_add_right hk 64), if_neg (Nat.not_lt.2 (Nat.le_add_left 64 k)),
    Nat.add_sub_cancel]

/-- What fewer than `HISTORY_SIZE` frames do not reach in the history stays. -/
theorem writeFrames_stereo_history_kept (hle : length ≤ k) (hk : k < 64) :
    sampleAt (writeFrames params cfg ((List.range length).map f) r).2.history ((r.hpos + k) % 64) =
      sampleAt r.history ((r.hpos + k) % 64) := by
  have hlt : k < length + 64 := Nat.lt_add_left length hk
  rw [writeFrames_stereo_history h _ hr (by simpa using hle) (by simpa using hlt), Ring.delayed_map_range r f hlt,
    if_pos hk]

end

/-! ### The event -/

/-- The event `Flush` changes the ring's start and history and the host's buffer (49_output_and_synthesis.md R344). -/
theorem runEvent_flush (length : ℕ) (s : State) :
    let w := flushRing params s.dev.cfg length s.dev.ring
    runEvent (.flush length) s = .next { s with
      dev := { s.dev with ring := { s.dev.ring with
        start := (s.dev.ring.start + min length (s.dev.ring.latency params)) % 0x4000
        history := w.2.history
        hpos := w.2.hpos } }
      host := { s.host with buffer := w.1 }
      outcome := .ok } := by
  intro w
  have hring : w.2 = { s.dev.ring with
      start := (s.dev.ring.start + min length (s.dev.ring.latency params)) % 0x4000
      history := w.2.history
      hpos := w.2.hpos } := writeFrames_rest _ _ _ _
  rw [← hring]
  rfl

/-- Settles O46: the slots and the history in stereo are the frames and the stream delayed by 64 frames. -/
theorem flushFrames : Obligations.FlushFrames := by
  intro length s hrising r bits n start frame
  have hw : flushRing params s.dev.cfg length r =
      writeFrames params s.dev.cfg ((List.range length).map frame) (r.deliver params n) := by
    rw [flushRing, flushSamples_eq_map_frame]
    rfl
  refine ⟨_, _, _, runEvent_flush length s, ?_⟩
  rw [hw]
  cases hch : s.dev.cfg.channels with
  | mono =>
    rw [writeFrames_mono hch, List.map_map]
    exact ⟨rfl, rfl, rfl⟩
  | stereo =>
    have hr : Rising (r.deliver params n).history := hrising
    exact ⟨by simp [writeFrames_length, hch], by simp [writeFrames_stereo_hpos hch, Ring.deliver],
      fun _ hk => writeFrames_stereo_slots_map_range hch frame hr hk,
      fun _ hlast hk => writeFrames_stereo_history_latest hch frame hr hlast hk,
      fun _ hle hk => writeFrames_stereo_history_kept hch frame hr hle hk⟩

end Sys2Proof.Machine
end

section
/-!
PROOFS. The outcomes of the operations (60_exceptions.md R381, R385): those of `Configure` in the order of its checks,
with the state each leaves, and `ok` of all others.
-/

namespace Sys2Proof.Machine

variable {s t : State} {new : Settings}

/-! ### `Configure` -/

/-- The outcome is the refusal, or `ok` when nothing refuses. -/
theorem configureRefuses_getD (P : Params) (new cfg : Settings) :
    (configureRefuses P new cfg).getD .ok =
      if new.sampleRate = 0 then .invalidSampleRate
      else if new.bits ≠ 8 ∧ new.bits ≠ 16 then .unsupportedBits
      else if effectiveRate P new.sampleRate new.speed new.tv = 0 then .invalidSampleRate
      else if (deriveFor P new).rate = 0 then .invalidSampleRate
      else if new = cfg then .noOp
      else .ok := by
  unfold configureRefuses
  split_ifs <;> rfl

theorem ne_ok_of_configureRefuses {P : Params} {cfg : Settings} {o : OpOutcome}
    (hrefused : configureRefuses P new cfg = some o) : o ≠ .ok := by
  rintro rfl
  unfold configureRefuses at hrefused
  split_ifs at hrefused <;> cases hrefused

/-- A refused `Configure` changes the outcome alone, the present time included (47_clock_converter.md R291). -/
theorem runEvent_configure_of_refused {o : OpOutcome} (hrefused : configureRefuses params new s.dev.cfg = some o) :
    runEvent (.configure new) s = .next { s with outcome := o } := by
  simp [runEvent, execConfigure, configure, hrefused, ne_ok_of_configureRefuses hrefused]

/-- A hard reset reads the settings alone, so what the old device was rescaled to before it is lost
(70_reset_and_hazards.md R400). -/
theorem resetDevice_takeSettings (P : Params) (new : Settings) (d : Dev) :
    resetDevice P true (takeSettings P new d) = resetDevice P true { d with cfg := new } := rfl

/-- A `Configure` that changes the TV mode is the hard reset under the new settings, which defines time zero
(47_clock_converter.md R291). -/
theorem runEvent_configure_of_tvChange (htaken : configureRefuses params new s.dev.cfg = none)
    (htv : new.tv ≠ s.dev.cfg.tv) :
    runEvent (.configure new) s = runEvent (.reset true) { s with dev := { s.dev with cfg := new } } := by
  simp [runEvent, execConfigure, execReset, configure, htaken, htv, resetDevice_takeSettings, State.done]

/-! ### The instructions -/

/-- The catch-up sets `ok`, and an operation that then leaves the outcome alone answers it. -/
theorem catchUpThen_ok {P : Params} {k : State → State} (hnext : catchUpThen P s k = .next t)
    (hk : ∀ u, (k u).outcome = u.outcome) : t.outcome = .ok := by
  obtain ⟨-, rfl⟩ := catchUpThen_next hnext
  exact hk _

theorem execStatusW_ok {f : FStw} (hnext : execStatusW f s = .next t) : t.outcome = .ok := by
  refine catchUpThen_ok hnext fun u => ?_
  rw [dmcSetEnabled_fetchOnly]
  rfl

theorem execStatusR_okValue (hnext : execStatusR s = .next t) : ∃ v, t.outcome = .okValue v := by
  obtain ⟨-, rfl⟩ := catchUpThen_next hnext
  exact ⟨_, rfl⟩

theorem execFrameW_ok {f : FFrm} (hnext : execFrameW f s = .next t) : t.outcome = .ok := by
  unfold execFrameW at hnext
  split_ifs at hnext
  cases hnext
  rfl

/-- Every write that has a step answers `ok` (60_exceptions.md R385). -/
theorem exec_ok {i : Instr} (hwrite : i ≠ .statusR) (hnext : exec i s = .next t) : t.outcome = .ok := by
  cases i with
  | statusR => exact absurd rfl hwrite
  | statusW f => exact execStatusW_ok hnext
  | frameW f => exact execFrameW_ok hnext
  | nop4009 d | nop400D d =>
    cases hnext
    rfl
  | _ => exact catchUpThen_ok hnext fun _ => rfl

/-! ### The host events -/

theorem execEndFrame_ok {frameCycles : Nat} {stream : Option Nat} {a : LockAnswer}
    (hnext : execEndFrame frameCycles stream a s = .next t) : t.outcome = .ok := by
  unfold execEndFrame at hnext
  split_ifs at hnext
  refine catchUpThen_ok hnext fun u => ?_
  rw [deliverFrame_rest]
  rfl

/-- Every event but `Configure` that has a step answers `ok` (60_exceptions.md R385). -/
theorem runEvent_ok {e : HostEvent} (hother : ∀ new, e ≠ .configure new) (hnext : runEvent e s = .next t) :
    t.outcome = .ok := by
  cases e with
  | configure new => exact absurd rfl (hother new)
  | reset hard | flush length =>
    cases hnext
    rfl
  | update now => exact catchUpThen_ok (atTime_next hnext).2 fun _ => rfl
  | endFrame now frameCycles stream a => exact execEndFrame_ok (atTime_next hnext).2
  | dmcTick now | frameIrqTick now =>
    cases (atTime_next hnext).2
    rfl

/-- Settles O51: a `Configure` is refused, taken with the TV mode kept, or taken with a reset; all other operations end
with `ok` or the status byte. -/
theorem configureOutcomes : Obligations.ConfigureOutcomes := by
  refine ⟨?_, fun i s t hnext => ?_, fun e s t => runEvent_ok⟩
  · intro new s r
    have hchecks := configureRefuses_getD params new s.dev.cfg
    cases hrefuses : configureRefuses params new s.dev.cfg with
    | some o =>
      rw [hrefuses] at hchecks
      have hne := ne_ok_of_configureRefuses hrefuses
      exact ⟨_, runEvent_configure_of_refused hrefuses, hchecks, fun _ => rfl, fun hok => absurd hok hne,
        fun hok => absurd hok hne⟩
    | none =>
      rw [hrefuses] at hchecks
      by_cases htv : new.tv = s.dev.cfg.tv
      · exact ⟨_, runEvent_configure_of_taken hrefuses htv, hchecks, fun hne => absurd rfl hne, fun _ => rfl,
          fun _ hchange => absurd htv hchange⟩
      · exact ⟨_, runEvent_configure_of_tvChange hrefuses htv, hchecks, fun hne => absurd rfl hne, fun _ => rfl,
          fun _ _ => rfl⟩
  · split_ifs with hread
    · subst hread
      exact execStatusR_okValue hnext
    · exact exec_ok hread hnext

end Sys2Proof.Machine
end

section
/-!
PROOFS. Decoding and encoding of transaction words (30_encoding.md R100 to R119): a word decodes to an instruction
exactly when a row of the register map has its head, and each instruction has its row.
-/

namespace Sys2Proof

open Machine

/-! ### The row of a word -/

/-- A row is found by its head: no two rows share one. -/
theorem find?_rows {r : Row} (hr : r ∈ rows) : rows.find? (fun q => q.head == r.head) = some r := by
  cases hfind : rows.find? (fun q => q.head == r.head) with
  | none => exact absurd (beq_self_eq_true r.head) (List.find?_eq_none.1 hfind r hr)
  | some q =>
    have hhead : q.head = r.head := by simpa using List.find?_some hfind
    have hnodup : (rows.map Row.head).Nodup := List.pairwise_map.2 rows_distinct
    rw [List.inj_on_of_nodup_map hnodup (List.mem_of_find?_eq_some hfind) hr hhead]

theorem decode_eq_instr_iff (t : TWord) (i : Instr) :
    decode t = .instr i ↔ ∃ r ∈ rows, r.head = t.head ∧ r.make t.data = i := by
  constructor
  · intro hdecode
    unfold decode at hdecode
    split at hdecode
    next r hfind =>
      exact ⟨r, List.mem_of_find?_eq_some hfind, by simpa using List.find?_some hfind, Decoded.instr.inj hdecode⟩
    next => cases hdecode
  · rintro ⟨r, hr, hhead, rfl⟩
    rw [decode, ← hhead, find?_rows hr]

theorem decode_eq_reject {t : TWord} (hnone : ∀ r ∈ rows, r.head ≠ t.head) : decode t = .reject (rejectOf t) := by
  rw [decode, List.find?_eq_none.2 fun r hr => by simpa using hnone r hr]

/-! ### The row of an instruction -/

/-- Each instruction is what a row of its head makes of its data byte. -/
theorem exists_row (i : Instr) : ∃ r ∈ rows, r.head = i.head ∧ r.make i.data = i := by
  cases i <;> simp [rows, Instr.head, Instr.data]

/-- Settles O1: the encoded word has its instruction's head and data byte, and the row of that head reads the byte
back. -/
theorem decodeInvertsEncode : Obligations.DecodeInvertsEncode := by
  intro i
  rw [decode_eq_instr_iff, encode_head, encode_data]
  exact exists_row i

theorem decode_of_encode_eq {t : TWord} {i : Instr} (ht : encode i = t) : decode t = .instr i :=
  ht ▸ decodeInvertsEncode i

/-- Settles O3: each word is the encoding of its instruction. -/
theorem decodedWords : Obligations.DecodedWords := by
  refine ⟨?_, ?_, ?_, ?_, ?_, ?_, ?_, ?_⟩ <;> exact decode_of_encode_eq (by decide)

/-! ### What a row makes of a data byte -/

theorem TWord.isWrite_eq_head (t : TWord) : t.isWrite = t.head.getLsbD 16 := by
  simp [TWord.isWrite, TWord.head]

theorem Row.head_make {r : Row} (hr : r ∈ rows) (d : Byte) : (r.make d).head = r.head := by
  revert r
  simp [rows, Instr.head]

/-- A write's row keeps the whole data byte; the one read's row ignores it. -/
theorem Row.data_make {r : Row} (hr : r ∈ rows) (d : Byte) :
    (r.head.getLsbD 16 = true → (r.make d).data = d) ∧ (r.head.getLsbD 16 = false → r.make d = .statusR) := by
  revert r
  simp [rows, Instr.data]

/-- Settles O2: the row of the word's head makes the instruction, and loses no bit of a write. -/
theorem encodeInvertsDecode : Obligations.EncodeInvertsDecode := by
  intro t i hdecode
  obtain ⟨r, hr, hhead, rfl⟩ := (decode_eq_instr_iff t i).1 hdecode
  obtain ⟨hwrite, hread⟩ := Row.data_make hr t.data
  have hkept : (r.make t.data).head = t.head := (Row.head_make hr t.data).trans hhead
  rw [hhead, ← TWord.isWrite_eq_head] at hwrite hread
  refine ⟨(encode_head _).trans hkept, fun hw => ?_, hread⟩
  rw [encode, hkept, hwrite hw, TWord.head_append_data]

/-! ### Transactions that are reserved or unmapped -/

theorem TWord.addr_eq_head (t : TWord) : t.addr = t.head.extractLsb' 0 16 := by
  refine BitVec.eq_of_getLsbD_eq fun k hk => ?_
  have hk17 : k < 17 := by omega
  simp [TWord.addr, TWord.head, hk, hk17]

theorem TWord.head_eq (t : TWord) : t.head = BitVec.ofBool t.isWrite ++ t.addr := by
  refine BitVec.eq_of_getLsbD_eq fun k hk => ?_
  rw [TWord.isWrite_eq_head, TWord.addr_eq_head, BitVec.getLsbD_append]
  by_cases hlow : k < 16
  · simp [hlow]
  · obtain rfl : k = 16 := by omega
    simp

/-- The transactions that are operations of this device (30_encoding.md R102, R104 (a)). -/
theorem decode_instr_addr {t : TWord} {i : Instr} (hdecode : decode t = .instr i) :
    0x4000 ≤ t.addr.toNat ∧ t.addr.toNat ≤ 0x4017 ∧ t.addr ≠ 0x4014 ∧ t.addr ≠ 0x4016 ∧
      (t.isWrite = false → t.addr = 0x4015) := by
  obtain ⟨r, hr, hhead, -⟩ := (decode_eq_instr_iff t i).1 hdecode
  rw [TWord.addr_eq_head, TWord.isWrite_eq_head, ← hhead]
  clear hhead
  revert r
  simp only [rows]
  decide

theorem step_of_no_operation {s : State} {now : Nat} {odd : Bool} {t : TWord} {rest : List Line}
    (htodo : s.todo = .bus now odd t :: rest) (hnone : ∀ i, decode t ≠ .instr i) :
    step s = .refused (refusalOf (rejectOf t)) := by
  have hreject : decode t = .reject (rejectOf t) :=
    decode_eq_reject fun r hr hhead => hnone _ ((decode_eq_instr_iff t _).2 ⟨r, hr, hhead, rfl⟩)
  simp [step, htodo, runLine, runBus, hreject]

/-- Settles O4: the two no-effect writes have rows of their own, and a transaction of any other class is no row's. -/
theorem reservedTransactions : Obligations.ReservedTransactions := by
  refine ⟨fun d s => ⟨rfl, rfl⟩, fun s now odd t rest htodo => ⟨?_, ?_, ?_, ?_, ?_⟩⟩
  · intro hwrite haddr
    have hhead : 0x14009 = t.head := by
      rw [TWord.head_eq, hwrite, haddr]
      rfl
    exact (decode_eq_instr_iff t _).2 ⟨⟨0x14009, .nop4009⟩, by simp [rows], hhead, rfl⟩
  · intro hwrite haddr
    have hhead : 0x1400D = t.head := by
      rw [TWord.head_eq, hwrite, haddr]
      rfl
    exact (decode_eq_instr_iff t _).2 ⟨⟨0x1400D, .nop400D⟩, by simp [rows], hhead, rfl⟩
  · intro hport
    rw [step_of_no_operation htodo, rejectOf, if_pos hport, refusalOf]
    intro i hdecode
    obtain ⟨-, -, h4014, h4016, -⟩ := decode_instr_addr hdecode
    exact hport.elim h4014 h4016
  · intro hread haddr
    have hport : ¬(t.addr = 0x4014 ∨ t.addr = 0x4016) := by bv_omega
    have hwindow : 0x4000 ≤ t.addr.toNat ∧ t.addr.toNat ≤ 0x4017 := by bv_omega
    have hother : t.addr ≠ 0x4015 := by bv_omega
    rw [step_of_no_operation htodo, rejectOf, if_neg hport, if_pos hwindow, refusalOf]
    intro i hdecode
    obtain ⟨-, -, -, -, hstatus⟩ := decode_instr_addr hdecode
    exact hother (hstatus hread)
  · intro haddr
    have hport : ¬(t.addr = 0x4014 ∨ t.addr = 0x4016) := by bv_omega
    rw [step_of_no_operation htodo, rejectOf, if_neg hport, if_neg (by omega), refusalOf]
    intro i hdecode
    obtain ⟨hlow, hhigh, -⟩ := decode_instr_addr hdecode
    omega

end Sys2Proof
end

section
/-!
PROOFS. The step (30_encoding.md sections 1, 2 and 5; 20_memory.md R80): what it makes of the next line, and the
operations that have no step because a duty of an outside agent is broken (60_exceptions.md R383).
-/

namespace Sys2Proof.Machine

variable {s : State}

/-! ### The next line -/

theorem step_of_no_line (htodo : s.todo = []) : step s = .next s := by
  rw [step, htodo]

theorem step_of_line {l : Line} {rest : List Line} (htodo : s.todo = l :: rest) :
    step s = runLine l { s with todo := rest } := by
  rw [step, htodo]

theorem runBus_of_instr {t : TWord} {i : Instr} (hdecode : decode t = .instr i) (now : Nat) (odd : Bool) :
    runBus now odd t s = atTime now odd s (exec i) := by
  rw [runBus, hdecode]

theorem atTime_late {now : Nat} (hlate : now < s.inp.now) (odd : Bool) (k : State → Result) :
    atTime now odd s k = .fault .timeWentBack := if_neg hlate.not_ge

/-- A word numbered as the opcode table numbers it is an instruction when its transaction decodes to one. -/
theorem decode_of_decodeTableWord {nbits w : Nat} {i : Instr} (htable : decodeTableWord nbits w = some i) :
    decode (BitVec.ofNat 25 (w % 2 ^ nbits)) = .instr i := by
  simp only [decodeTableWord] at htable
  split_ifs at htable
  split at htable
  next j hdecode => rwa [← Option.some.inj htable]
  next => cases htable

/-- Settles O5: a line in time latches its inputs and runs the decoded instruction; a placed word is such a line. -/
theorem stepRunsDecodedTransaction : Obligations.StepRunsDecodedTransaction := by
  refine ⟨fun s now odd t rest i htodo hdecode hnow => ?_, fun s nbits w i htable => ?_⟩
  · rw [step_of_line htodo, runLine, runBus_of_instr hdecode]
    exact atTime_onTime (s := { s with todo := rest }) hnow
  · have hplaced : (s.withFetchWord nbits w).todo =
        .bus s.inp.now false (BitVec.ofNat 25 (w % 2 ^ nbits)) :: s.todo := rfl
    rw [step_of_line hplaced, runLine, runBus_of_instr (decode_of_decodeTableWord htable)]
    exact atTime_onTime (s := s) le_rfl

/-- Settles O6: the lines that carry a time are the transactions and four of the events, and each tests it first. -/
theorem stepWaitsAndKeepsTime : Obligations.StepWaitsAndKeepsTime := by
  refine ⟨fun s => step_of_no_line, fun s l rest now htodo htime hlate hdecodes => ?_⟩
  rw [step_of_line htodo]
  have hfault (odd : Bool) (k : State → Result) : atTime now odd { s with todo := rest } k = .fault .timeWentBack :=
    atTime_late (s := { s with todo := rest }) hlate odd k
  cases l with
  | bus n odd t =>
    cases htime
    obtain ⟨i, hdecode⟩ := hdecodes _ _ _ rfl
    rw [runLine, runBus_of_instr hdecode, hfault]
  | event e =>
    cases e with
    | update n | endFrame n frameCycles stream a | dmcTick n | frameIrqTick n =>
      cases htime
      exact hfault _ _
    | reset hard | configure new | flush length => cases htime
  | cpuStore a b => cases htime

/-! ### The duties P2 and P3 -/

/-- With a Dmc clock due, every instruction but the two no-effect writes stops at its catch-up. -/
theorem exec_late (hlate : ¬ s.onTime) {i : Instr} (h4009 : ∀ d, i ≠ .nop4009 d) (h400D : ∀ d, i ≠ .nop400D d) :
    exec i s = .fault .dmcTickMissed := by
  cases i with
  | nop4009 d => exact absurd rfl (h4009 d)
  | nop400D d => exact absurd rfl (h400D d)
  | frameW f => exact if_neg hlate
  | statusW f => rw [exec, execStatusW, catchUpThen_late hlate]
  | statusR => rw [exec, execStatusR, catchUpThen_late (mt (State.onTime_frameIrqTick params s.nowU s).1 hlate)]
  | _ => exact catchUpThen_late hlate _

/-- Settles O7: the catch-up tests P2, and `EndFrame` tests P3 before it. -/
theorem contractFaults : Obligations.ContractFaults := by
  refine ⟨fun s hlate => ⟨fun i => exec_late hlate, catchUpThen_late hlate _, fun n stream a hpos hle => ?_⟩,
    fun s n stream a hrange => if_neg hrange⟩
  rw [execEndFrame, if_pos ⟨hpos, hle⟩, catchUpThen_late hlate]

end Sys2Proof.Machine
end

section
/-!
PROOFS. What no instruction changes, and what only the named ones change (30_encoding.md section 2, 44_dmc.md
section 2, 45_frame_sequencer.md section 3, 46_status.md): one lemma for each kind of instruction.
-/

namespace Sys2Proof.Machine

variable {s t : State}

/-- `t` agrees with `s` wherever `i` has no business: the clauses of the frame by name. -/
structure State.KeptBy (i : Instr) (s t : State) : Prop where
  mem : t.mem = s.mem
  inp : t.inp = s.inp
  host : t.host = s.host
  todo : t.todo = s.todo
  cfg : t.dev.cfg = s.dev.cfg
  fixed : t.dev.clk.fixed = s.dev.clk.fixed
  rate : t.dev.clk.rate = s.dev.clk.rate
  dmcClock : t.dev.clk.dmcClock = s.dev.clk.dmcClock
  ctrl : (∀ f, i ≠ .frameW f) → t.dev.ctrl = s.dev.ctrl
  frameIrq : (∀ f, i ≠ .frameW f) → i ≠ .statusR →
    t.dev.clk.frameIrqClock = s.dev.clk.frameIrqClock ∧ t.dev.clk.frameIrqRepeat = s.dev.clk.frameIrqRepeat ∧
      t.dev.irq.frame = s.dev.irq.frame
  stolen : (∀ f, i ≠ .statusW f) → t.dev.stolen = s.dev.stolen ∧ t.peeks = s.peeks
  dmcIrq : (∀ f, i ≠ .statusW f) → (∀ f, i ≠ .dmcR0 f) → t.dev.irq.dmc = s.dev.irq.dmc
  dmc : (∀ f, i ≠ .statusW f) → (∀ f, i ≠ .dmcR0 f) → (∀ f, i ≠ .dmcR1 f) → (∀ f, i ≠ .dmcR2 f) →
    (∀ f, i ≠ .dmcR3 f) → t.dev.dmc = { s.dev.dmc with linSample := t.dev.dmc.linSample }

theorem Dev.Untouched.irq_frame {d e : Dev} (h : d.Untouched e) : e.irq.frame = d.irq.frame := by rw [h.irq]

theorem Dev.Untouched.irq_dmc {d e : Dev} (h : d.Untouched e) : e.irq.dmc = d.irq.dmc := by rw [h.irq]

/-- A device that differs in what the synthesis moves alone. -/
theorem Dev.Untouched.keptBy {d : Dev} (h : s.dev.Untouched d) (i : Instr) : s.KeptBy i (s.done d) :=
  ⟨rfl, rfl, rfl, rfl, h.cfg, h.fixed, h.rate, h.dmcClock, fun _ => h.ctrl,
    fun _ _ => ⟨h.frameIrqClock, h.frameIrqRepeat, h.irq_frame⟩, fun _ => ⟨h.stolen, rfl⟩,
    fun _ _ => h.irq_dmc, fun _ _ _ _ _ => h.dmc⟩

theorem State.caughtUp_untouched (P : Params) (s : State) : s.dev.Untouched (s.caughtUp P) :=
  update_untouched P s.nowU s.dev

/-- A write of an oscillator's register: the catch-up and a change the synthesis may make as well. -/
theorem catchUpThen_keptBy {P : Params} {f : Dev → Dev} (i : Instr)
    (hnext : catchUpThen P s (fun u => u.mapDev f) = .next t) (hf : ∀ d : Dev, d.Untouched (f d)) : s.KeptBy i t := by
  obtain ⟨-, rfl⟩ := catchUpThen_next hnext
  exact ((s.caughtUp_untouched P).trans (hf _)).keptBy i

theorem dmcR0_keptBy {f : FDctl} (hnext : execDmcR0 f s = .next t) : s.KeptBy (.dmcR0 f) t := by
  obtain ⟨-, rfl⟩ := catchUpThen_next hnext
  have h := s.caughtUp_untouched params
  rw [State.mapDev, dmcWriteR0_eq]
  exact ⟨rfl, rfl, rfl, rfl, h.cfg, h.fixed, h.rate, h.dmcClock, fun _ => h.ctrl,
    fun _ _ => ⟨h.frameIrqClock, h.frameIrqRepeat, h.irq_frame⟩, fun _ => ⟨h.stolen, rfl⟩,
    fun _ hne => absurd rfl (hne f), fun _ hne => absurd rfl (hne f)⟩

/-- The other Dmc registers change the channel alone. -/
theorem catchUpThen_mapDmc_keptBy {P : Params} {g : Dmc → Dmc} {i : Instr}
    (hnext : catchUpThen P s (fun u => u.mapDev fun d => d.mapDmc g) = .next t)
    (hi : (∃ f, i = .dmcR1 f) ∨ (∃ f, i = .dmcR2 f) ∨ ∃ f, i = .dmcR3 f) : s.KeptBy i t := by
  obtain ⟨-, rfl⟩ := catchUpThen_next hnext
  have h := (s.caughtUp_untouched P).keptBy i
  refine ⟨rfl, rfl, rfl, rfl, h.cfg, h.fixed, h.rate, h.dmcClock, h.ctrl, h.frameIrq, h.stolen, h.dmcIrq,
    fun _ _ h1 h2 h3 => ?_⟩
  obtain ⟨f, rfl⟩ | ⟨f, rfl⟩ | ⟨f, rfl⟩ := hi
  · exact absurd rfl (h1 f)
  · exact absurd rfl (h2 f)
  · exact absurd rfl (h3 f)

theorem statusW_keptBy {f : FStw} (hnext : execStatusW f s = .next t) : s.KeptBy (.statusW f) t := by
  obtain ⟨-, rfl⟩ := catchUpThen_next hnext
  have h := s.caughtUp_untouched params
  rw [dmcSetEnabled_fetchOnly]
  exact ⟨rfl, rfl, rfl, rfl, h.cfg, h.fixed, h.rate, h.dmcClock, fun _ => h.ctrl,
    fun _ _ => ⟨h.frameIrqClock, h.frameIrqRepeat, h.irq_frame⟩, fun hne => absurd rfl (hne f),
    fun hne => absurd rfl (hne f), fun hne => absurd rfl (hne f)⟩

/-- The status read moves the frame IRQ timer and flag alone, before the catch-up and after it. -/
theorem statusR_keptBy (hnext : execStatusR s = .next t) : s.KeptBy .statusR t := by
  obtain ⟨-, rfl⟩ := catchUpThen_next hnext
  have h := (s.mapDev (frameIrqTick params s.nowU)).caughtUp_untouched params
  rw [State.mapDev_dev, frameIrqTick_rest] at h
  exact ⟨rfl, rfl, rfl, rfl, h.cfg, h.fixed, h.rate, h.dmcClock, fun _ => h.ctrl, fun _ hne => absurd rfl hne,
    fun _ => ⟨h.stolen, rfl⟩, fun _ _ => h.irq_dmc, fun _ _ _ _ _ => h.dmc⟩

theorem frameW_keptBy {f : FFrm} (hnext : execFrameW f s = .next t) : s.KeptBy (.frameW f) t := by
  rw [execFrameW] at hnext
  split_ifs at hnext
  cases hnext
  obtain ⟨hcfg, hfixed, hrate, hclock, hstolen, hirq, hdmc, -⟩ := frameWrite_rest params f s.inp.now s.inp.odd s.dev
  exact ⟨rfl, rfl, rfl, rfl, hcfg, hfixed, hrate, hclock, fun hne => absurd rfl (hne f), fun hne => absurd rfl (hne f),
    fun _ => ⟨hstolen, rfl⟩, fun _ _ => hirq, fun _ _ _ _ _ => hdmc⟩

theorem exec_keptBy {i : Instr} (hnext : exec i s = .next t) : s.KeptBy i t := by
  cases i with
  | dmcR0 f => exact dmcR0_keptBy hnext
  | dmcR1 f => exact catchUpThen_mapDmc_keptBy hnext (.inl ⟨f, rfl⟩)
  | dmcR2 f => exact catchUpThen_mapDmc_keptBy hnext (.inr (.inl ⟨f, rfl⟩))
  | dmcR3 f => exact catchUpThen_mapDmc_keptBy hnext (.inr (.inr ⟨f, rfl⟩))
  | statusW f => exact statusW_keptBy hnext
  | statusR => exact statusR_keptBy hnext
  | frameW f => exact frameW_keptBy hnext
  | nop4009 d | nop400D d =>
    cases hnext
    exact (Dev.Untouched.refl s.dev).keptBy _
  | _ => exact catchUpThen_keptBy _ hnext fun _ => ⟨rfl, rfl, rfl, rfl, rfl, rfl, rfl, rfl, rfl, rfl⟩

/-- Settles O58: the frame of each instruction, clause by clause. -/
theorem execFrame : Obligations.ExecFrame := by
  intro i s t hnext
  have h := exec_keptBy hnext
  exact ⟨fun a => by rw [h.mem], h.inp, h.host, h.todo, h.cfg, h.fixed, h.rate, h.dmcClock, h.ctrl, h.frameIrq,
    h.stolen, h.dmcIrq, h.dmc⟩

/-! ### The CPU's memory -/

/-- No event writes memory: a fetch of the Dmc reads it. -/
theorem runEvent_mem {e : HostEvent} (hnext : runEvent e s = .next t) : t.mem = s.mem := by
  cases e with
  | reset hard | configure new | flush length =>
    cases hnext
    rfl
  | update now =>
    obtain ⟨-, rfl⟩ := catchUpThen_next (atTime_next hnext).2
    rfl
  | endFrame now frameCycles stream a =>
    obtain ⟨-, hend⟩ := atTime_next hnext
    rw [execEndFrame] at hend
    split_ifs at hend
    obtain ⟨-, rfl⟩ := catchUpThen_next hend
    rw [deliverFrame_rest]
    rfl
  | dmcTick now =>
    cases (atTime_next hnext).2
    exact (dmcClocks_outside params _ _ _).mem
  | frameIrqTick now =>
    cases (atTime_next hnext).2
    rfl

/-- A step with a next state waits, runs a transaction's instruction at its time, an event or a store. -/
theorem step_next (hnext : step s = .next t) :
    (s.todo = [] ∧ t = s) ∨
    ∃ l rest, s.todo = l :: rest ∧
      ((∃ now odd w i, l = .bus now odd w ∧ decode w = .instr i ∧
          exec i { s with todo := rest, inp := { now := now, odd := odd } } = .next t) ∨
        (∃ e, l = .event e ∧ runEvent e { s with todo := rest } = .next t) ∨
        ∃ a b, l = .cpuStore a b ∧ t = { s with todo := rest, mem := Memory.write s.mem a b }) := by
  cases htodo : s.todo with
  | nil =>
    rw [step_of_no_line htodo] at hnext
    exact .inl ⟨rfl, (Host.Outcome.next.inj hnext).symm⟩
  | cons l rest =>
    rw [step_of_line htodo] at hnext
    refine .inr ⟨l, rest, rfl, ?_⟩
    cases l with
    | bus now odd w =>
      cases hdecode : decode w with
      | reject why => simp [runLine, runBus, hdecode] at hnext
      | instr i =>
        rw [runLine, runBus_of_instr hdecode] at hnext
        exact .inl ⟨now, odd, w, i, rfl, hdecode, (atTime_next hnext).2⟩
    | event e => exact .inr (.inl ⟨e, rfl, hnext⟩)
    | cpuStore a b => exact .inr (.inr ⟨a, b, rfl, (Host.Outcome.next.inj hnext).symm⟩)

theorem Dev.fetched_buffer (P : Params) (b : Byte) (d : Dev) : (d.fetched P b).dmc.dma.buffer = b := by
  unfold Dev.fetched endOfSample
  simp only
  split_ifs <;> rfl

/-- Settles O60: only the store line writes memory, and a fetch reads the byte that is listed. -/
theorem memoryOnlyByStore : Obligations.MemoryOnlyByStore := by
  refine ⟨fun s t hnext hnostore a => ?_, fun s a b rest htodo => ?_⟩
  · suffices hmem : t.mem = s.mem by rw [hmem]
    obtain ⟨-, rfl⟩ | ⟨l, rest, htodo, ⟨now, odd, w, i, -, -, hexec⟩ | ⟨e, -, hevent⟩ | ⟨x, b, rfl, -⟩⟩ :=
      step_next hnext
    · rfl
    · exact (exec_keptBy hexec).mem
    · exact runEvent_mem (s := { s with todo := rest }) hevent
    · exact absurd htodo (hnostore x b rest)
  · refine ⟨{ s with todo := rest, mem := Memory.write s.mem a b }, step_of_line htodo, rfl,
      Memory.read_write_same _ _ _, fun x hx => Memory.read_write_other hx _ _, ?_⟩
    rintro rfl
    rw [doDma_listed (Memory.read_write_same _ _ _)]
    exact Dev.fetched_buffer _ _ _

end Sys2Proof.Machine
end

section
/-!
PROOFS. The reset procedure (70_reset_and_hazards.md R400, R401), field by field, its numbers and its invariants.
-/

namespace Sys2Proof.Machine

/-- Settles O54: the fresh device is the statement's as it stands, both derivations being of the settings kept. -/
theorem resetProcedure : Obligations.ResetProcedure := by
  intro hard s cfg r v fixed rate cc ctrl osc env len square bit
  exact ⟨_, rfl, rfl, rfl, rfl, rfl⟩

/-- Settles O55: the numbers are those written out in the reset state. -/
theorem resetState : Obligations.ResetState := by
  exact ⟨rfl, rfl, rfl, rfl, rfl, rfl, rfl, rfl, rfl, rfl, rfl, rfl, rfl, rfl, rfl, rfl, rfl⟩

theorem powerOnSettings_ntsc_inv : SettingsInv params (powerOnSettings .ntsc) where
  bits := .inr rfl
  sampleRate := by decide
  effective := by decide
  derived := by rw [resetDev_derived]; decide

/-- Settles O56: the reset state is the fresh device of power-on, and every reset sets the next sample's time to 0. -/
theorem resetInv : Obligations.ResetInv := by
  refine ⟨⟨?_, List.Pairwise.nil, by simp [State.reset]⟩, dvd_zero _, fun hard s t hnext => ?_⟩
  · have hdev : State.reset.dev = powerOn params .ntsc := resetDev_eq
    rw [hdev]
    exact freshDev_inv params_valid powerOnSettings_ntsc_inv _
  · cases hnext
    exact dvd_zero _

end Sys2Proof.Machine
end

section
/-!
PROOFS. Every step keeps the invariants of 60_exceptions.md R382: the instructions, the host events and a store one by
one, and I15's second half on the `SYNTH` path.
-/

namespace Sys2Proof.Machine

variable {d : Dev} {s t : State}

/-! ### A change of one channel -/

section Channel

variable {P : Params} (h : d.Inv P)
include h

theorem Dev.Inv.mapSq0 {f : Square → Square} (hf : (f d.sq0).Inv P d.clk.rate d.clk.fixed (d.cc P)) :
    (d.mapSq0 f).Inv P := ⟨h.cfg, h.clk, hf, h.sq1, h.tri, h.noise, h.dmc, h.ring⟩

theorem Dev.Inv.mapSq1 {f : Square → Square} (hf : (f d.sq1).Inv P d.clk.rate d.clk.fixed (d.cc P)) :
    (d.mapSq1 f).Inv P := ⟨h.cfg, h.clk, h.sq0, hf, h.tri, h.noise, h.dmc, h.ring⟩

theorem Dev.Inv.mapTri {f : Triangle → Triangle} (hf : (f d.tri).Inv P d.clk.rate d.clk.fixed (d.cc P)) :
    (d.mapTri f).Inv P := ⟨h.cfg, h.clk, h.sq0, h.sq1, hf, h.noise, h.dmc, h.ring⟩

theorem Dev.Inv.mapNoise {f : Noise → Noise} (hf : (f d.noise).Inv P d.cfg.tv d.clk.rate d.clk.fixed (d.cc P)) :
    (d.mapNoise f).Inv P := ⟨h.cfg, h.clk, h.sq0, h.sq1, h.tri, hf, h.dmc, h.ring⟩

theorem enableChannels_inv (f : FStw) : (enableChannels P f d).Inv P :=
  ⟨h.cfg, h.clk, h.sq0.enable _, h.sq1.enable _, h.tri.enable _, h.noise.enable _, h.dmc, h.ring⟩

/-! ### The Dmc's registers -/

theorem dmcWriteR0_inv (f : FDctl) : (dmcWriteR0 P f d).Inv P := by
  have hm := h.dmc
  rw [dmcWriteR0_eq]
  exact ⟨h.cfg, h.clk, h.sq0, h.sq1, h.tri, h.noise, ⟨hm.dac, hm.address, hm.remaining, hm.regAddress, hm.regLength_pos,
    hm.regLength_le, rfl, hm.level, hm.smooth⟩, h.ring⟩

theorem dmcWriteR1_inv (hdac : P.dacMax = 0x7F) (f : FDdac) : (d.mapDmc (dmcWriteR1 P f)).Inv P := by
  have hm := h.dmc
  have hlevel : f.level.toNat ≤ P.dacMax := hdac ▸ Nat.le_of_lt_succ f.level.isLt
  exact h.withDmc ⟨hlevel, hm.address, hm.remaining, hm.regAddress, hm.regLength_pos, hm.regLength_le, hm.period, rfl,
    mul_nonneg (Int.natCast_nonneg _) (Int.natCast_nonneg _)⟩

theorem dmcWriteR2_inv (f : FByte) :
    (d.mapDmc fun m => { m with regAddress := dmcStartAddress f.value }).Inv P := by
  have hm := h.dmc
  have haddress : 0xC000 ≤ (dmcStartAddress f.value).toNat := by
    rw [dmcStartAddress_eq]
    have := f.value.isLt
    simp only [BitVec.toNat_ofNat]
    omega
  exact h.withDmc ⟨hm.dac, hm.address, hm.remaining, haddress, hm.regLength_pos, hm.regLength_le, hm.period, hm.level,
    hm.smooth⟩

theorem dmcWriteR3_inv (f : FByte) :
    (d.mapDmc fun m => { m with regLength := dmcSampleLength f.value }).Inv P := by
  have hm := h.dmc
  have hlength : 1 ≤ dmcSampleLength f.value ∧ dmcSampleLength f.value ≤ 4081 := by
    have := f.value.isLt
    unfold dmcSampleLength
    omega
  exact h.withDmc ⟨hm.dac, hm.address, hm.remaining, hm.regAddress, hlength.1, hlength.2, hm.period, hm.level,
    hm.smooth⟩

end Channel

/-! ### The instructions -/

/-- An operation that catches up keeps the invariant if what it does then keeps it. -/
theorem catchUpThen_inv {P : Params} (hP : P.Valid) {k : State → State} (h : s.dev.Inv P)
    (hnext : catchUpThen P s k = .next t) (hk : ∀ u : State, u.dev.Inv P → (k u).dev.Inv P) : t.dev.Inv P := by
  obtain ⟨-, rfl⟩ := catchUpThen_next hnext
  exact hk _ (State.caughtUp_spec hP h).1

theorem execFrameW_inv {f : FFrm} (h : s.dev.Inv params) (hnext : execFrameW f s = .next t) : t.dev.Inv params := by
  rw [execFrameW] at hnext
  split_ifs at hnext
  cases hnext
  exact frameWrite_inv params_valid f _ _ h

theorem execStatusR_inv (h : s.dev.Inv params) (hnext : execStatusR s = .next t) : t.dev.Inv params :=
  catchUpThen_inv params_valid (s := s.mapDev (frameIrqTick params s.nowU)) (frameIrqTick_inv params_valid h _) hnext
    fun _ hu => clearIrq_inv hu .frame

theorem execStatusW_inv {f : FStw} (h : s.dev.Inv params) (hnext : execStatusW f s = .next t) : t.dev.Inv params :=
  catchUpThen_inv params_valid h hnext fun u hu =>
    dmcSetEnabled_inv (s := u.mapDev (enableChannels params f)) (enableChannels_inv hu f) f.dmc

theorem exec_inv {i : Instr} (h : s.dev.Inv params) (hnext : exec i s = .next t) : t.dev.Inv params := by
  have hP := params_valid
  cases i with
  | sq1R0 f => exact catchUpThen_inv hP h hnext fun _ hu => hu.mapSq0 (hu.sq0.writeR0 f)
  | sq1R1 f => exact catchUpThen_inv hP h hnext fun _ hu => hu.mapSq0 (hu.sq0.writeR1 (hu.cc_pos hP) f)
  | sq1R2 f => exact catchUpThen_inv hP h hnext fun _ hu => hu.mapSq0 (hu.sq0.writeR2 (hu.cc_pos hP) f)
  | sq1R3 f => exact catchUpThen_inv hP h hnext fun _ hu => hu.mapSq0 (hu.sq0.writeR3 hP (hu.cc_pos hP) f)
  | sq2R0 f => exact catchUpThen_inv hP h hnext fun _ hu => hu.mapSq1 (hu.sq1.writeR0 f)
  | sq2R1 f => exact catchUpThen_inv hP h hnext fun _ hu => hu.mapSq1 (hu.sq1.writeR1 (hu.cc_pos hP) f)
  | sq2R2 f => exact catchUpThen_inv hP h hnext fun _ hu => hu.mapSq1 (hu.sq1.writeR2 (hu.cc_pos hP) f)
  | sq2R3 f => exact catchUpThen_inv hP h hnext fun _ hu => hu.mapSq1 (hu.sq1.writeR3 hP (hu.cc_pos hP) f)
  | triR0 f => exact catchUpThen_inv hP h hnext fun _ hu => hu.mapTri (hu.tri.writeR0 f)
  | triR2 f => exact catchUpThen_inv hP h hnext fun _ hu => hu.mapTri (hu.tri.writeR2 (hu.cc_pos hP) f)
  | triR3 f => exact catchUpThen_inv hP h hnext fun _ hu => hu.mapTri (hu.tri.writeR3 hP (hu.cc_pos hP) f)
  | noiR0 f => exact catchUpThen_inv hP h hnext fun _ hu => hu.mapNoise (hu.noise.writeR0 f)
  | noiR2 f => exact catchUpThen_inv hP h hnext fun _ hu => hu.mapNoise (hu.noise.writeR2 hP (hu.cc_pos hP) f)
  | noiR3 f => exact catchUpThen_inv hP h hnext fun _ hu => hu.mapNoise (hu.noise.writeR3 hP f)
  | dmcR0 f => exact catchUpThen_inv hP h hnext fun _ hu => dmcWriteR0_inv hu f
  | dmcR1 f => exact catchUpThen_inv hP h hnext fun _ hu => dmcWriteR1_inv hu hP.dacMax_eq f
  | dmcR2 f => exact catchUpThen_inv hP h hnext fun _ hu => dmcWriteR2_inv hu f
  | dmcR3 f => exact catchUpThen_inv hP h hnext fun _ hu => dmcWriteR3_inv hu f
  | statusW f => exact execStatusW_inv h hnext
  | statusR => exact execStatusR_inv h hnext
  | frameW f => exact execFrameW_inv h hnext
  | nop4009 b | nop400D b =>
    cases hnext
    exact h

/-! ### The host events -/

/-- After the catch-up nothing is due before the frame's end, so no counter falls below 0 (49_output_and_synthesis.md
R338). -/
theorem execEndFrame_inv {frameCycles : Nat} {stream : Option Nat} {a : LockAnswer} (h : s.dev.Inv params)
    (hnext : execEndFrame frameCycles stream a s = .next t) : t.dev.Inv params := by
  rw [execEndFrame] at hnext
  split_ifs at hnext with hrange
  obtain ⟨htime, rfl⟩ := catchUpThen_next hnext
  obtain ⟨hinv, hu, hsample, hframe⟩ := State.caughtUp_spec params_valid h
  have hend : (frameCycles : Int) * s.dev.clk.fixed ≤ s.nowU :=
    mul_le_mul_of_nonneg_right (by exact_mod_cast hrange.2) h.clk.fixed_pos.le
  have hdmc : s.nowU < (s.caughtUp params).clk.dmcClock := hu.dmcClock ▸ htime
  have hdelivered := deliverFrame_dev_inv params_valid (s := s.done (s.caughtUp params)) hinv stream a
  rw [← hu.fixed] at hend
  rw [deliverFrame_rest] at hdelivered ⊢
  exact rebase_inv hdelivered (hend.trans hsample) (hend.trans hframe) (hend.trans hdmc.le)

theorem runEvent_inv {e : HostEvent} (h : s.dev.Inv params) (hnext : runEvent e s = .next t) : t.dev.Inv params := by
  cases e with
  | reset hard =>
    cases hnext
    exact resetDevice_inv params_valid h.cfg hard
  | configure new =>
    cases hnext
    exact configure_inv params_valid h new
  | update now =>
    exact catchUpThen_inv (s := { s with inp := ⟨now, false⟩ }) params_valid h (atTime_next hnext).2 fun _ hu => hu
  | endFrame now frameCycles stream a =>
    exact execEndFrame_inv (s := { s with inp := ⟨now, false⟩ }) h (atTime_next hnext).2
  | flush length =>
    cases hnext
    exact flush_dev_inv params_valid h length
  | dmcTick now =>
    cases (atTime_next hnext).2
    exact (dmcClocks_spec params_valid _ _ (s := { s with inp := ⟨now, false⟩ }) h).1
  | frameIrqTick now =>
    cases (atTime_next hnext).2
    exact frameIrqTick_inv params_valid h _

/-! ### The sample grid -/

theorem catchUpThen_onSampleGrid {P : Params} {k : State → State} (hsynth : s.dev.cfg.synth = .synth)
    (h : s.dev.clk.OnSampleGrid) (hnext : catchUpThen P s k = .next t) (hk : ∀ u, (k u).dev.clk = u.dev.clk) :
    t.dev.clk.OnSampleGrid := by
  obtain ⟨-, rfl⟩ := catchUpThen_next hnext
  rw [hk]
  exact update_onSampleGrid s.nowU hsynth h

theorem frameIrqTick_onSampleGrid {P : Params} (limit : Int) (h : d.clk.OnSampleGrid) :
    (frameIrqTick P limit d).clk.OnSampleGrid := by
  rw [frameIrqTick_rest]
  exact h

theorem execStatusR_onSampleGrid (hsynth : s.dev.cfg.synth = .synth) (h : s.dev.clk.OnSampleGrid)
    (hnext : execStatusR s = .next t) : t.dev.clk.OnSampleGrid :=
  catchUpThen_onSampleGrid (s := s.mapDev (frameIrqTick params s.nowU))
    (by rw [State.mapDev_dev, frameIrqTick_rest]; exact hsynth) (frameIrqTick_onSampleGrid _ h) hnext fun _ => rfl

theorem execStatusW_onSampleGrid {f : FStw} (hsynth : s.dev.cfg.synth = .synth) (h : s.dev.clk.OnSampleGrid)
    (hnext : execStatusW f s = .next t) : t.dev.clk.OnSampleGrid :=
  catchUpThen_onSampleGrid hsynth h hnext fun u => by
    rw [dmcSetEnabled_fetchOnly]
    rfl

theorem execFrameW_onSampleGrid {f : FFrm} (hsynth : s.dev.cfg.synth = .synth) (h : s.dev.clk.OnSampleGrid)
    (hnext : execFrameW f s = .next t) : t.dev.clk.OnSampleGrid := by
  rw [execFrameW] at hnext
  split_ifs at hnext
  cases hnext
  obtain ⟨-, hclk, -⟩ := frameModeEffects_rest params f
    (frameRestart params f (frameResetTime params s.dev.cfg.tv s.inp.now s.inp.odd)
      (frameIrqTick params _ (update params _ s.dev)))
  rw [State.done_dev, frameWrite, hclk]
  exact frameIrqTick_onSampleGrid (P := params) _ (update_onSampleGrid (P := params) _ hsynth h)

theorem exec_onSampleGrid {i : Instr} (hsynth : s.dev.cfg.synth = .synth) (h : s.dev.clk.OnSampleGrid)
    (hnext : exec i s = .next t) : t.dev.clk.OnSampleGrid := by
  cases i with
  | dmcR0 f =>
    refine catchUpThen_onSampleGrid hsynth h hnext fun u => ?_
    rw [State.mapDev_dev, dmcWriteR0_eq]
  | statusW f => exact execStatusW_onSampleGrid hsynth h hnext
  | statusR => exact execStatusR_onSampleGrid hsynth h hnext
  | frameW f => exact execFrameW_onSampleGrid hsynth h hnext
  | nop4009 b | nop400D b =>
    cases hnext
    exact h
  | _ => exact catchUpThen_onSampleGrid hsynth h hnext fun _ => rfl

theorem runEvent_onSampleGrid {e : HostEvent} (hsynth : s.dev.cfg.synth = .synth) (h : s.dev.clk.OnSampleGrid)
    (hkeeps : keepsSampleGrid (.event e) = true) (hnext : runEvent e s = .next t) : t.dev.clk.OnSampleGrid := by
  cases e with
  | configure new | endFrame now frameCycles stream a => cases hkeeps
  | reset hard =>
    cases hnext
    exact dvd_zero _
  | update now =>
    exact catchUpThen_onSampleGrid (s := { s with inp := ⟨now, false⟩ }) hsynth h (atTime_next hnext).2 fun _ => rfl
  | flush length =>
    cases hnext
    exact h
  | dmcTick now =>
    cases (atTime_next hnext).2
    exact dmcClocks_onSampleGrid (s := { s with inp := ⟨now, false⟩ }) _ _ hsynth h
  | frameIrqTick now =>
    cases (atTime_next hnext).2
    exact frameIrqTick_onSampleGrid _ h

/-! ### The step -/

theorem step_inv (h : s.Inv params) (hnext : step s = .next t) : t.Inv params := by
  obtain ⟨-, rfl⟩ | ⟨l, rest, -, ⟨now, odd, w, i, -, -, hexec⟩ | ⟨e, -, hevent⟩ | ⟨a, b, -, rfl⟩⟩ := step_next hnext
  · exact h
  · exact ⟨exec_inv (s := { s with todo := rest, inp := ⟨now, odd⟩ }) h.dev hexec, (exec_keptBy hexec).mem ▸ h.mem⟩
  · exact ⟨runEvent_inv (s := { s with todo := rest }) h.dev hevent, runEvent_mem hevent ▸ h.mem⟩
  · exact ⟨h.dev, Memory.wf_write h.mem a b⟩

theorem step_onSampleGrid (hsynth : s.dev.cfg.synth = .synth) (h : s.dev.clk.OnSampleGrid)
    (hkeeps : ∀ l rest, s.todo = l :: rest → keepsSampleGrid l = true) (hnext : step s = .next t) :
    t.dev.clk.OnSampleGrid := by
  obtain ⟨-, rfl⟩ | ⟨l, rest, htodo, ⟨now, odd, w, i, -, -, hexec⟩ | ⟨e, rfl, hevent⟩ | ⟨a, b, -, rfl⟩⟩ :=
    step_next hnext
  · exact h
  · exact exec_onSampleGrid (s := { s with todo := rest, inp := ⟨now, odd⟩ }) hsynth h hexec
  · exact runEvent_onSampleGrid (s := { s with todo := rest }) hsynth h (hkeeps _ rest htodo) hevent
  · exact h

/-- Settles O57: the invariant and the sample grid line by line; a fetch is entered with bytes remaining. -/
theorem stepKeepsInv : Obligations.StepKeepsInv := by
  refine ⟨fun s t h hnext => ⟨step_inv h hnext, fun hgrid hsynth hkeeps => step_onSampleGrid hsynth hgrid hkeeps hnext⟩,
    fun s h => ?_⟩
  exact ⟨dmcSetEnabled_entersReady h.dev, clockOutputUnit_entersReady params s⟩

end Sys2Proof.Machine
end

section
/-!
PROOFS. The group functions of the mixer (48_mixer.md, section 1).
-/

namespace Sys2Proof.Machine

/-- A larger positive divisor gives no larger quotient. -/
theorem ediv_le_ediv_of_divisor_le {a b c : Int} (ha : 0 ≤ a) (hb : 0 < b) (hbc : b ≤ c) : a / c ≤ a / b := by
  lift a to ℕ using ha
  lift b to ℕ using hb.le
  lift c to ℕ using hb.le.trans hbc
  exact_mod_cast Nat.div_le_div_left (by exact_mod_cast hbc) (by exact_mod_cast hb)

section Group

variable (k0 k1 : Nat) {k2 : Nat} (hk2 : 0 < k2) {x : Int} (hx : 0 ≤ x)
include hk2 hx

/-- The divisor of a group's output is positive. -/
theorem groupDivisor_pos : 0 < (k1 : Int) / x + k2 := by
  have := Int.ediv_nonneg (Int.natCast_nonneg k1) hx
  omega

theorem groupOutput_nonneg : 0 ≤ groupOutput k0 k1 k2 x := by
  unfold groupOutput
  split_ifs
  · exact le_rfl
  · exact Int.ediv_nonneg (Int.natCast_nonneg k0) (groupDivisor_pos k1 hk2 hx).le

/-- A larger sum makes the inner quotient, and so the divisor, no larger. -/
theorem groupOutput_mono {y : Int} (hxy : x ≤ y) : groupOutput k0 k1 k2 x ≤ groupOutput k0 k1 k2 y := by
  have hy := hx.trans hxy
  rcases hx.eq_or_lt with rfl | hpos
  · simpa [groupOutput] using groupOutput_nonneg k0 k1 hk2 hy
  · have hinner : (k1 : Int) / y ≤ k1 / x := ediv_le_ediv_of_divisor_le (Int.natCast_nonneg k1) hpos hxy
    rw [groupOutput, groupOutput, if_neg hpos.ne', if_neg (hpos.trans_le hxy).ne']
    exact ediv_le_ediv_of_divisor_le (Int.natCast_nonneg k0) (groupDivisor_pos k1 hk2 hy) (by omega)

end Group

/-- Settles O42: both groups are of one form, which does not decrease; the table is computed. -/
theorem groupFunctions : Obligations.GroupFunctions := by
  refine ⟨fun x y hx hxy => ?_, by decide, by decide⟩
  have hsq : 0 < params.nlnSq2 := by decide
  have htnd : 0 < params.nlnTnd2 := by decide
  exact ⟨groupOutput_mono _ _ hsq hx hxy, groupOutput_mono _ _ htnd hx hxy, groupOutput_nonneg _ _ hsq hx,
    groupOutput_nonneg _ _ htnd hx⟩

end Sys2Proof.Machine
end

section
/-!
PROOFS. The number of samples an `Update(t)` makes (49_output_and_synthesis.md, section 1).
-/

namespace Sys2Proof.Machine

variable {P : Params} {d : Dev}

/-- After `n` passes: `n` sample times on and `n` samples pushed. -/
theorem hostSample_iterate (hP : P.Valid) (h : d.Inv P) (n : ℕ) :
    ((hostSample P)^[n] d).Inv P ∧ ((hostSample P)^[n] d).clk.rate = d.clk.rate ∧
      ((hostSample P)^[n] d).clk.rateCounter = d.clk.rateCounter + n * d.clk.rate ∧
      ((hostSample P)^[n] d).ring.pos = (d.ring.pos + n) % P.ringSize := by
  induction n with
  | zero => exact ⟨h, rfl, by simp, (Nat.mod_eq_of_lt h.ring.pos).symm⟩
  | succ n ih =>
    obtain ⟨hinv, hrate, hcounter, hpos⟩ := ih
    obtain ⟨hinv', hu, hring, hcounter', -⟩ := hostSample_spec hP hinv
    rw [Function.iterate_succ_apply']
    refine ⟨hinv', hu.rate.trans hrate, ?_, ?_⟩
    · rw [hcounter', hcounter, hrate]
      push_cast
      ring
    · rw [hring]
      show (_ + 1) % P.ringSize = _
      rw [hpos, Nat.mod_add_mod, Nat.add_assoc]

/-- The passes begun before `t` when the next is not: the rounded-up quotient of the time to `t`. -/
theorem passes_eq {c t rate : Int} (hrate : 0 < rate) {n : ℕ} (hdue : ∀ k < n, c + k * rate < t)
    (hdone : t ≤ c + n * rate) : n = if c < t then ((t - c + rate - 1) / rate).toNat else 0 := by
  cases n with
  | zero =>
    have hlate : ¬ c < t := by simpa using hdone
    exact (if_neg hlate).symm
  | succ m =>
    have hfirst : c < t := by simpa using hdue 0 m.succ_pos
    have hlast := hdue m m.lt_succ_self
    have hquot : (t - c + rate - 1) / rate = m + 1 := by
      rw [Int.ediv_eq_iff_of_pos hrate]
      push_cast at hdone
      constructor <;> linarith
    rw [if_pos hfirst, hquot]
    rfl

/-- Settles O44: the passes of the loop are the samples, and the sequencer steps after it move neither the sample time
nor the ring. -/
theorem sampleCount : Obligations.SampleCount := by
  intro d t h hsynth n
  obtain ⟨m, hm, hdue, hdone⟩ := synthPath_iterate params_valid t h
  have hpasses := hostSample_iterate params_valid h
  obtain ⟨hinv, -, hcounter, hpos⟩ := hpasses m
  have hmn : m = n := by
    refine passes_eq h.clk.rate_pos (fun k hk => ?_) (hcounter ▸ hdone)
    obtain ⟨-, -, hk', -⟩ := hpasses k
    exact hk' ▸ hdue k hk
  obtain ⟨-, -, hring, hsame, -, -⟩ := runSequencer_spec params_valid t hinv
  have hupdate : update params t d = runSequencer params t ((hostSample params)^[m] d) :=
    hm ▸ update_of_synth hsynth t
  rw [← hmn]
  refine ⟨?_, ?_, fun hsample hframe => update_idle hsample hframe h.clk.ext⟩
  · rw [hupdate, hsame, hcounter]
  · rw [hupdate, hring, hpos]
    rfl

end Sys2Proof.Machine
end

section
/-!
PROOFS. A block of the ring in two runs, and the end of a frame (49_output_and_synthesis.md R337 to R342).
-/

namespace Sys2Proof.Machine

/-- Settles O47: before the end of the ring the index does not wrap, and after it the run starts again at 0. -/
theorem blockWraps : Obligations.BlockWraps := by
  intro r n hstart hn n1
  have hfits : n < 0x4000 := hn.trans_lt (Ring.latency_lt params_valid r)
  refine ⟨rfl, ?_⟩
  have hsplit : n = n1 + (n - n1) := by omega
  have hfirst : ∀ k ∈ List.range n1, sampleAt r.output ((r.start + k) % 0x4000) = sampleAt r.output (r.start + k) := by
    intro k hk
    have hlt := List.mem_range.1 hk
    rw [Nat.mod_eq_of_lt (by omega)]
  have hsecond : ∀ k ∈ List.range (n - n1),
      sampleAt r.output ((r.start + (n1 + k)) % 0x4000) = sampleAt r.output k := by
    intro k hk
    have hlt := List.mem_range.1 hk
    have hindex : (r.start + (n1 + k)) % 0x4000 = k := by omega
    rw [hindex]
  calc r.block params n
      = (List.range (n1 + (n - n1))).map fun k => sampleAt r.output ((r.start + k) % 0x4000) := by
        rw [← hsplit]
        rfl
    _ = _ := by
        rw [List.range_add, List.map_append, List.map_map]
        exact congrArg₂ _ (List.map_congr_left hfirst) (List.map_congr_left hsecond)

/-- The output part of `EndFrame` as one update: it delivers on the `SYNTH` path with a stream and a lock that is not
refused, and a granted lock is released (49_output_and_synthesis.md R337, R339). -/
theorem deliverFrame_eq (P : Params) (stream : Option Nat) (a : LockAnswer) (s : State) :
    let flushed := flushRing P s.dev.cfg (stream.getD 0) s.dev.ring
    let delivers := stream.isSome = true ∧ s.dev.cfg.synth = .synth ∧ a ≠ .refused
    deliverFrame P stream a s = { s with
      dev := { s.dev with ring := if delivers then flushed.2 else s.dev.ring }
      host :=
        { buffer := if delivers then flushed.1 else s.host.buffer
          locks := s.host.locks + (if delivers ∧ a = .granted then 1 else 0)
          unlocks := s.host.unlocks + (if delivers ∧ a = .granted then 1 else 0) } } := by
  intro flushed delivers
  cases stream with
  | none => simp [deliverFrame, delivers]
  | some length =>
    obtain hsynth | hsynth : s.dev.cfg.synth = .advanceOnly ∨ s.dev.cfg.synth = .synth := by
      cases s.dev.cfg.synth <;> simp
    · simp [deliverFrame, delivers, hsynth]
    · cases a <;> simp [deliverFrame, delivers, flushed, hsynth, lockStream, unlockStream, flush]

/-- Settles O49: the catch-up leaves nothing due before the frame's end, so what is lowered stays at or above 0. -/
theorem endFrameRebases : Obligations.EndFrameRebases := by
  intro s frameCycles stream a h htime hpos hle c lower flushed delivers
  obtain ⟨-, hu, hsample, hframe⟩ := State.caughtUp_spec params_valid h.dev
  have hend : (frameCycles : Int) * s.dev.clk.fixed ≤ s.nowU :=
    mul_le_mul_of_nonneg_right (by exact_mod_cast hle) h.dev.clk.fixed_pos.le
  have hdmc : s.nowU < c.clk.dmcClock := hu.dmcClock ▸ htime
  refine ⟨?_, sub_nonneg.2 (hend.trans hsample), sub_nonneg.2 (hend.trans hframe), sub_nonneg.2 (hend.trans hdmc.le)⟩
  have hcfg : s.dev.cfg = c.cfg := hu.cfg.symm
  have hfixed : s.dev.clk.fixed = c.clk.fixed := hu.fixed.symm
  rw [execEndFrame, if_pos ⟨hpos, hle⟩, catchUpThen_onTime htime]
  simp only [deliverFrame_eq, delivers, flushed, lower, hcfg, hfixed]
  rfl

end Sys2Proof.Machine
end

section
/-!
PROOFS. A `Configure` that keeps the TV mode loses no master clock (47_clock_converter.md R291, R295, R296).
-/

namespace Sys2Proof.Machine

variable {P : Params} {d : Dev} {new : Settings}

theorem rescaled_self {fixed : Int} (hfixed : fixed ≠ 0) (c : Int) : rescaled fixed fixed c = c :=
  Int.mul_ediv_cancel c hfixed

theorem rescaleDevice_self (hfixed : d.clk.fixed ≠ 0) : rescaleDevice d.clk.fixed d.clk.rate d = d := by
  have htime : rescaled d.clk.fixed d.clk.fixed = id := funext (rescaled_self hfixed)
  have hosc : Osc.rescale d.clk.fixed d.clk.fixed = id := funext fun o => by rw [Osc.rescale, htime]; rfl
  simp only [rescaleDevice, htime, hosc, Option.map_id, id]

/-- A sound oscillator's copies are those of the clock (60_exceptions.md R382 I14). -/
theorem Osc.Inv.copies {rate fixed : Int} {o : Osc} (h : o.Inv rate fixed) :
    { o with rate := rate, fixed := fixed } = o := by
  rw [← h.rate_eq, ← h.fixed_eq]

/-- A valid period has the step length it is given again, and an invalid one's is scaled by 1. -/
theorem Square.newSettings_self {rate fixed cc : Int} {q : Square} (h : q.Inv P rate fixed cc) (hfixed : fixed ≠ 0) :
    q.newSettings rate fixed fixed cc = q := by
  have hfrequency : (if q.validFrequency then squarePeriod q.waveLength cc else q.osc.frequency * fixed / fixed) =
      q.osc.frequency := by
    split_ifs with hvalid
    · exact (h.period hvalid).symm
    · exact Int.mul_ediv_cancel _ hfixed
  rw [Square.newSettings, hfrequency, ← h.osc.rate_eq, ← h.osc.fixed_eq]

theorem updateChannelSettings_self (h : d.Inv P) : updateChannelSettings P d.clk.fixed d = d := by
  have hfixed := h.clk.fixed_pos.ne'
  rw [updateChannelSettings, Square.newSettings_self h.sq0 hfixed, Square.newSettings_self h.sq1 hfixed, extSetContext,
    ← h.tri.period, ← h.noise.period, ← h.dmc.period]
  show ({ d with
    tri := { d.tri with osc := { d.tri.osc with rate := d.clk.rate, fixed := d.clk.fixed } }
    noise := { d.noise with osc := { d.noise.osc with rate := d.clk.rate, fixed := d.clk.fixed } } } : Dev) = d
  rw [h.tri.osc.copies, h.noise.osc.copies]

theorem Dev.Inv.withCfg (h : d.Inv P) (hnew : SettingsInv P new) (htv : new.tv = d.cfg.tv)
    (hderive : deriveFor P new = deriveFor P d.cfg) : ({ d with cfg := new } : Dev).Inv P := by
  have hcc : ({ d with cfg := new } : Dev).cc P = d.cc P := by simp [Dev.cc, htv]
  have hc := h.clk
  refine ⟨hnew, ⟨hc.fixed_pos, hc.rate_pos, hderive ▸ hc.fixed_eq, hderive ▸ hc.rate_eq, hc.frame_whole, hc.dmc_whole,
    hc.irq_whole, hc.irq_finite, hc.rateCounter, hc.frameCounter, hc.dmcClock, hc.ext⟩, hcc ▸ h.sq0, hcc ▸ h.sq1,
    hcc ▸ h.tri, hcc ▸ htv ▸ h.noise, hcc ▸ htv ▸ h.dmc, h.ring⟩

/-- New settings of the same scale and the same sample length change a sound device in its settings alone. -/
theorem takeSettings_of_derive_eq (h : d.Inv P) (hnew : SettingsInv P new) (htv : new.tv = d.cfg.tv)
    (hderive : deriveFor P new = deriveFor P d.cfg) : takeSettings P new d = { d with cfg := new } := by
  have hrescale := rescaleDevice_self (d := { d with cfg := new }) h.clk.fixed_pos.ne'
  rw [takeSettings, hderive, ← h.clk.fixed_eq, ← h.clk.rate_eq, hrescale]
  exact updateChannelSettings_self (h.withCfg hnew htv hderive)

/-- Settles O53: a whole number of master clocks is carried exactly, and with the same scale everything is. -/
theorem configureKeepsPhase : Obligations.ConfigureKeepsPhase := by
  intro new s h htaken htv
  have hfixed := h.dev.clk.fixed_pos
  refine ⟨_, runEvent_configure_of_taken htaken htv, fun hrate hspeed => ?_, fun k hk => ?_, fun k hk => ?_,
    fun k hk => ?_⟩
  · have hderive : deriveFor params new = deriveFor params s.dev.cfg := by
      rw [deriveFor, deriveFor, htv, hrate, hspeed]
    rw [takeSettings_of_derive_eq h.dev (settingsInv_of_taken htaken).1 htv hderive]
    rfl
  · show rescaled _ _ _ = _
    rw [hk, rescaled_mul hfixed]
    rfl
  · show rescaled _ _ _ = _
    rw [hk, rescaled_mul hfixed]
    rfl
  · show Option.map _ _ = _
    rw [hk, Option.map_some, rescaled_mul hfixed]
    rfl

end Sys2Proof.Machine
end
